-- ==== Sys2Proof/Word.lean ====
section
/-! DEFINITION. The words of the block: a byte, a 32-bit register value, and the bundle of one command. Every quantity
is an unsigned value of a stated width (R10, R14 of 00_scope.md). -/

namespace Sys2Proof

/-- One byte: a byte of a frame, the checksum register, an enumeration code or class, a table or register id. -/
abbrev Byte := BitVec 8

/-- A 32-bit register value, or a field pattern carried zero-extended in 32 bits (R75 of 30_encoding.md). -/
abbrev Reg32 := BitVec 32

/-- One command as the host presents it: the operation code in bits 7..0 and the operand ports above it (R73 of
30_encoding.md leaves the bundling of ports open; log entry 4). 88 bits are eleven bytes, enough for the widest
operation, FLD.SET, whose code and ports take 83. -/
abbrev CmdWord := BitVec 88

end Sys2Proof
end

