-- ==== Sys2Proof/Config.lean ====
section
/-! DEFINITION. The parameters of the block: what an instance is constructed with and what no operation writes (R6 to R9 of
00_scope.md, R24 and R28 of 10_state.md, the table of open parameters of 92_eei_decisions.md), and the shapes of the
two parameter tables (R131, R138, R152 of 42_field_codec.md). The laws a configuration must satisfy are in
Machine/Catalogue.lean. -/

namespace Sys2Proof

/-- The length class of a transfer: 16, 32 or 64 bits (R64 of 30_encoding.md). -/
inductive LengthClass where
  | l16
  | l32
  | l64
deriving DecidableEq, Repr

/-- The equality policy of a field (R150 of 42_field_codec.md). -/
inductive Policy where
  | raw
  | canon
  | value
  | ignore
deriving DecidableEq, Repr

/-- One row of an enumeration table, for one code: whether the code names a variant, and its equivalence class
(`valid` and `canon` of R138; a ROM row, R161). -/
structure EnumRow where
  valid : Bool
  cls   : Byte
deriving DecidableEq, Repr

/-- An enumeration descriptor (R138): `rows` has one row for each of the `2 ^ width` codes, in the order of the codes, and
`rep` lists the representative code of each class in the range of `canon`. -/
structure EnumDesc where
  width      : Nat
  exhaustive : Bool
  rows       : List EnumRow
  rep        : List (Byte × Byte)
deriving DecidableEq, Repr

/-- The kind of a field (R131). The shift of a scaled magnitude is a natural number of the catalogue (R142). -/
inductive FieldKind where
  | bool
  | uint
  | enumExhaustive (t : Byte)
  | enumPartial (t : Byte)
  | scaled (shift : Nat)
  | splitHigh (lw hw : BitVec 5)
  | splitLow (lw hw : BitVec 5)
deriving DecidableEq, Repr

/-- A field descriptor (R131). `lsb` and `width` are the constants an instance of the template ties to the ports of the
same names (R130), so they have the ports' widths. -/
structure FieldDesc where
  name   : String
  lsb    : BitVec 5
  width  : BitVec 6
  kind   : FieldKind
  policy : Policy
deriving DecidableEq, Repr

/-- A post-encode and pre-decode hook (R152, R160). -/
inductive Hook where
  | invert (mask : Reg32)
  | parity (pos : BitVec 5) (cover : Reg32) (odd : Bool)
deriving DecidableEq, Repr

/-- A register descriptor (R152). -/
structure RegDesc where
  address : BitVec 12
  len     : LengthClass
  fields  : List FieldDesc
  hooks   : List Hook
deriving DecidableEq, Repr

/-- The configuration of one instance. It is fixed at construction and constant afterwards (R8, R24, R28). -/
structure Config where
  /-- CRC_POLY, the generator without its top term (R6). -/
  crcPoly     : Byte
  /-- CRC_XOROUT, the final exclusive-or of the checksum (R6, D2). -/
  crcXorOut   : Byte
  /-- OP_BIT_READ (R7). -/
  opBitRead   : BitVec 1
  /-- OP_BIT_WRITE (R7). -/
  opBitWrite  : BitVec 1
  /-- LEN_CODE(L16) (R7). -/
  lenCode16   : BitVec 2
  /-- LEN_CODE(L32) (R7). -/
  lenCode32   : BitVec 2
  /-- LEN_CODE(L64) (R7). -/
  lenCode64   : BitVec 2
  /-- SCL_EXP_HIGH: the exponent of a scaled magnitude is in the two high bits of its field (R70, D9). -/
  sclExpHigh  : Bool
  /-- DEV_ADDR, the bus address of the target chip (R24). -/
  devAddr     : BitVec 7
  /-- CFG_SECTION_ID (R24). -/
  sectionId   : BitVec 4
  /-- CFG_PAGE_ID (R24). -/
  pageId      : BitVec 4
  /-- ENUM_TABLE (R9, R138): table id to descriptor. -/
  enumTable   : List (Byte × EnumDesc)
  /-- REG_TEMPLATE (R9, R152): register id to descriptor. -/
  regTemplate : List (Byte × RegDesc)
deriving DecidableEq, Repr

/-- The values the spec recommends for the open parameters (R6, R7, R24, D2 to D5, D9), an empty catalogue and device
address 0. DESIGN CHOICE, unsafe (log entry 1): it is only what `State.reset` holds, and no statement rests on it. -/
def Config.recommended : Config where
  crcPoly     := 0x07#8
  crcXorOut   := 0x55#8
  opBitRead   := 1#1
  opBitWrite  := 0#1
  lenCode16   := 0b00#2
  lenCode32   := 0b01#2
  lenCode64   := 0b10#2
  sclExpHigh  := true
  devAddr     := 0#7
  sectionId   := 0#4
  pageId      := 0#4
  enumTable   := []
  regTemplate := []

end Sys2Proof
end

