-- ==== Sys2Proof/Syntax.lean ====
section
/-! DEFINITION. The twenty-three operations of the block, one constructor per row of spec/opcode_table.json, with the operands
and port widths of R74 of 30_encoding.md. -/

namespace Sys2Proof

/-- An operation with its operands, in the order of R74. One-bit ports that are packed or shifted as bits (`op`, `crcEn`,
`b`) are bit vectors; one-bit ports that are tags or senses (`known`, `auto`, `odd`) are Booleans. -/
inductive Instr where
  /-- CRC.INIT (R92) -/
  | crcInit
  /-- CRC.FEED b (R93) -/
  | crcFeed (b : Byte)
  /-- CRC.READ (R94) -/
  | crcRead
  /-- CRC.CHECK rx (R95) -/
  | crcCheck (rx : Byte)
  /-- HDR.ENC op, crc_en, len, addr (R112) -/
  | hdrEnc (op crcEn : BitVec 1) (len : BitVec 2) (addr : BitVec 12)
  /-- HDR.ENCX op, crc_en, len, section, page, addr (R113) -/
  | hdrEncx (op crcEn : BitVec 1) (len : BitVec 2) (sectionId pageId : BitVec 4) (addr : BitVec 12)
  /-- HDR.DEC h0, h1, h2 (R116) -/
  | hdrDec (h0 h1 h2 : Byte)
  /-- FLD.GET lsb, width, v (R132) -/
  | fldGet (lsb : BitVec 5) (width : BitVec 6) (v : Reg32)
  /-- FLD.SET lsb, width, v, f (R133) -/
  | fldSet (lsb : BitVec 5) (width : BitVec 6) (v f : Reg32)
  /-- BIT.GET pos, v (R134) -/
  | bitGet (pos : BitVec 5) (v : Reg32)
  /-- BIT.SET pos, v, b (R135) -/
  | bitSet (pos : BitVec 5) (v : Reg32) (b : BitVec 1)
  /-- ENUM.DEC t, code (R139) -/
  | enumDec (t code : Byte)
  /-- ENUM.ENC t, known, code (R140) -/
  | enumEnc (t : Byte) (known : Bool) (code : Byte)
  /-- ENUM.CANON t, code (R141) -/
  | enumCanon (t code : Byte)
  /-- ENUM.REP t, class (R162) -/
  | enumRep (t cls : Byte)
  /-- SCL.DEC f (R143) -/
  | sclDec (f : BitVec 10)
  /-- SCL.ENC auto, mantissa, exponent (R144) -/
  | sclEnc (auto : Bool) (mantissa : Byte) (exponent : BitVec 2)
  /-- SPL.COMB lw, hw, high, low (R147) -/
  | splComb (lw hw : BitVec 5) (high low : Reg32)
  /-- SPL.SPLIT lw, hw, logical (R148) -/
  | splSplit (lw hw : BitVec 5) (logical : Reg32)
  /-- EQ.FLD policy, t, a, b (R151) -/
  | eqFld (policy : Policy) (t : Byte) (a b : Reg32)
  /-- EQ.REG r, a, b (R156) -/
  | eqReg (r : Byte) (a b : Reg32)
  /-- POST.INV mask, v (R158) -/
  | postInv (mask v : Reg32)
  /-- POST.PAR pos, cover, odd, v (R159) -/
  | postPar (pos : BitVec 5) (cover : Reg32) (odd : Bool) (v : Reg32)
deriving DecidableEq, Repr

end Sys2Proof
end

