-- ==== Sys2Proof/WellFormed.lean ====
section
/-! DEFINITION. Which operands are in the legal set their rule states, as far as the operation alone shows it (R75 of
30_encoding.md and the operand tests of 42_field_codec.md). Tests that read the configuration (a length code, a table
or register id, a code against its table) are no part of it. An operation that is not well formed is still an
operation: the block answers it with IllegalOperand (R194 of 60_exceptions.md), and it still encodes and decodes. -/

namespace Sys2Proof

/-- A field position inside a 32-bit value (R71): the width is at least 1 and the field ends at bit 31 or below. -/
def fieldInReg (lsb : BitVec 5) (width : BitVec 6) : Bool :=
  decide (1 ≤ width.toNat) && decide (lsb.toNat + width.toNat ≤ 32)

/-- `x < 2 ^ w`: the bits of a port above the width of the field it carries are zero (R75). -/
def fitsWidth (w : Nat) (x : Reg32) : Bool := decide (x.toNat < 2 ^ w)

/-- Legal widths of the two parts of a split field (R146). -/
def splitWidths (lw hw : BitVec 5) : Bool :=
  decide (1 ≤ lw.toNat) && decide (1 ≤ hw.toNat) && decide (lw.toNat + hw.toNat ≤ 32)

/-- A decoded scaled value (R144): Auto carries no number, and a number is not the all-zero pattern. -/
def scaledIsValue (auto : Bool) (mantissa : Byte) (exponent : BitVec 2) : Bool :=
  auto == (decide (mantissa = 0#8) && decide (exponent = 0#2))

/-- Every operand is in the legal set its rule states, without regard to the configuration. -/
def Instr.wellFormed : Instr → Bool
  | .crcInit => true
  | .crcFeed _ => true
  | .crcRead => true
  | .crcCheck _ => true
  | .hdrEnc _ _ _ _ => true
  | .hdrEncx _ _ _ _ _ _ => true
  | .hdrDec _ _ _ => true
  | .fldGet lsb width _ => fieldInReg lsb width
  | .fldSet lsb width _ f => fieldInReg lsb width && fitsWidth width.toNat f
  | .bitGet _ _ => true
  | .bitSet _ _ _ => true
  | .enumDec _ _ => true
  | .enumEnc _ _ _ => true
  | .enumCanon _ _ => true
  | .enumRep _ _ => true
  | .sclDec _ => true
  | .sclEnc auto mantissa exponent => scaledIsValue auto mantissa exponent
  | .splComb lw hw high low => splitWidths lw hw && fitsWidth hw.toNat high && fitsWidth lw.toNat low
  | .splSplit lw hw logical => splitWidths lw hw && fitsWidth (lw.toNat + hw.toNat) logical
  | .eqFld policy _ a b =>
    match policy with
    | .value => fitsWidth 10 a && fitsWidth 10 b
    | .raw => true
    | .canon => true
    | .ignore => true
  | .eqReg _ _ _ => true
  | .postInv _ _ => true
  | .postPar pos cover _ _ => !cover.getLsbD pos.toNat

end Sys2Proof
end

