-- ==== Sys2Proof/Decode.lean ====
section
/-! DEFINITION. The command interface, format CMD (R73 to R77 of 30_encoding.md): from the bundle of an operation code and its
operand ports to an operation, or to a named rejection, and back. The code is in bits 7..0 (opcode_table.json: `opc` is
cmd[7:0]). The operand ports follow it from bit 8 upward in the order of R74, the first operand lowest, without gaps
(R73 leaves the bundling open; log entry 4). Ports an operation does not name are not read. -/

namespace Sys2Proof

/-- Why a command is no operation: its code is unassigned (R77). -/
inductive DecodeError where
  | unassigned (opc : Byte)
deriving DecidableEq, Repr

/-- The `n` wires of a command from bit `lo` up. -/
def port (w : CmdWord) (lo n : Nat) : BitVec n := w.extractLsb' lo n

/-- One wire as a Boolean. -/
def portFlag (w : CmdWord) (lo : Nat) : Bool := w.getLsbD lo

/-- The policy of a 2-bit policy code (R75, R150): 0 raw, 1 canon, 2 value, 3 ignore. -/
def policyOfCode (c : BitVec 2) : Policy :=
  if c = 0#2 then .raw
  else if c = 1#2 then .canon
  else if c = 2#2 then .value
  else .ignore

/-- The 2-bit code of a policy (R75, R150). -/
def codeOfPolicy : Policy → BitVec 2
  | .raw => 0#2
  | .canon => 1#2
  | .value => 2#2
  | .ignore => 3#2

/-- The operation of a command (R74), or the rejection of an unassigned code (R77). -/
def decode (w : CmdWord) : Except DecodeError Instr :=
  match (port w 0 8).toNat with
  | 0x10 => .ok .crcInit
  | 0x11 => .ok (.crcFeed (port w 8 8))
  | 0x12 => .ok .crcRead
  | 0x13 => .ok (.crcCheck (port w 8 8))
  | 0x20 => .ok (.hdrEnc (port w 8 1) (port w 9 1) (port w 10 2) (port w 12 12))
  | 0x21 => .ok (.hdrEncx (port w 8 1) (port w 9 1) (port w 10 2) (port w 12 4) (port w 16 4) (port w 20 12))
  | 0x22 => .ok (.hdrDec (port w 8 8) (port w 16 8) (port w 24 8))
  | 0x30 => .ok (.fldGet (port w 8 5) (port w 13 6) (port w 19 32))
  | 0x31 => .ok (.fldSet (port w 8 5) (port w 13 6) (port w 19 32) (port w 51 32))
  | 0x32 => .ok (.bitGet (port w 8 5) (port w 13 32))
  | 0x33 => .ok (.bitSet (port w 8 5) (port w 13 32) (port w 45 1))
  | 0x40 => .ok (.enumDec (port w 8 8) (port w 16 8))
  | 0x41 => .ok (.enumEnc (port w 8 8) (portFlag w 16) (port w 17 8))
  | 0x42 => .ok (.enumCanon (port w 8 8) (port w 16 8))
  | 0x43 => .ok (.enumRep (port w 8 8) (port w 16 8))
  | 0x50 => .ok (.sclDec (port w 8 10))
  | 0x51 => .ok (.sclEnc (portFlag w 8) (port w 9 8) (port w 17 2))
  | 0x60 => .ok (.splComb (port w 8 5) (port w 13 5) (port w 18 32) (port w 50 32))
  | 0x61 => .ok (.splSplit (port w 8 5) (port w 13 5) (port w 18 32))
  | 0x70 => .ok (.eqFld (policyOfCode (port w 8 2)) (port w 10 8) (port w 18 32) (port w 50 32))
  | 0x71 => .ok (.eqReg (port w 8 8) (port w 16 32) (port w 48 32))
  | 0x80 => .ok (.postInv (port w 8 32) (port w 40 32))
  | 0x81 => .ok (.postPar (port w 8 5) (port w 13 32) (portFlag w 45) (port w 46 32))
  | _ => .error (.unassigned (port w 0 8))

/-- The operation code of an operation (R74). -/
def Instr.opc : Instr → Byte
  | .crcInit => 0x10#8
  | .crcFeed _ => 0x11#8
  | .crcRead => 0x12#8
  | .crcCheck _ => 0x13#8
  | .hdrEnc _ _ _ _ => 0x20#8
  | .hdrEncx _ _ _ _ _ _ => 0x21#8
  | .hdrDec _ _ _ => 0x22#8
  | .fldGet _ _ _ => 0x30#8
  | .fldSet _ _ _ _ => 0x31#8
  | .bitGet _ _ => 0x32#8
  | .bitSet _ _ _ => 0x33#8
  | .enumDec _ _ => 0x40#8
  | .enumEnc _ _ _ => 0x41#8
  | .enumCanon _ _ => 0x42#8
  | .enumRep _ _ => 0x43#8
  | .sclDec _ => 0x50#8
  | .sclEnc _ _ _ => 0x51#8
  | .splComb _ _ _ _ => 0x60#8
  | .splSplit _ _ _ => 0x61#8
  | .eqFld _ _ _ _ => 0x70#8
  | .eqReg _ _ _ => 0x71#8
  | .postInv _ _ => 0x80#8
  | .postPar _ _ _ _ => 0x81#8

/-- The name of an operation in the written syntax of R80. -/
def Instr.mnemonic : Instr → String
  | .crcInit => "CRC.INIT"
  | .crcFeed _ => "CRC.FEED"
  | .crcRead => "CRC.READ"
  | .crcCheck _ => "CRC.CHECK"
  | .hdrEnc _ _ _ _ => "HDR.ENC"
  | .hdrEncx _ _ _ _ _ _ => "HDR.ENCX"
  | .hdrDec _ _ _ => "HDR.DEC"
  | .fldGet _ _ _ => "FLD.GET"
  | .fldSet _ _ _ _ => "FLD.SET"
  | .bitGet _ _ => "BIT.GET"
  | .bitSet _ _ _ => "BIT.SET"
  | .enumDec _ _ => "ENUM.DEC"
  | .enumEnc _ _ _ => "ENUM.ENC"
  | .enumCanon _ _ => "ENUM.CANON"
  | .enumRep _ _ => "ENUM.REP"
  | .sclDec _ => "SCL.DEC"
  | .sclEnc _ _ _ => "SCL.ENC"
  | .splComb _ _ _ _ => "SPL.COMB"
  | .splSplit _ _ _ => "SPL.SPLIT"
  | .eqFld _ _ _ _ => "EQ.FLD"
  | .eqReg _ _ _ => "EQ.REG"
  | .postInv _ _ => "POST.INV"
  | .postPar _ _ _ _ => "POST.PAR"

/-- A command's wires from the concatenation of its ports, the code in the least significant bits; wires of no port
are zero. -/
def bundle {n : Nat} (x : BitVec n) : CmdWord := x.setWidth 88

/-- The command that presents an operation (R74, R75). The most significant operand is written first. -/
def encode : Instr → CmdWord
  | .crcInit => bundle 0x10#8
  | .crcFeed b => bundle (b ++ 0x11#8)
  | .crcRead => bundle 0x12#8
  | .crcCheck rx => bundle (rx ++ 0x13#8)
  | .hdrEnc op crcEn len addr => bundle (addr ++ len ++ crcEn ++ op ++ 0x20#8)
  | .hdrEncx op crcEn len sect page addr => bundle (addr ++ page ++ sect ++ len ++ crcEn ++ op ++ 0x21#8)
  | .hdrDec h0 h1 h2 => bundle (h2 ++ h1 ++ h0 ++ 0x22#8)
  | .fldGet lsb width v => bundle (v ++ width ++ lsb ++ 0x30#8)
  | .fldSet lsb width v f => bundle (f ++ v ++ width ++ lsb ++ 0x31#8)
  | .bitGet pos v => bundle (v ++ pos ++ 0x32#8)
  | .bitSet pos v b => bundle (b ++ v ++ pos ++ 0x33#8)
  | .enumDec t code => bundle (code ++ t ++ 0x40#8)
  | .enumEnc t known code => bundle (code ++ BitVec.ofBool known ++ t ++ 0x41#8)
  | .enumCanon t code => bundle (code ++ t ++ 0x42#8)
  | .enumRep t cls => bundle (cls ++ t ++ 0x43#8)
  | .sclDec f => bundle (f ++ 0x50#8)
  | .sclEnc auto mantissa exponent => bundle (exponent ++ mantissa ++ BitVec.ofBool auto ++ 0x51#8)
  | .splComb lw hw high low => bundle (low ++ high ++ hw ++ lw ++ 0x60#8)
  | .splSplit lw hw logical => bundle (logical ++ hw ++ lw ++ 0x61#8)
  | .eqFld policy t a b => bundle (b ++ a ++ t ++ codeOfPolicy policy ++ 0x70#8)
  | .eqReg r a b => bundle (b ++ a ++ r ++ 0x71#8)
  | .postInv mask v => bundle (v ++ mask ++ 0x80#8)
  | .postPar pos cover odd v => bundle (v ++ BitVec.ofBool odd ++ cover ++ pos ++ 0x81#8)

/-- The command whose low `nbits` bits are those of `w` and whose other wires are zero. -/
def tableCommand (nbits w : Nat) : CmdWord := BitVec.ofNat 88 (w % 2 ^ nbits)

/-- What the decoder reads from a word numbered as opcode_table.json numbers it: bit 0 is wire 0 of the command. -/
def decodeTableWord (nbits w : Nat) : Option Instr :=
  match decode (tableCommand nbits w) with
  | .ok i => some i
  | .error _ => none

end Sys2Proof
end

