-- ==== Sys2Proof/Machine/State.lean ====
section
/-! DEFINITION. The state of the block and what an operation answers (10_state.md, 60_exceptions.md). The block has one register,
`crc` (R20), and the outputs of its last operation (R25, R190). The configuration stands beside them as constant data
(R24, R28), and the list of what the host still presents stands in the model's own field `inputs`. -/

namespace Sys2Proof.Machine

/-- A command header before it is packed, the record CommandHeader (R61, R113): the 24 bits of a header by field. -/
structure CommandHeader where
  op        : BitVec 1
  crcEn     : BitVec 1
  len       : BitVec 2
  sectionId : BitVec 4
  pageId    : BitVec 4
  addr      : BitVec 12
deriving DecidableEq, Repr

/-- The results of an operation that ended OK, by the result ports of R74. -/
inductive Results where
  /-- no result port (CRC.INIT, CRC.FEED) -/
  | empty
  /-- sum (CRC.READ) -/
  | sum (sum : Byte)
  /-- ok (CRC.CHECK) -/
  | check (ok : Bool)
  /-- h0, h1, h2 (HDR.ENC, HDR.ENCX) -/
  | header (h0 h1 h2 : Byte)
  /-- op, crc_en, len, section, page, addr, len_ok (HDR.DEC) -/
  | fields (h : CommandHeader) (lenOk : Bool)
  /-- f (FLD.GET) -/
  | field (f : Reg32)
  /-- b (BIT.GET) -/
  | bit (b : BitVec 1)
  /-- v' (FLD.SET, BIT.SET, POST.INV, POST.PAR) -/
  | value (v : Reg32)
  /-- known, code (ENUM.DEC): the tagged value Known(code) or Reserved(code) of R13 -/
  | decoded (known : Bool) (code : Byte)
  /-- code (ENUM.ENC, ENUM.REP) -/
  | code (code : Byte)
  /-- class (ENUM.CANON) -/
  | cls (cls : Byte)
  /-- auto, mantissa, exponent (SCL.DEC): the tagged value Auto or Num of R13 -/
  | scaled (auto : Bool) (mantissa : Byte) (exponent : BitVec 2)
  /-- f (SCL.ENC) -/
  | pattern (f : BitVec 10)
  /-- logical (SPL.COMB) -/
  | logical (logical : Reg32)
  /-- high, low (SPL.SPLIT) -/
  | parts (high low : Reg32)
  /-- equal (EQ.FLD, EQ.REG) -/
  | equal (equal : Bool)
deriving DecidableEq, Repr

/-- The operand a status IllegalOperand carries (R191: "the operand"), as each rule's `raise` names it. -/
inductive BadOperand where
  /-- `IllegalOperand(len)` (R112, R113) -/
  | len (len : BitVec 2)
  /-- `IllegalOperand(lsb, width)` (R132, R133) -/
  | position (lsb : BitVec 5) (width : BitVec 6)
  /-- `IllegalOperand(f)` (R133) -/
  | fieldValue (f : Reg32)
  /-- `IllegalOperand(t)` (R139 to R141, R162, R151) -/
  | table (t : Byte)
  /-- `IllegalOperand(code)` (R139 to R141) -/
  | code (code : Byte)
  /-- `IllegalOperand(known)` (R140) -/
  | known (known : Bool)
  /-- `IllegalOperand(class)` (R162) -/
  | cls (cls : Byte)
  /-- `IllegalOperand(mantissa, exponent)` (R144) -/
  | scaled (mantissa : Byte) (exponent : BitVec 2)
  /-- `IllegalOperand(lw, hw)` (R147, R148) -/
  | splitWidths (lw hw : BitVec 5)
  /-- `IllegalOperand(high, low)` (R147) -/
  | splitParts (high low : Reg32)
  /-- `IllegalOperand(logical)` (R148) -/
  | logical (logical : Reg32)
  /-- `IllegalOperand(a, b)` (R151) -/
  | patterns (a b : Reg32)
  /-- `IllegalOperand(r)` (R156, R152) -/
  | register (r : Byte)
  /-- `IllegalOperand(pos, cover)` (R159) -/
  | parity (pos : BitVec 5) (cover : Reg32)
deriving DecidableEq, Repr

/-- A non-OK status with the information R191 lists for it. -/
inductive Raise where
  /-- raised by FRM.RDCHK (R175, R192) -/
  | checksumMismatch (expected received : Byte)
  /-- raised by REG.VERIFY (R177, R193) -/
  | readbackMismatch (written readback : Reg32)
  /-- raised by the operations R191 lists for it (R194) -/
  | illegalOperand (operand : BadOperand)
  /-- raised by the command interface (R195) -/
  | illegalOp (opc : Byte)
deriving DecidableEq, Repr

/-- What one operation answers: the status OK with its results, or another status with its information and no result
(R12, R190). After a non-OK status the results "are not valid and must not be read": the model gives them no value
(log entry 3). -/
inductive Response where
  | ok (results : Results)
  | raised (status : Raise)
deriving DecidableEq, Repr

/-- The 3-bit status code of a non-OK status (R191). -/
def Raise.code : Raise → BitVec 3
  | .checksumMismatch _ _ => 1#3
  | .readbackMismatch _ _ => 2#3
  | .illegalOperand _ => 3#3
  | .illegalOp _ => 4#3

/-- The 3-bit status code of an answer (R191). -/
def Response.status : Response → BitVec 3
  | .ok _ => 0#3
  | .raised e => e.code

/-- What the host presents between two operations: a command (R73) or the reset event (R215). -/
inductive HostInput where
  | command (w : CmdWord)
  | reset
deriving DecidableEq, Repr

/-- The reasons the block can stop with a fault. There are none: a non-OK status belongs to one operation, after it
the block is ready for the next one at once, and nothing ends its service (R190, R199). -/
inductive Fault where
deriving DecidableEq, Repr

/-- The reasons the model gives a step no meaning. -/
inductive Refusal where
  /-- Raised by `exec` alone, for an operation the model does not cover yet. Safe. No operation is left in it. -/
  | notModelled (mnemonic : String)
  /-- Raised by `step` for a configuration that breaks a law of R7, R131, R138 or R152: R217 makes those laws
  hold before the first operation, R131 and U17 of 93_implementation_defined.md have a model refuse a catalogue that
  breaks one. Safe (log entry 6). -/
  | illFormedConfiguration
  /-- Raised by EQ.REG for a register whose length class is not L32: R152 has the field codec handle 32-bit values, and
  U19 of 93_implementation_defined.md rules the field codec on such a register `refuse`. Safe (log entry 11). -/
  | notThirtyTwoBit
deriving DecidableEq, Repr

/-- The state of one instance of the block. -/
structure State where
  /-- The configuration of the instance (R24, R28): constant, no step changes it. -/
  cfg      : Config
  /-- The running remainder of the checksum engine (R20), without the final exclusive-or. -/
  crc      : Byte
  /-- The outputs of the last operation (R25, R190); `none` after reset, when they are unspecified and must not be
  read (R29; log entry 3). -/
  response : Option Response
  /-- What the host still presents, oldest first (R12, R23). The model's own field (log entry 5). -/
  inputs   : List HostInput
deriving DecidableEq, Repr

/-- The block right after reset, for an instance constructed with configuration `cfg` and with nothing presented:
`crc` is 0x00 and the outputs are unspecified (R29, R216). -/
def State.constructed (cfg : Config) : State where
  cfg      := cfg
  crc      := 0x00#8
  response := none
  inputs   := []

/-- The machine right after reset (R29, R216), with the recommended configuration (DESIGN CHOICE, log entry 1). -/
def State.reset : State := State.constructed Config.recommended

end Sys2Proof.Machine
end

