-- ==== Sys2Proof/Machine/Catalogue.lean ====
section
/-! DEFINITION. Reading the two parameter tables and the laws they must satisfy (R131, R138, R152, R161 of 42_field_codec.md,
R28 of 10_state.md), and the laws of the whole configuration (R7 of 00_scope.md, R217 of 70_reset_and_hazards.md). -/

namespace Sys2Proof.Machine

/-! ### Enumerations -/

/-- The row of a code. The default row stands outside the table of a well-formed descriptor and is never read there
(log entry 14). -/
def enumRow (d : EnumDesc) (code : Byte) : EnumRow := d.rows.getD code.toNat { valid := false, cls := 0#8 }

/-- `valid(code)` (R138). -/
def enumValid (d : EnumDesc) (code : Byte) : Bool := (enumRow d code).valid

/-- `canon(code)` (R138). -/
def enumClass (d : EnumDesc) (code : Byte) : Byte := (enumRow d code).cls

/-- `code < 2 ^ width`. -/
def enumFits (d : EnumDesc) (code : Byte) : Bool := decide (code.toNat < 2 ^ d.width)

/-- The codes of an enumeration, `0 .. 2 ^ width - 1`. -/
def enumCodes (d : EnumDesc) : List Byte := (List.range (2 ^ d.width)).map (BitVec.ofNat 8)

/-- The range of `canon` (R138). -/
def enumClasses (d : EnumDesc) : List Byte := (enumCodes d).map (enumClass d)

/-- `rep(class)` (R138), defined on the range of `canon`. The default stands outside that range (log entry 14). -/
def enumRep (d : EnumDesc) (cls : Byte) : Byte := (d.rep.lookup cls).getD 0#8

/-- The law of `rep` for one class: it is given, it is a code of the field, `canon(rep(k)) = k`, and it is a valid code
whenever some valid code has class `k` (R138). -/
def enumRepLaw (d : EnumDesc) (cls : Byte) : Bool :=
  match d.rep.lookup cls with
  | none => false
  | some c =>
    enumFits d c && decide (enumClass d c = cls) &&
      (enumValid d c || (enumCodes d).all fun c' => !(enumValid d c' && decide (enumClass d c' = cls)))

/-- The laws of an enumeration descriptor (R138): 1 to 8 bits, one row for each code (R161), every code valid exactly
when it is exhaustive, and the law of `rep` for every class. -/
def enumWf (d : EnumDesc) : Bool :=
  decide (1 ≤ d.width) && decide (d.width ≤ 8) && decide (d.rows.length = 2 ^ d.width) &&
    (d.exhaustive == (enumCodes d).all (enumValid d)) && (enumClasses d).all (enumRepLaw d)

/-- `ENUM_TABLE[t]` (R9, R28). -/
def enumTable? (c : Config) (t : Byte) : Option EnumDesc := c.enumTable.lookup t

/-! ### Fields and registers -/

/-- The enumeration table of a field's kind, if it has one. -/
def kindTable : FieldKind → Option Byte
  | .bool => none
  | .uint => none
  | .enumExhaustive t => some t
  | .enumPartial t => some t
  | .scaled _ => none
  | .splitHigh _ _ => none
  | .splitLow _ _ => none

/-- The two widths of a split field are legal (R146). -/
def splitKindWf (lw hw : BitVec 5) : Bool :=
  decide (1 ≤ lw.toNat) && decide (1 ≤ hw.toNat) && decide (lw.toNat + hw.toNat ≤ 32)

/-- The width a kind asks of its field, and the laws of the kind itself (R131, R146). An enumeration kind names a table
that exists, of the field's width, exhaustive exactly for the exhaustive kind (DEDUCED, log entry 7). -/
def kindWf (c : Config) (width : BitVec 6) : FieldKind → Bool
  | .bool => decide (width.toNat = 1)
  | .uint => true
  | .enumExhaustive t =>
    match enumTable? c t with
    | none => false
    | some d => decide (width.toNat = d.width) && d.exhaustive
  | .enumPartial t =>
    match enumTable? c t with
    | none => false
    | some d => decide (width.toNat = d.width) && !d.exhaustive
  | .scaled _ => decide (width.toNat = 10)
  | .splitHigh lw hw => splitKindWf lw hw && decide (width.toNat = hw.toNat)
  | .splitLow lw hw => splitKindWf lw hw && decide (width.toNat = lw.toNat)

/-- The policies a kind can have (R150): canon needs an enumeration table and value a scaled magnitude (DEDUCED, log
entry 7). -/
def policyWf (kind : FieldKind) : Policy → Bool
  | .raw => true
  | .canon => (kindTable kind).isSome
  | .value => match kind with
    | .scaled _ => true
    | .bool => false
    | .uint => false
    | .enumExhaustive _ => false
    | .enumPartial _ => false
    | .splitHigh _ _ => false
    | .splitLow _ _ => false
  | .ignore => true

/-- The laws of a field descriptor (R71, R131, R150). -/
def fieldWf (c : Config) (F : FieldDesc) : Bool :=
  decide (1 ≤ F.width.toNat) && decide (F.lsb.toNat + F.width.toNat ≤ 32) && kindWf c F.width F.kind &&
    policyWf F.kind F.policy

/-- The law of a hook: a parity bit is outside its own cover (R152). -/
def hookWf : Hook → Bool
  | .invert _ => true
  | .parity pos cover _ => !cover.getLsbD pos.toNat

/-- Every two fields of a list satisfy a test. -/
def pairwiseAll (test : FieldDesc → FieldDesc → Bool) : List FieldDesc → Bool
  | [] => true
  | F :: Fs => Fs.all (test F) && pairwiseAll test Fs

/-- Two fields are disjoint bit ranges (R71, R152). -/
def fieldsDisjoint (F G : FieldDesc) : Bool :=
  decide (F.lsb.toNat + F.width.toNat ≤ G.lsb.toNat) || decide (G.lsb.toNat + G.width.toNat ≤ F.lsb.toNat)

/-- Two fields have different names (R152). -/
def namesDiffer (F G : FieldDesc) : Bool := decide (F.name ≠ G.name)

/-- The laws of a register descriptor (R152): well-formed fields, pairwise disjoint and with different names, and
well-formed hooks. DESIGN CHOICE (log entry 18): no law pairs the two parts of a split field. R71 and R146 put them in two
different registers, R131 and R152 list no such law, and a catalogue in which the other part is absent or stands in the
same register is accepted. -/
def regWf (c : Config) (d : RegDesc) : Bool :=
  d.fields.all (fieldWf c) && pairwiseAll fieldsDisjoint d.fields && pairwiseAll namesDiffer d.fields &&
    d.hooks.all hookWf

/-- `REG_TEMPLATE[r]` (R9, R28). -/
def regTemplate? (c : Config) (r : Byte) : Option RegDesc := c.regTemplate.lookup r

/-- The register has a descriptor, and its length class is not L32: it is outside what the field codec describes (R152, C4
of 90_conflicts.md), and the codec on it is refused (U19 of 93_implementation_defined.md; log entry 11). -/
def outsideCodec (c : Config) (r : Byte) : Bool :=
  match regTemplate? c r with
  | none => false
  | some d => decide (d.len ≠ .l32)

/-! ### The whole configuration -/

/-- A table maps each id to one descriptor. -/
def idsOnce (ids : List Byte) : Bool := decide ids.Nodup

/-- What must hold of a configuration before the first operation (R217): the operation bits differ, the length codes
differ (R7, D3, D4), and both tables are well-formed (R131, R138, R152). -/
def configWf (c : Config) : Bool :=
  decide (c.opBitRead ≠ c.opBitWrite) &&
    decide (c.lenCode16 ≠ c.lenCode32 ∧ c.lenCode16 ≠ c.lenCode64 ∧ c.lenCode32 ≠ c.lenCode64) &&
    idsOnce (c.enumTable.map Prod.fst) && c.enumTable.all (fun p => enumWf p.2) &&
    idsOnce (c.regTemplate.map Prod.fst) && c.regTemplate.all (fun p => regWf c p.2)

end Sys2Proof.Machine
end

