-- ==== Sys2Proof/Machine/Ops.lean ====
section
/-! DEFINITION. The named operations over the state, answering and raising among them, and the functions of the checksum
engine, the header codec and the frames (R43 of 20_memory.md, R64 and R68 of 30_encoding.md, R90 and R91 of
40_crc.md, R110 and R111 of 41_header.md). -/

namespace Sys2Proof.Machine

/-- What a step or an operation of the block ends in. -/
abbrev Result := Host.Outcome State Fault Refusal

/-! ### The state -/

/-- `crc <- v` (R11). -/
def State.setCrc (s : State) (v : Byte) : State := { s with crc := v }

/-- The operation ends OK with its results (R190). -/
def State.answer (s : State) (r : Results) : State := { s with response := some (.ok r) }

/-- `raise` (R11, R190): the operation ends with a non-OK status, `crc` is as it was, and there is no result. This is
all the block has of taking an exception: no program counter, mode or vector is touched (R190), and there is no
return from one, since the block is ready for the next operation at once (R199). -/
def State.raise (s : State) (e : Raise) : State := { s with response := some (.raised e) }

/-- What the host still presents. -/
def State.setInputs (s : State) (ins : List HostInput) : State := { s with inputs := ins }

/-- The reset event (R216): `crc` becomes CRC_INIT, 0x00, and the outputs become unspecified. -/
def State.resetEvent (s : State) : State := { s with crc := 0x00#8, response := none }

/-- The end of an operation that may find an illegal operand: its results, or the status IllegalOperand (R194). -/
def reply (s : State) (x : Except BadOperand Results) : Result :=
  match x with
  | .ok r => .next (s.answer r)
  | .error o => .next (s.raise (.illegalOperand o))

/-! ### The checksum engine -/

/-- CRC_INIT (R6): the "zero initial state". -/
def crcInitial : Byte := 0x00#8

/-- One turn of the loop of `crc_step` (R90). -/
def crcShift (poly c : Byte) : Byte := if c.msb then (c <<< 1) ^^^ poly else c <<< 1

/-- `n` turns of the loop of `crc_step` (R90). -/
def crcShifts (poly : Byte) : Nat → Byte → Byte
  | 0, c => c
  | n + 1, c => crcShifts poly n (crcShift poly c)

/-- `crc_step(c, b)` (R90): the remainder after one byte, most significant bit first (R44). -/
def crcStep (poly c b : Byte) : Byte := crcShifts poly 8 (c ^^^ b)

/-- The remainder after a byte sequence, from a given start (R97). -/
def crcFrom (poly : Byte) : Byte → List Byte → Byte
  | c, [] => c
  | c, b :: bs => crcFrom poly (crcStep poly c b) bs

/-- `crc_raw(bs)` (R91). -/
def crcRaw (poly : Byte) (bs : List Byte) : Byte := crcFrom poly crcInitial bs

/-- `checksum(bs) = crc_raw(bs) XOR CRC_XOROUT` (R91). -/
def checksum (c : Config) (bs : List Byte) : Byte := crcRaw c.crcPoly bs ^^^ c.crcXorOut

/-- The checksum byte the engine presents: `crc XOR CRC_XOROUT` (R94). The register is not changed by it (R20). -/
def State.sum (s : State) : Byte := s.crc ^^^ s.cfg.crcXorOut

/-! ### Length classes and the header -/

/-- LEN_CODE of a length class (R7, R62). -/
def lenCode (c : Config) : LengthClass → BitVec 2
  | .l16 => c.lenCode16
  | .l32 => c.lenCode32
  | .l64 => c.lenCode64

/-- The length class of a length code, none for the unassigned code (R62, R76; log entry 9). -/
def lenClass? (c : Config) (code : BitVec 2) : Option LengthClass :=
  if code = c.lenCode16 then some .l16
  else if code = c.lenCode32 then some .l32
  else if code = c.lenCode64 then some .l64
  else none

/-- `nbytes` (R64). -/
def nbytes : LengthClass → Nat
  | .l16 => 2
  | .l32 => 4
  | .l64 => 8

/-- Byte 0 of a header (R110). -/
def hdrByte0 (h : CommandHeader) : Byte :=
  (h.op.setWidth 8 <<< 7) ||| (h.crcEn.setWidth 8 <<< 6) ||| (h.len.setWidth 8 <<< 4) ||| h.sectionId.setWidth 8

/-- Byte 1 of a header (R110). -/
def hdrByte1 (h : CommandHeader) : Byte :=
  (h.pageId.setWidth 8 <<< 4) ||| (h.addr.extractLsb' 8 4).setWidth 8

/-- Byte 2 of a header (R110). -/
def hdrByte2 (h : CommandHeader) : Byte := h.addr.extractLsb' 0 8

/-- `hdr_unpack(h0, h1, h2)` (R111). -/
def hdrUnpack (h0 h1 h2 : Byte) : CommandHeader where
  op        := h0.extractLsb' 7 1
  crcEn     := h0.extractLsb' 6 1
  len       := h0.extractLsb' 4 2
  sectionId := h0.extractLsb' 0 4
  pageId    := h1.extractLsb' 4 4
  addr      := h1.extractLsb' 0 4 ++ h2

/-! ### Bytes of a frame -/

/-- `le_bytes(v, n)` (R43): the `n` low bytes of `v`, least significant first. -/
def leBytes (v : BitVec 64) : Nat → List Byte
  | 0 => []
  | n + 1 => v.extractLsb' 0 8 :: leBytes (v >>> 8) n

/-- `le_value(bs)` (R43). -/
def leValue : List Byte → Nat
  | [] => 0
  | b :: bs => b.toNat + 256 * leValue bs

/-- `addr_byte(rw)` (R68): the device address above the direction bit. -/
def addrByte (c : Config) (rw : BitVec 1) : Byte := (c.devAddr.setWidth 8 <<< 1) ||| rw.setWidth 8

end Sys2Proof.Machine
end

