-- ==== Sys2Proof/Machine/Operands.lean ====
section
/-! DEFINITION. Operand tests and operand forms of the field codec: the tests a rule makes before it gives a result (R75 of
30_encoding.md, R194 of 60_exceptions.md), slices of a 32-bit value (R132, R133, R135), the scaled-magnitude format
(R70 of 30_encoding.md) and the hooks over a register value (R158, R159). -/

namespace Sys2Proof.Machine

/-! ### Tests -/

/-- `width = 0 or lsb + width > 32` (R132, R133): the position is illegal. -/
def badPosition (lsb : BitVec 5) (width : BitVec 6) : Bool :=
  decide (width.toNat = 0) || decide (32 < lsb.toNat + width.toNat)

/-- `x >= 2 ^ w`: the value does not fit (R133, R147, R148, R151). -/
def tooWide (w : Nat) (x : Reg32) : Bool := decide (2 ^ w ≤ x.toNat)

/-- `lw = 0 or hw = 0 or lw + hw > 32` (R147, R148): the widths are illegal. -/
def badSplit (lw hw : BitVec 5) : Bool :=
  decide (lw.toNat = 0) || decide (hw.toNat = 0) || decide (32 < lw.toNat + hw.toNat)

/-- The operands of SCL.ENC are no decoded value (R144): Auto with a number, or the number of the all-zero pattern. -/
def badScaled (auto : Bool) (mantissa : Byte) (exponent : BitVec 2) : Bool :=
  if auto then decide (mantissa ≠ 0#8) || decide (exponent ≠ 0#2)
  else decide (mantissa = 0#8) && decide (exponent = 0#2)

/-- `ENUM_TABLE[t]`, with the test of its absence (R138). -/
def findEnum (c : Config) (t : Byte) : Except BadOperand EnumDesc :=
  match enumTable? c t with
  | some d => .ok d
  | none => .error (.table t)

/-- `ENUM_TABLE[t]` and the test `code >= 2 ^ width` (R139 to R141). -/
def findEnumCode (c : Config) (t code : Byte) : Except BadOperand EnumDesc :=
  match enumTable? c t with
  | none => .error (.table t)
  | some d => if enumFits d code then .ok d else .error (.code code)

/-! ### Slices -/

/-- `2 ^ width - 1` in 32 bits. -/
def lowMask (width : Nat) : Reg32 := BitVec.ofNat 32 (2 ^ width - 1)

/-- `v[lsb+width-1 : lsb]`, zero-extended to 32 bits (R132). -/
def sliceGet (lsb width : Nat) (v : Reg32) : Reg32 := (v >>> lsb) &&& lowMask width

/-- `(v AND NOT m) OR (f << lsb)` with `m = (2 ^ width - 1) << lsb` (R133). -/
def sliceSet (lsb width : Nat) (v f : Reg32) : Reg32 := (v &&& ~~~(lowMask width <<< lsb)) ||| (f <<< lsb)

/-- `v[pos]` (R134). -/
def bitAt (pos : Nat) (v : Reg32) : BitVec 1 := v.extractLsb' pos 1

/-- `(v AND NOT (1 << pos)) OR (b << pos)` (R135, R159). -/
def bitPut (pos : Nat) (v : Reg32) (b : BitVec 1) : Reg32 := (v &&& ~~~(1#32 <<< pos)) ||| (b.setWidth 32 <<< pos)

/-! ### Split fields -/

/-- `(high << lw) OR low` (R147). -/
def splitCombine (lw : Nat) (high low : Reg32) : Reg32 := (high <<< lw) ||| low

/-- `logical >> lw` (R148). -/
def splitHighPart (lw : Nat) (logical : Reg32) : Reg32 := logical >>> lw

/-- `logical AND (2 ^ lw - 1)` (R148). -/
def splitLowPart (lw : Nat) (logical : Reg32) : Reg32 := logical &&& lowMask lw

/-! ### Scaled magnitudes -/

/-- The mantissa of a 10-bit field (R70, R143): bits 7..0 with the exponent in the high bits, bits 9..2 otherwise
(DEDUCED for the second, log entry 10). -/
def scaledMantissa (c : Config) (f : BitVec 10) : Byte :=
  if c.sclExpHigh then f.extractLsb' 0 8 else f.extractLsb' 2 8

/-- The exponent of a 10-bit field (R70, R143): bits 9..8 with the exponent in the high bits, bits 1..0 otherwise
(DEDUCED for the second, log entry 10). -/
def scaledExponent (c : Config) (f : BitVec 10) : BitVec 2 :=
  if c.sclExpHigh then f.extractLsb' 8 2 else f.extractLsb' 0 2

/-- The 10-bit field of an exponent and a mantissa (R144). -/
def scaledPattern (c : Config) (mantissa : Byte) (exponent : BitVec 2) : BitVec 10 :=
  if c.sclExpHigh then (exponent.setWidth 10 <<< 8) ||| mantissa.setWidth 10
  else (mantissa.setWidth 10 <<< 2) ||| exponent.setWidth 10

/-! ### Hooks -/

/-- The exclusive-or of the `n` low bits of a value (R159). -/
def parityBits (x : Reg32) : Nat → Bool
  | 0 => false
  | n + 1 => xor (x.getLsbD n) (parityBits x n)

/-- The value after POST.INV (R158). -/
def invertBits (mask v : Reg32) : Reg32 := v ^^^ mask

/-- The value after POST.PAR, for a parity bit outside its cover (R159). -/
def writeParity (pos : Nat) (cover : Reg32) (odd : Bool) (v : Reg32) : Reg32 :=
  bitPut pos v (BitVec.ofBool (xor (parityBits (v &&& cover) 32) odd))

/-- The post-encode hooks over a value, in order, each Parity hook outside its own cover (R153). -/
def applyHooks : List Hook → Reg32 → Reg32
  | [], v => v
  | .invert mask :: hs, v => applyHooks hs (invertBits mask v)
  | .parity pos cover odd :: hs, v => applyHooks hs (writeParity pos.toNat cover odd v)

/-- The pre-decode hooks over a value: every Invert hook is applied, a Parity hook does nothing (R154, R156). -/
def undoHooks : List Hook → Reg32 → Reg32
  | [], v => v
  | .invert mask :: hs, v => undoHooks hs (invertBits mask v)
  | .parity _ _ _ :: hs, v => undoHooks hs v

end Sys2Proof.Machine
end

