-- ==== Sys2Proof/Machine/Flags.lean ====
section
/-! DEFINITION. The Boolean results of the block. It has no flags register and latches nothing (R25 of 10_state.md): `ok`,
`len_ok`, `known`, `auto` and `equal` are outputs of one operation. -/

namespace Sys2Proof.Machine

/-- `ok` of CRC.CHECK (R95): the received byte is the checksum byte. -/
def checksumOk (s : State) (rx : Byte) : Bool := decide (s.sum = rx)

/-- `len_ok` of HDR.DEC (R116): the length code names a length class. -/
def lenOk (c : Config) (code : BitVec 2) : Bool := (lenClass? c code).isSome

/-- `auto` of SCL.DEC (R143): the all-zero pattern. -/
def scaledAuto (f : BitVec 10) : Bool := decide (f = 0#10)

/-- The comparison of two numbers of EQ.FLD under the policy value, cross-multiplied (R151). -/
def scaledCross (c : Config) (a b : BitVec 10) : Bool :=
  decide ((scaledMantissa c a).toNat * 10 ^ (scaledExponent c b).toNat
    = (scaledMantissa c b).toNat * 10 ^ (scaledExponent c a).toNat)

/-- Equality of two 10-bit patterns under the policy value (R151): Auto equals only Auto. -/
def scaledEqual (c : Config) (a b : BitVec 10) : Bool :=
  if a = 0#10 ∨ b = 0#10 then decide (a = b) else scaledCross c a b

/-- `equal` of EQ.FLD (R151), or the illegal operand it finds. -/
def fieldEqual (c : Config) (policy : Policy) (t : Byte) (a b : Reg32) : Except BadOperand Bool :=
  match policy with
  | .raw => .ok (decide (a = b))
  | .canon =>
    match enumTable? c t with
    | none => .error (.table t)
    | some d =>
      if tooWide d.width a || tooWide d.width b then .error (.patterns a b)
      else .ok (decide (enumClass d (a.setWidth 8) = enumClass d (b.setWidth 8)))
  | .value =>
    if tooWide 10 a || tooWide 10 b then .error (.patterns a b)
    else .ok (scaledEqual c (a.setWidth 10) (b.setWidth 10))
  | .ignore => .ok true

/-- The table operand EQ.REG gives EQ.FLD for a field: that of an enumeration kind. EQ.FLD reads it under the policy
canon alone, which only an enumeration kind may have (R151, `policyWf`). -/
def fieldTable (F : FieldDesc) : Byte := (kindTable F.kind).getD 0#8

/-- The loop of EQ.REG over the fields (R156): equal when every field is equal under its policy. -/
def fieldsEqual (c : Config) (a b : Reg32) : List FieldDesc → Except BadOperand Bool
  | [] => .ok true
  | F :: Fs =>
    match fieldEqual c F.policy (fieldTable F) (sliceGet F.lsb.toNat F.width.toNat a)
        (sliceGet F.lsb.toNat F.width.toNat b) with
    | .error o => .error o
    | .ok e =>
      match fieldsEqual c a b Fs with
      | .error o => .error o
      | .ok es => .ok (e && es)

/-- `equal` of EQ.REG (R156), or the illegal operand it finds. -/
def registerEqual (c : Config) (r : Byte) (a b : Reg32) : Except BadOperand Bool :=
  match regTemplate? c r with
  | none => .error (.register r)
  | some d => fieldsEqual c (undoHooks d.hooks a) (undoHooks d.hooks b) d.fields

end Sys2Proof.Machine
end

