-- ==== Sys2Proof/Machine/Crc.lean ====
section
/-! DEFINITION. The checksum engine (40_crc.md): CRC.INIT, CRC.FEED, CRC.READ, CRC.CHECK. All four always end OK (R191), and
only the first two write `crc` (R20). -/

namespace Sys2Proof.Machine

/-- CRC.INIT (R92). -/
def execCrcInit (s : State) : Result := .next ((s.setCrc crcInitial).answer .empty)

/-- CRC.FEED b (R93). -/
def execCrcFeed (b : Byte) (s : State) : Result := .next ((s.setCrc (crcStep s.cfg.crcPoly s.crc b)).answer .empty)

/-- CRC.READ (R94). -/
def execCrcRead (s : State) : Result := .next (s.answer (.sum s.sum))

/-- CRC.CHECK rx (R95). -/
def execCrcCheck (rx : Byte) (s : State) : Result := .next (s.answer (.check (checksumOk s rx)))

end Sys2Proof.Machine
end

