-- ==== Sys2Proof/Machine/Enumeration.lean ====
section
/-! DEFINITION. Enumerations (42_field_codec.md section 3): ENUM.DEC, ENUM.ENC, ENUM.CANON, ENUM.REP. -/

namespace Sys2Proof.Machine

/-- ENUM.DEC t, code (R139): the code is known or reserved, never an error. -/
def enumDecode (c : Config) (t code : Byte) : Except BadOperand Results :=
  match findEnumCode c t code with
  | .error o => .error o
  | .ok d => .ok (.decoded (enumValid d code) code)

/-- ENUM.ENC t, known, code (R140). -/
def enumEncode (c : Config) (t : Byte) (known : Bool) (code : Byte) : Except BadOperand Results :=
  match findEnumCode c t code with
  | .error o => .error o
  | .ok d => if known = enumValid d code then .ok (.code code) else .error (.known known)

/-- ENUM.CANON t, code (R141). -/
def enumCanonical (c : Config) (t code : Byte) : Except BadOperand Results :=
  match findEnumCode c t code with
  | .error o => .error o
  | .ok d => .ok (.cls (enumClass d code))

/-- ENUM.REP t, class (R162). -/
def enumRepresentative (c : Config) (t cls : Byte) : Except BadOperand Results :=
  match findEnum c t with
  | .error o => .error o
  | .ok d => if cls ∈ enumClasses d then .ok (.code (enumRep d cls)) else .error (.cls cls)

/-- ENUM.DEC (R139). -/
def execEnumDec (t code : Byte) (s : State) : Result := reply s (enumDecode s.cfg t code)

/-- ENUM.ENC (R140). -/
def execEnumEnc (t : Byte) (known : Bool) (code : Byte) (s : State) : Result := reply s (enumEncode s.cfg t known code)

/-- ENUM.CANON (R141). -/
def execEnumCanon (t code : Byte) (s : State) : Result := reply s (enumCanonical s.cfg t code)

/-- ENUM.REP (R162). -/
def execEnumRep (t cls : Byte) (s : State) : Result := reply s (enumRepresentative s.cfg t cls)

end Sys2Proof.Machine
end

