-- ==== Sys2Proof/Machine/Equality.lean ====
section
/-! DEFINITION. Equality by meaning (42_field_codec.md sections 6 and 7): EQ.FLD, EQ.REG. -/

namespace Sys2Proof.Machine

/-- EQ.FLD policy, t, a, b (R151). -/
def execEqFld (policy : Policy) (t : Byte) (a b : Reg32) (s : State) : Result :=
  reply s ((fieldEqual s.cfg policy t a b).map .equal)

/-- EQ.REG r, a, b (R156), refused on a register whose length class is not L32 (R152, U19; log entry 11). -/
def execEqReg (r : Byte) (a b : Reg32) (s : State) : Result :=
  if outsideCodec s.cfg r then .refused .notThirtyTwoBit
  else reply s ((registerEqual s.cfg r a b).map .equal)

end Sys2Proof.Machine
end

