-- ==== Sys2Proof/Machine/Field.lean ====
section
/-! DEFINITION. Bit slicing (42_field_codec.md section 2): FLD.GET, FLD.SET, BIT.GET, BIT.SET. -/

namespace Sys2Proof.Machine

/-- FLD.GET lsb, width, v (R132). -/
def execFldGet (lsb : BitVec 5) (width : BitVec 6) (v : Reg32) (s : State) : Result :=
  reply s (if badPosition lsb width then .error (.position lsb width)
    else .ok (.field (sliceGet lsb.toNat width.toNat v)))

/-- FLD.SET lsb, width, v, f (R133). -/
def execFldSet (lsb : BitVec 5) (width : BitVec 6) (v f : Reg32) (s : State) : Result :=
  reply s (if badPosition lsb width then .error (.position lsb width)
    else if tooWide width.toNat f then .error (.fieldValue f)
    else .ok (.value (sliceSet lsb.toNat width.toNat v f)))

/-- BIT.GET pos, v (R134). -/
def execBitGet (pos : BitVec 5) (v : Reg32) (s : State) : Result := .next (s.answer (.bit (bitAt pos.toNat v)))

/-- BIT.SET pos, v, b (R135). -/
def execBitSet (pos : BitVec 5) (v : Reg32) (b : BitVec 1) (s : State) : Result :=
  .next (s.answer (.value (bitPut pos.toNat v b)))

end Sys2Proof.Machine
end

