-- ==== Sys2Proof/Machine/Header.lean ====
section
/-! DEFINITION. The command-header codec (41_header.md): HDR.ENC, HDR.ENCX, HDR.DEC. -/

namespace Sys2Proof.Machine

/-- The encoder of a whole header, with the test of its length code (R112, R113). -/
def encodeHeader (c : Config) (h : CommandHeader) : Except BadOperand Results :=
  match lenClass? c h.len with
  | none => .error (.len h.len)
  | some _ => .ok (.header (hdrByte0 h) (hdrByte1 h) (hdrByte2 h))

/-- HDR.ENC op, crc_en, len, addr (R112): section and page ids are those of the configuration. -/
def execHdrEnc (op crcEn : BitVec 1) (len : BitVec 2) (addr : BitVec 12) (s : State) : Result :=
  reply s (encodeHeader s.cfg
    { op := op, crcEn := crcEn, len := len, sectionId := s.cfg.sectionId, pageId := s.cfg.pageId, addr := addr })

/-- HDR.ENCX op, crc_en, len, section, page, addr (R113). -/
def execHdrEncx (op crcEn : BitVec 1) (len : BitVec 2) (sectionId pageId : BitVec 4) (addr : BitVec 12) (s : State) :
    Result :=
  reply s (encodeHeader s.cfg
    { op := op, crcEn := crcEn, len := len, sectionId := sectionId, pageId := pageId, addr := addr })

/-- HDR.DEC h0, h1, h2 (R116): always OK, the unassigned length code is reported by `len_ok`. -/
def execHdrDec (h0 h1 h2 : Byte) (s : State) : Result :=
  .next (s.answer (.fields (hdrUnpack h0 h1 h2) (lenOk s.cfg (hdrUnpack h0 h1 h2).len)))

end Sys2Proof.Machine
end

