-- ==== Sys2Proof/Machine/Post.lean ====
section
/-! DEFINITION. The post-encode hooks (42_field_codec.md section 8): POST.INV, POST.PAR. -/

namespace Sys2Proof.Machine

/-- POST.INV mask, v (R158). -/
def execPostInv (mask v : Reg32) (s : State) : Result := .next (s.answer (.value (invertBits mask v)))

/-- POST.PAR pos, cover, odd, v (R159). -/
def execPostPar (pos : BitVec 5) (cover : Reg32) (odd : Bool) (v : Reg32) (s : State) : Result :=
  reply s (if cover.getLsbD pos.toNat then .error (.parity pos cover)
    else .ok (.value (writeParity pos.toNat cover odd v)))

end Sys2Proof.Machine
end

