-- ==== Sys2Proof/Machine/Scaled.lean ====
section
/-! DEFINITION. Scaled magnitudes (42_field_codec.md section 4): SCL.DEC, SCL.ENC, and the number a pattern stands for. -/

namespace Sys2Proof.Machine

/-- `value(m, e, s) = m / 10 ^ (e + s)` (R142), an exact rational the block never computes (R13): it gives the meaning of
a result. -/
def scaledValue (mantissa : Byte) (exponent : BitVec 2) (shift : Nat) : ℚ :=
  (mantissa.toNat : ℚ) / 10 ^ (exponent.toNat + shift)

/-- SCL.DEC f (R143): all 1024 patterns decode. -/
def execSclDec (f : BitVec 10) (s : State) : Result :=
  .next (s.answer (.scaled (scaledAuto f) (scaledMantissa s.cfg f) (scaledExponent s.cfg f)))

/-- SCL.ENC auto, mantissa, exponent (R144). -/
def execSclEnc (auto : Bool) (mantissa : Byte) (exponent : BitVec 2) (s : State) : Result :=
  reply s (if badScaled auto mantissa exponent then .error (.scaled mantissa exponent)
    else if auto then .ok (.pattern 0#10)
    else .ok (.pattern (scaledPattern s.cfg mantissa exponent)))

end Sys2Proof.Machine
end

