-- ==== Sys2Proof/Machine/Split.lean ====
section
/-! DEFINITION. Split fields (42_field_codec.md section 5): SPL.COMB, SPL.SPLIT. -/

namespace Sys2Proof.Machine

/-- SPL.COMB lw, hw, high, low (R147). -/
def execSplComb (lw hw : BitVec 5) (high low : Reg32) (s : State) : Result :=
  reply s (if badSplit lw hw then .error (.splitWidths lw hw)
    else if tooWide hw.toNat high || tooWide lw.toNat low then .error (.splitParts high low)
    else .ok (.logical (splitCombine lw.toNat high low)))

/-- SPL.SPLIT lw, hw, logical (R148). -/
def execSplSplit (lw hw : BitVec 5) (logical : Reg32) (s : State) : Result :=
  reply s (if badSplit lw hw then .error (.splitWidths lw hw)
    else if tooWide (lw.toNat + hw.toNat) logical then .error (.logical logical)
    else .ok (.parts (splitHighPart lw.toNat logical) (splitLowPart lw.toNat logical)))

end Sys2Proof.Machine
end

