-- ==== Sys2Proof/Machine/Dispatch.lean ====
section
/-! DEFINITION. The meaning of each operation of R74 (30_encoding.md): one arm per constructor of Instr. -/

namespace Sys2Proof.Machine

def exec (i : Instr) (s : State) : Host.Outcome State Fault Refusal :=
  match i with
  | .crcInit => Sys2Proof.Machine.execCrcInit s
  | .crcFeed b => Sys2Proof.Machine.execCrcFeed b s
  | .crcRead => Sys2Proof.Machine.execCrcRead s
  | .crcCheck rx => Sys2Proof.Machine.execCrcCheck rx s
  | .hdrEnc op crcEn len addr => Sys2Proof.Machine.execHdrEnc op crcEn len addr s
  | .hdrEncx op crcEn len sect page addr => Sys2Proof.Machine.execHdrEncx op crcEn len sect page addr s
  | .hdrDec h0 h1 h2 => Sys2Proof.Machine.execHdrDec h0 h1 h2 s
  | .fldGet lsb width v => Sys2Proof.Machine.execFldGet lsb width v s
  | .fldSet lsb width v f => Sys2Proof.Machine.execFldSet lsb width v f s
  | .bitGet pos v => Sys2Proof.Machine.execBitGet pos v s
  | .bitSet pos v b => Sys2Proof.Machine.execBitSet pos v b s
  | .enumDec t code => Sys2Proof.Machine.execEnumDec t code s
  | .enumEnc t known code => Sys2Proof.Machine.execEnumEnc t known code s
  | .enumCanon t code => Sys2Proof.Machine.execEnumCanon t code s
  | .enumRep t cls => Sys2Proof.Machine.execEnumRep t cls s
  | .sclDec f => Sys2Proof.Machine.execSclDec f s
  | .sclEnc auto mantissa exponent => Sys2Proof.Machine.execSclEnc auto mantissa exponent s
  | .splComb lw hw high low => Sys2Proof.Machine.execSplComb lw hw high low s
  | .splSplit lw hw logical => Sys2Proof.Machine.execSplSplit lw hw logical s
  | .eqFld policy t a b => Sys2Proof.Machine.execEqFld policy t a b s
  | .eqReg r a b => Sys2Proof.Machine.execEqReg r a b s
  | .postInv mask v => Sys2Proof.Machine.execPostInv mask v s
  | .postPar pos cover odd v => Sys2Proof.Machine.execPostPar pos cover odd v s

end Sys2Proof.Machine
end

