-- ==== Sys2Proof/Machine/Request.lean ====
section
/-! DEFINITION. What the block does with one thing the host presents: a command is decoded and performed, an unassigned code ends
with IllegalOp before any operand is looked at (R77, R195, R198), and the reset event resets the block (R215, R216). -/

namespace Sys2Proof.Machine

/-- The block performs one command (R12, R73). -/
def perform (w : CmdWord) (s : State) : Result :=
  match decode w with
  | .ok i => exec i s
  | .error (.unassigned opc) => .next (s.raise (.illegalOp opc))

/-- The block takes the oldest of what the host presents. With nothing presented nothing happens: between operations the
block does nothing (R12, R223, R225; log entry 5). -/
def serve (s : State) : Result :=
  match s.inputs with
  | [] => .next s
  | .reset :: ins => .next (s.setInputs ins).resetEvent
  | .command w :: ins => perform w (s.setInputs ins)

/-- The host presents one more command, before everything it presents later. -/
def State.present (s : State) (w : CmdWord) : State := s.setInputs (.command w :: s.inputs)

end Sys2Proof.Machine
end

