-- ==== Sys2Proof/Machine/Step.lean ====
section
/-! DEFINITION. One step of the machine: the block serves what the host presents next, provided its configuration satisfies the
laws that must hold before the first operation (R217 of 70_reset_and_hazards.md). -/

namespace Sys2Proof.Machine

/-- One step (R12). An ill-formed configuration is refused (R131, R217, U17; log entry 6). -/
def step (s : State) : Host.Outcome State Fault Refusal :=
  if configWf s.cfg then serve s else .refused .illFormedConfiguration

/-- `s` with the command of a table word presented next, so that the very next step performs it. -/
def State.withFetchWord (s : State) (nbits w : Nat) : State := s.present (tableCommand nbits w)

end Sys2Proof.Machine
end

