-- ==== Sys2Proof/Machine/Pseudo.lean ====
section
/-! DEFINITION. The pseudo-operations (R81 of 30_encoding.md, R96 of 40_crc.md, R153 and R154 of 42_field_codec.md, 43_frame_sequences.md):
fixed sequences of operations, expanded by the host or a wrapper outside the block (R23 of 10_state.md). Each is
written here over `exec`, in the order of its expansion. A raise ends it at that operation and the operations before
keep their effects (R190 of 60_exceptions.md): the error travels in `Except`, the state beside it. -/

namespace Sys2Proof.Machine

/-- What the transport reports when a bus call fails: opaque to the block, passed through unchanged (R196; log entry 13). -/
abbrev TransportError := Nat

/-- Why a pseudo-operation has no meaning for a request (log entry 12). Safe. -/
inductive Stop where
  /-- The request has not the operands the pseudo-operation names: a received frame of another length, whole or in two
  phases, a list of field patterns of another length than the register's fields, a typed value of another kind than
  its field. -/
  | malformedRequest
  /-- The field codec on a register whose length class is not L32, by an operation or a pseudo-operation (R152, U19; log
  entry 11). -/
  | notThirtyTwoBit
  /-- The block did not answer as the operation's rule says. No request reaches it. -/
  | noAnswer
deriving DecidableEq, Repr

/-- How a pseudo-operation ends other than with its result. -/
inductive PseudoError where
  | raised (e : Raise)
  | transport (e : TransportError)
  | stopped (why : Stop)
deriving DecidableEq, Repr

/-- A pseudo-operation with a result of type `α`: from the state before it to its result or its error, and the state
after it. -/
abbrev Pseudo (α : Type) := ExceptT PseudoError (StateM State) α

/-- The result or error of a pseudo-operation, and the state after it. -/
def Pseudo.from {α : Type} (p : Pseudo α) (s : State) : Except PseudoError α × State := p.run.run s

/-- The host presents one primitive operation and reads its answer at the same moment (R190). -/
def issue (i : Instr) : Pseudo Results := ExceptT.mk fun s =>
  match exec i s with
  | .next t =>
    match t.response with
    | some (.ok r) => (.ok r, t)
    | some (.raised e) => (.error (.raised e), t)
    | none => (.error (.stopped .noAnswer), t)
  | .fault _ => (.error (.stopped .noAnswer), s)
  | .refused .notThirtyTwoBit => (.error (.stopped .notThirtyTwoBit), s)
  | .refused _ => (.error (.stopped .noAnswer), s)

/-- The answer was not of the kind its operation gives. -/
def noAnswer {α : Type} : Pseudo α := throw (.stopped .noAnswer)

/-- An operation whose results are the three bytes of a header. -/
def issueHeader (i : Instr) : Pseudo (Byte × Byte × Byte) := do
  match ← issue i with
  | .header h0 h1 h2 => pure (h0, h1, h2)
  | _ => noAnswer

/-- An operation whose result is a checksum byte. -/
def issueSum (i : Instr) : Pseudo Byte := do
  match ← issue i with
  | .sum b => pure b
  | _ => noAnswer

/-- An operation whose result is `ok`. -/
def issueCheck (i : Instr) : Pseudo Bool := do
  match ← issue i with
  | .check ok => pure ok
  | _ => noAnswer

/-- An operation whose result is a register value `v'`. -/
def issueValue (i : Instr) : Pseudo Reg32 := do
  match ← issue i with
  | .value v => pure v
  | _ => noAnswer

/-- An operation whose result is a field pattern of FLD.GET. -/
def issueField (i : Instr) : Pseudo Reg32 := do
  match ← issue i with
  | .field f => pure f
  | _ => noAnswer

/-- An operation whose result is `equal`. -/
def issueEqual (i : Instr) : Pseudo Bool := do
  match ← issue i with
  | .equal e => pure e
  | _ => noAnswer

/-- CRC.FEED of each byte of a sequence, in order. -/
def feed : List Byte → Pseudo Unit
  | [] => pure ()
  | b :: bs => do
    let _ ← issue (.crcFeed b)
    feed bs

/-- `CFG.name` (R11). -/
def config : Pseudo Config := do
  let s ← get
  pure s.cfg

/-- CRC.SUM (R96). -/
def crcSum (bs : List Byte) : Pseudo Byte := do
  let _ ← issue .crcInit
  feed bs
  issueSum .crcRead

/-! ### Frames -/

/-- The write context (R171). -/
def writeContext (c : Config) (h0 h1 h2 : Byte) (data : List Byte) : List Byte :=
  [addrByte c 0#1] ++ [h0, h1, h2] ++ data

/-- The read context (R174). -/
def readContext (c : Config) (h0 h1 h2 : Byte) (data : List Byte) : List Byte :=
  [addrByte c 0#1] ++ [h0, h1, h2] ++ [addrByte c 1#1] ++ data

/-- FRM.WR addr, len, data (R172, R65). The data are the `8 * nbytes(len)` low bits of `data` (log entry 12). -/
def frmWr (addr : BitVec 12) (len : BitVec 2) (data : BitVec 64) : Pseudo (List Byte) := do
  let c ← config
  let (h0, h1, h2) ← issueHeader (.hdrEnc c.opBitWrite 1#1 len addr)
  match lenClass? c len with
  | none => noAnswer
  | some k =>
    let bytes := leBytes data (nbytes k)
    let _ ← issue .crcInit
    feed (writeContext c h0 h1 h2 bytes)
    let sum ← issueSum .crcRead
    pure ([h0, h1, h2] ++ bytes ++ [sum])

/-- FRM.RDCMD addr, len (R173, R66). -/
def frmRdcmd (addr : BitVec 12) (len : BitVec 2) : Pseudo (Byte × Byte × Byte) := do
  let c ← config
  issueHeader (.hdrEnc c.opBitRead 1#1 len addr)

/-- The end of FRM.RDCHK (R175): the received checksum byte is checked, and the data are returned, or ChecksumMismatch and
no data (R192, R200). -/
def checkReceived (data : List Byte) (received : Byte) : Pseudo (BitVec 64) := do
  let ok ← issueCheck (.crcCheck received)
  if ok then pure (BitVec.ofNat 64 (leValue data))
  else do
    let s ← get
    throw (.raised (.checksumMismatch s.sum received))

/-- FRM.RDCHK addr, len, rx_0 .. rx_n (R175, R67): the data, or ChecksumMismatch and no data. A received frame of another
length than `nbytes(len) + 1` is no operand of it (log entry 12). -/
def frmRdchk (addr : BitVec 12) (len : BitVec 2) (rx : List Byte) : Pseudo (BitVec 64) := do
  let c ← config
  let (h0, h1, h2) ← issueHeader (.hdrEnc c.opBitRead 1#1 len addr)
  match lenClass? c len with
  | none => noAnswer
  | some k =>
    match rx.drop (nbytes k) with
    | [received] =>
      let data := rx.take (nbytes k)
      let _ ← issue .crcInit
      feed (readContext c h0 h1 h2 data)
      checkReceived data received
    | _ => throw (.stopped .malformedRequest)

/-- The part of FRM.RDCHK that its split-phase variant performs before the bus read (R176): the header and the first five
bytes of the read context. -/
def readOpen (addr : BitVec 12) (len : BitVec 2) : Pseudo Unit := do
  let c ← config
  let (h0, h1, h2) ← issueHeader (.hdrEnc c.opBitRead 1#1 len addr)
  let _ ← issue .crcInit
  feed (readContext c h0 h1 h2 [])

/-- The part of FRM.RDCHK that its split-phase variant performs as the bytes arrive (R176): `data` are the `nbytes(len)` data
bytes of the received frame. DESIGN CHOICE (log entry 12): R176 gives a reception of another number of data bytes
no result, and the request stops as malformed, with none of its bytes fed. -/
def readClose (len : BitVec 2) (data : List Byte) (received : Byte) : Pseudo (BitVec 64) := do
  let c ← config
  if (lenClass? c len).map nbytes = some data.length then do
    feed data
    checkReceived data received
  else throw (.stopped .malformedRequest)

/-! ### Whole registers -/

/-- `REG_TEMPLATE[r]` for the field codec (R152): an id with no descriptor is refused with IllegalOperand, and a descriptor whose
length class is not L32 stops (U19; log entry 11). -/
def findTemplate (r : Byte) : Pseudo RegDesc := do
  let c ← config
  match regTemplate? c r with
  | some d => if d.len = .l32 then pure d else throw (.stopped .notThirtyTwoBit)
  | none => throw (.raised (.illegalOperand (.register r)))

/-- One FLD.SET for each field in order (R153). -/
def setFields : List FieldDesc → List Reg32 → Reg32 → Pseudo Reg32
  | [], _, v => pure v
  | _ :: _, [], v => pure v
  | F :: Fs, f :: fs, v => do
    let v' ← issueValue (.fldSet F.lsb F.width v f)
    setFields Fs fs v'

/-- The post-encode hooks in order (R153). -/
def encodeHooks : List Hook → Reg32 → Pseudo Reg32
  | [], v => pure v
  | .invert mask :: hs, v => do
    let v' ← issueValue (.postInv mask v)
    encodeHooks hs v'
  | .parity pos cover odd :: hs, v => do
    let v' ← issueValue (.postPar pos cover odd v)
    encodeHooks hs v'

/-- The pre-decode hooks of a list, in the order of the list: Invert undoes itself, Parity does nothing (R154). -/
def decodeHooks : List Hook → Reg32 → Pseudo Reg32
  | [], v => pure v
  | .invert mask :: hs, v => do
    let v' ← issueValue (.postInv mask v)
    decodeHooks hs v'
  | .parity _ _ _ :: hs, v => decodeHooks hs v

/-- One FLD.GET for each field in order (R154). -/
def getFields : List FieldDesc → Reg32 → Pseudo (List Reg32)
  | [], _ => pure []
  | F :: Fs, v => do
    let f ← issueField (.fldGet F.lsb F.width v)
    let fs ← getFields Fs v
    pure (f :: fs)

/-- REG.PACK r, base, f_1 .. f_k (R153): one pattern for each field, else the request is malformed (log entry 12). -/
def regPack (r : Byte) (base : Reg32) (fs : List Reg32) : Pseudo Reg32 := do
  let d ← findTemplate r
  if fs.length = d.fields.length then do
    let v ← setFields d.fields fs base
    encodeHooks d.hooks v
  else throw (.stopped .malformedRequest)

/-- REG.UNPACK r, v (R154): the value after the pre-decode hooks, in reverse order, and the field patterns. -/
def regUnpack (r : Byte) (v : Reg32) : Pseudo (Reg32 × List Reg32) := do
  let d ← findTemplate r
  let v0 ← decodeHooks d.hooks.reverse v
  let fs ← getFields d.fields v0
  pure (v0, fs)

/-- REG.VERIFY r, written, readback (R177). -/
def regVerify (r : Byte) (written readback : Reg32) : Pseudo Unit := do
  let equal ← issueEqual (.eqReg r written readback)
  if equal then pure () else throw (.raised (.readbackMismatch written readback))

/-! ### The whole write-verify -/

/-- What the transport replies to the three bus calls of a write-verify (R178, R196): an error, or for the last one the
bytes read. -/
structure BusReplies where
  write   : Option TransportError
  command : Option TransportError
  read    : TransportError ⊕ List Byte
deriving DecidableEq, Repr

/-- A bus write between two steps (R178): a failure ends the sequence and is passed through unchanged (R196). -/
def busWrite : Option TransportError → Pseudo Unit
  | none => pure ()
  | some e => throw (.transport e)

/-- The bus read (R178, R196). -/
def busRead : TransportError ⊕ List Byte → Pseudo (List Byte)
  | .inl e => throw (.transport e)
  | .inr rx => pure rx

/-- The write-verify of a 32-bit register as the block sees it (R178): the first error ends it (R198). The value is handed to a
frame, and taken from one, as the 32 low bits of its data. -/
def writeVerify (r : Byte) (v : Reg32) (bus : BusReplies) : Pseudo Unit := do
  let d ← findTemplate r
  let c ← config
  let _ ← frmWr d.address (lenCode c d.len) (v.setWidth 64)
  busWrite bus.write
  let _ ← frmRdcmd d.address (lenCode c d.len)
  busWrite bus.command
  let rx ← busRead bus.read
  let readback ← frmRdchk d.address (lenCode c d.len) rx
  regVerify r v (readback.setWidth 32)

/-! ### Typed values -/

/-- A decoded enumeration value (R13, R139). -/
inductive EnumValue where
  | known (code : Byte)
  | reserved (code : Byte)
deriving DecidableEq, Repr

/-- A decoded scaled magnitude (R13, R142, R143). -/
inductive ScaledNumber where
  | auto
  | num (mantissa : Byte) (exponent : BitVec 2)
deriving DecidableEq, Repr

/-- The typed value of a field, by the kinds of R131: a Boolean, a number, an enumeration value, a scaled magnitude, or
one part of a split field (which the caller joins with the other part by SPL.COMB, R149). -/
inductive TypedValue where
  | bool (b : Bool)
  | uint (v : Reg32)
  | enum (v : EnumValue)
  | scaled (v : ScaledNumber)
  | part (v : Reg32)
deriving DecidableEq, Repr

/-- The tagged value of ENUM.DEC for a field pattern (R139). -/
def decodeEnum (t : Byte) (f : Reg32) : Pseudo TypedValue := do
  match ← issue (.enumDec t (f.setWidth 8)) with
  | .decoded true code => pure (.enum (.known code))
  | .decoded false code => pure (.enum (.reserved code))
  | _ => noAnswer

/-- The tagged value of SCL.DEC for a field pattern (R143). -/
def decodeScaled (f : Reg32) : Pseudo TypedValue := do
  match ← issue (.sclDec (f.setWidth 10)) with
  | .scaled true _ _ => pure (.scaled .auto)
  | .scaled false mantissa exponent => pure (.scaled (.num mantissa exponent))
  | _ => noAnswer

/-- The typed value of a field pattern (R154). -/
def decodeField (kind : FieldKind) (f : Reg32) : Pseudo TypedValue :=
  match kind with
  | .bool => pure (.bool (f.getLsbD 0))
  | .uint => pure (.uint f)
  | .enumExhaustive t => decodeEnum t f
  | .enumPartial t => decodeEnum t f
  | .scaled _ => decodeScaled f
  | .splitHigh _ _ => pure (.part f)
  | .splitLow _ _ => pure (.part f)

/-- The field pattern of ENUM.ENC for a tagged value (R140). -/
def encodeEnum (t : Byte) (v : EnumValue) : Pseudo Reg32 := do
  match ← issue (match v with | .known code => .enumEnc t true code | .reserved code => .enumEnc t false code) with
  | .code code => pure (code.setWidth 32)
  | _ => noAnswer

/-- The field pattern of SCL.ENC for a tagged value (R144). -/
def encodeScaled (v : ScaledNumber) : Pseudo Reg32 := do
  match ← issue (match v with | .auto => .sclEnc true 0#8 0#2 | .num m e => .sclEnc false m e) with
  | .pattern f => pure (f.setWidth 32)
  | _ => noAnswer

/-- The field pattern of a typed value (R153); a value of another kind than the field's is no operand (log entry 12). -/
def encodeField (kind : FieldKind) (v : TypedValue) : Pseudo Reg32 :=
  match kind, v with
  | .bool, .bool b => pure ((BitVec.ofBool b).setWidth 32)
  | .uint, .uint f => pure f
  | .enumExhaustive t, .enum e => encodeEnum t e
  | .enumPartial t, .enum e => encodeEnum t e
  | .scaled _, .scaled x => encodeScaled x
  | .splitHigh _ _, .part f => pure f
  | .splitLow _ _, .part f => pure f
  | _, _ => throw (.stopped .malformedRequest)

/-- The typed values of a list of fields from their patterns (R154). -/
def decodeFields : List FieldDesc → List Reg32 → Pseudo (List TypedValue)
  | F :: Fs, f :: fs => do
    let v ← decodeField F.kind f
    let vs ← decodeFields Fs fs
    pure (v :: vs)
  | _, _ => pure []

/-- The patterns of a list of fields from their typed values (R153). -/
def encodeFields : List FieldDesc → List TypedValue → Pseudo (List Reg32)
  | F :: Fs, v :: vs => do
    let f ← encodeField F.kind v
    let fs ← encodeFields Fs vs
    pure (f :: fs)
  | _, _ => pure []

/-- `fromValue` (R130, R154): a register value to the value after the pre-decode hooks and the typed values. -/
def regDecode (r : Byte) (v : Reg32) : Pseudo (Reg32 × List TypedValue) := do
  let d ← findTemplate r
  let (v0, fs) ← regUnpack r v
  let vs ← decodeFields d.fields fs
  pure (v0, vs)

/-- `toValue` (R130, R153): a base value and the typed values to a register value. -/
def regEncode (r : Byte) (base : Reg32) (vs : List TypedValue) : Pseudo Reg32 := do
  let d ← findTemplate r
  if vs.length = d.fields.length then do
    let fs ← encodeFields d.fields vs
    regPack r base fs
  else throw (.stopped .malformedRequest)

/-! ### Runs of primitive operations -/

/-- A finite list of operations presented one after another (R225): the answers in order, and the last state. -/
def runOps : List Instr → State → Host.Outcome (List (Option Response) × State) Fault Refusal
  | [], s => .next ([], s)
  | i :: is, s =>
    match exec i s with
    | .fault f => .fault f
    | .refused r => .refused r
    | .next t =>
      match runOps is t with
      | .fault f => .fault f
      | .refused r => .refused r
      | .next (rs, u) => .next (t.response :: rs, u)

end Sys2Proof.Machine
end

