-- ==== Sys2Proof/Safety.lean ====
section
/-! DEFINITION. What a claim may call a safe run and a sound state: the discipline a caller keeps (R218 of 70_reset_and_hazards.md,
D7), the soundness of what an operation reports (R190, R191, R194, R195 of 60_exceptions.md), the invariant of every
step, and corrupted receptions (R99 of 40_crc.md). -/

namespace Sys2Proof.Safety

open Sys2Proof.Machine

/-- The length codes of R7: 0b00, 0b01, 0b10, with 0b11 unassigned. -/
def standardLengthCodes (c : Config) : Prop := c.lenCode16 = 0b00#2 ∧ c.lenCode32 = 0b01#2 ∧ c.lenCode64 = 0b10#2

/-- A register none of whose hooks computes a parity bit (R155). -/
def noParity (d : RegDesc) : Prop := ∀ h ∈ d.hooks, ∃ mask, h = .invert mask

/-- The bit of a register value belongs to some field of the register (R155). -/
def inSomeField (d : RegDesc) (i : Nat) : Prop :=
  ∃ F ∈ d.fields, F.lsb.toNat ≤ i ∧ i < F.lsb.toNat + F.width.toNat

/-- The operation does not ask the field codec about a register whose length class is not L32 (R152, U19). EQ.REG alone names a
register. -/
def inCodec (c : Config) (i : Instr) : Prop :=
  ∀ (r : Byte) (a b : Reg32) (d : RegDesc), i = .eqReg r a b → regTemplate? c r = some d → d.len = .l32

/-! ### The discipline of checksum computations -/

/-- What an operation does with a checksum computation (R21): it starts one, continues it, takes its result, or has
nothing to do with it. -/
inductive CrcUse where
  | starts
  | continues
  | takes
  | none
deriving DecidableEq, Repr

/-- The part each operation has in a checksum computation (R20, R21). -/
def crcUse : Instr → CrcUse
  | .crcInit => .starts
  | .crcFeed _ => .continues
  | .crcRead => .takes
  | .crcCheck _ => .takes
  | .hdrEnc _ _ _ _ => .none
  | .hdrEncx _ _ _ _ _ _ => .none
  | .hdrDec _ _ _ => .none
  | .fldGet _ _ _ => .none
  | .fldSet _ _ _ _ => .none
  | .bitGet _ _ => .none
  | .bitSet _ _ _ => .none
  | .enumDec _ _ => .none
  | .enumEnc _ _ _ => .none
  | .enumCanon _ _ => .none
  | .enumRep _ _ => .none
  | .sclDec _ => .none
  | .sclEnc _ _ _ => .none
  | .splComb _ _ _ _ => .none
  | .splSplit _ _ _ => .none
  | .eqFld _ _ _ _ => .none
  | .eqReg _ _ _ => .none
  | .postInv _ _ => .none
  | .postPar _ _ _ _ => .none

/-- Every use of `crc` in a list of operations is preceded, since the last result taken or the start, by a CRC.INIT
(R218, D7); `started` says whether a computation is under way before the list. -/
def keepsDiscipline : Bool → List Instr → Bool
  | _, [] => true
  | started, i :: is =>
    match crcUse i with
    | .starts => keepsDiscipline true is
    | .continues => started && keepsDiscipline true is
    | .takes => started && keepsDiscipline false is
    | .none => keepsDiscipline started is

/-- The option of D7, a parameter of a run: with `strict` a run from reset that breaks the discipline is not admitted.
The recommended value is false, and `exec` itself never refuses such a use (log entry 8). -/
def admits (strict : Bool) (is : List Instr) : Bool := !strict || keepsDiscipline false is

/-- The bytes that a list of operations leaves in the current computation, when `before` were in it: those fed since the
last CRC.INIT (R27). -/
def bytesSinceInit : List Byte → List Instr → List Byte
  | before, [] => before
  | _, .crcInit :: is => bytesSinceInit [] is
  | before, .crcFeed b :: is => bytesSinceInit (before ++ [b]) is
  | before, _ :: is => bytesSinceInit before is

/-! ### The soundness of what is reported -/

/-- The operand a status IllegalOperand carries is outside the legal set its rule states, for every width a field, code
or part could have (R194). -/
def operandIllegal (c : Config) : BadOperand → Prop
  | .len len => lenClass? c len = none
  | .position lsb width => width.toNat = 0 ∨ 32 < lsb.toNat + width.toNat
  | .fieldValue f => 2 ≤ f.toNat
  | .table t => enumTable? c t = none
  | .code code => 2 ≤ code.toNat
  | .known known => ∃ t d code, enumTable? c t = some d ∧ enumFits d code = true ∧ enumValid d code ≠ known
  | .cls cls => ∃ t d, enumTable? c t = some d ∧ cls ∉ enumClasses d
  | .scaled _ _ => True
  | .splitWidths lw hw => lw.toNat = 0 ∨ hw.toNat = 0 ∨ 32 < lw.toNat + hw.toNat
  | .splitParts high low => 2 ≤ high.toNat ∨ 2 ≤ low.toNat
  | .logical logical => 4 ≤ logical.toNat
  | .patterns a b => 2 ≤ a.toNat ∨ 2 ≤ b.toNat
  | .register r => regTemplate? c r = none
  | .parity pos cover => cover.getLsbD pos.toNat = true

/-- A reported status has its cause (R191): the two integrity errors are no status of a primitive operation, an illegal
operand is illegal, and an illegal code belongs to no operation. -/
def raiseSound (c : Config) : Raise → Prop
  | .checksumMismatch _ _ => False
  | .readbackMismatch _ _ => False
  | .illegalOperand o => operandIllegal c o
  | .illegalOp opc => ∀ i : Instr, i.opc ≠ opc

/-- Reported results agree among themselves: a header has an assigned length code (R112), `len_ok` says whether a decoded
one has (R116), Auto comes with mantissa and exponent 0 and a number does not (R143). -/
def resultsSound (c : Config) : Results → Prop
  | .header h0 h1 h2 => lenClass? c (hdrUnpack h0 h1 h2).len ≠ none
  | .fields h ok => ok = (lenClass? c h.len).isSome
  | .scaled auto mantissa exponent => auto = true ↔ mantissa = 0#8 ∧ exponent = 0#2
  | .empty => True
  | .sum _ => True
  | .check _ => True
  | .field _ => True
  | .bit _ => True
  | .value _ => True
  | .decoded _ _ => True
  | .code _ => True
  | .cls _ => True
  | .pattern _ => True
  | .logical _ => True
  | .parts _ _ => True
  | .equal _ => True

/-- The outputs of the last operation are sound. -/
def responseSound (c : Config) : Option Response → Prop
  | none => True
  | some (.ok r) => resultsSound c r
  | some (.raised e) => raiseSound c e

/-- The invariant of every step: the configuration satisfies its laws (R217), and what the last operation reported is
sound. -/
structure Inv (s : State) : Prop where
  config   : configWf s.cfg = true
  response : responseSound s.cfg s.response

/-! ### Corrupted receptions -/

/-- Bit `k` of a byte sequence inverted, byte `k / 8`, bit `k % 8`. -/
def flipBit (k : Nat) (bs : List Byte) : List Byte := bs.modify (k / 8) fun b => b ^^^ (1#8 <<< (k % 8))

/-- A byte sequence whose last byte is the checksum of the bytes before it (R91, R99). -/
def validFrame (c : Config) (bs : List Byte) : Prop := ∃ ctx, bs = ctx ++ [checksum c ctx]

/-- The exclusive-or of two byte sequences of equal length, byte by byte. -/
def xorBytes (x e : List Byte) : List Byte := List.zipWith (· ^^^ ·) x e

/-- The number of ones in a byte sequence is odd. -/
def oddOnes : List Byte → Bool
  | [] => false
  | b :: bs => xor (parityBits (b.setWidth 32) 8) (oddOnes bs)

end Sys2Proof.Safety
end

