-- ==== Sys2Proof/Certificates/Slice0/Obligations.lean ====
section
/-! DEFINITION. The statements about the block, from the numbered rules of spec/. -/

open Sys2Proof Sys2Proof.Machine Sys2Proof.Safety
open scoped Polynomial

/-! ### The checksum engine -/

/-- R92: CRC.INIT writes CRC_INIT, 0x00, to `crc`, always ends OK, and changes nothing else; two in a row are the same
as one, and after reset it leaves `crc` as it is. -/
def Obligations.CrcInitClearsTheRemainder : Prop :=
  Instr.opc .crcInit = 0x10#8 ∧
  (∀ s : State, exec .crcInit s = .next { s with crc := 0x00#8, response := some (.ok .empty) }) ∧
  (∀ s t u : State, exec .crcInit s = .next t → exec .crcInit t = .next u → u = t) ∧
  (∀ (s t : State), exec .crcInit s.resetEvent = .next t → t.crc = s.resetEvent.crc)

/-- R93: CRC.FEED b writes `crc_step(crc, b)` to `crc`, always ends OK, and changes nothing else; a zero byte leaves a
zero remainder zero, and a byte equal to the remainder makes it zero. -/
def Obligations.CrcFeedAdvancesTheRemainder : Prop :=
  (∀ b : Byte, Instr.opc (.crcFeed b) = 0x11#8) ∧
  (∀ (b : Byte) (s : State), exec (.crcFeed b) s =
    .next { s with crc := crcStep s.cfg.crcPoly s.crc b, response := some (.ok .empty) }) ∧
  (∀ (s t : State), s.crc = 0x00#8 → exec (.crcFeed 0x00#8) s = .next t → t.crc = 0x00#8) ∧
  (∀ (s t : State), exec (.crcFeed s.crc) s = .next t → t.crc = 0x00#8)

/-- R90: `crc_step` is the bit-serial division by `x^8 + CRC_POLY`, most significant bit first: the remainder register,
read as a polynomial over the two-element field, becomes the remainder of `(c + b) x^8`; and over a whole sequence
(R91) `crc_raw` is the remainder of the sequence's polynomial times `x^8`. The examples of R90 are those of CRC_POLY =
0x07. -/
def Obligations.CrcIsPolynomialDivision : Prop :=
  let toPoly : Byte → (ZMod 2)[X] := fun c =>
    ∑ k ∈ Finset.range 8, if c.getLsbD k then Polynomial.X ^ k else 0
  let gen : Byte → (ZMod 2)[X] := fun poly => Polynomial.X ^ 8 + toPoly poly
  (∀ poly c b : Byte, toPoly (crcStep poly c b) = ((toPoly c + toPoly b) * Polynomial.X ^ 8) %ₘ gen poly) ∧
  (∀ (poly : Byte) (bs : List Byte), toPoly (crcRaw poly bs) =
    (bs.foldl (fun m b => m * Polynomial.X ^ 8 + toPoly b) 0 * Polynomial.X ^ 8) %ₘ gen poly) ∧
  crcStep 0x07#8 0x00#8 0x01#8 = 0x07#8 ∧ crcStep 0x07#8 0x00#8 0x80#8 = 0x89#8

/-- R91 and R98: `crc_raw` of the empty sequence is 0x00, of a sequence with one more byte it is `crc_step`, and the
checksum is `crc_raw` exclusive-or CRC_XOROUT, so that of the empty sequence it is CRC_XOROUT; `crc_step(c, b)` is the
table entry `T[c XOR b]`, with `T[i] = crc_step(0x00, i)`. R98 is marked by the spec as derived from R90. -/
def Obligations.CrcRawIsTheFoldOfCrcStep : Prop :=
  (∀ poly : Byte, crcRaw poly [] = 0x00#8) ∧
  (∀ (poly : Byte) (bs : List Byte) (b : Byte), crcRaw poly (bs ++ [b]) = crcStep poly (crcRaw poly bs) b) ∧
  (∀ (c : Config) (bs : List Byte), checksum c bs = crcRaw c.crcPoly bs ^^^ c.crcXorOut) ∧
  (∀ c : Config, checksum c [] = c.crcXorOut) ∧
  (∀ poly c b : Byte, crcStep poly c b = crcStep poly 0x00#8 (c ^^^ b))

/-- R97: feeding `p` and then `q` after one CRC.INIT leaves the `crc` of feeding `p ++ q`, and it is `crc_raw(q)`
computed from the start value `crc_raw(p)`. The spec marks R97 as derived from R91 and R93. -/
def Obligations.FeedingIsIncremental : Prop :=
  ∀ (p q : List Byte) (s : State),
    ∃ rs₁ t₁ rs₂ t₂ rs₃ t₃,
      runOps (.crcInit :: p.map .crcFeed) s = .next (rs₁, t₁) ∧
      runOps (q.map .crcFeed) t₁ = .next (rs₂, t₂) ∧
      runOps (.crcInit :: (p ++ q).map .crcFeed) s = .next (rs₃, t₃) ∧
      t₁.crc = crcRaw s.cfg.crcPoly p ∧
      t₂.crc = t₃.crc ∧
      t₃.crc = crcRaw s.cfg.crcPoly (p ++ q) ∧
      t₂.crc = crcFrom s.cfg.crcPoly (crcRaw s.cfg.crcPoly p) q

/-- The linearity of R99, for every generator: the remainder of an exclusive-or is the exclusive-or of the
remainders. -/
def Obligations.CrcIsLinear : Prop :=
  ∀ (poly : Byte) (x e : List Byte), x.length = e.length →
    crcRaw poly (xorBytes x e) = crcRaw poly x ^^^ crcRaw poly e

/-- The detection claim of R99 for CRC_POLY = 0x07: in a sequence of at most 14 bytes that ends with its checksum, no
one and no two flipped bits give another such sequence. -/
def Obligations.OneOrTwoFlippedBitsAreDetected : Prop :=
  ∀ (c : Config) (bs : List Byte), c.crcPoly = 0x07#8 → bs.length ≤ 14 → validFrame c bs →
    (∀ j < 8 * bs.length, ¬ validFrame c (flipBit j bs)) ∧
    (∀ j k, j < k → k < 8 * bs.length → ¬ validFrame c (flipBit j (flipBit k bs)))

/-- The claim of R99 for CRC_POLY = 0x07 about odd errors: two sequences that end with their checksums have the same
parity of ones, so no error of an odd number of bits leads from one to the other. -/
def Obligations.OddErrorsAreDetected : Prop :=
  ∀ (c : Config) (x y : List Byte), c.crcPoly = 0x07#8 → validFrame c x → validFrame c y → oddOnes x = oddOnes y

/-- R94: CRC.READ gives `crc XOR CRC_XOROUT`, always ends OK, and changes nothing else. After CRC.INIT and feeding it
gives the checksum of the bytes fed, straight after reset (as after CRC.INIT and no byte) CRC_XOROUT; two in a row give
the same byte; and feeding may continue after one, a later one then covers all bytes since the CRC.INIT. -/
def Obligations.CrcReadGivesTheChecksum : Prop :=
  Instr.opc .crcRead = 0x12#8 ∧
  (∀ s : State, exec .crcRead s = .next { s with response := some (.ok (.sum (s.crc ^^^ s.cfg.crcXorOut))) }) ∧
  (∀ (bs : List Byte) (s : State), ∃ rs t, runOps (.crcInit :: bs.map .crcFeed) s = .next (rs, t) ∧
    exec .crcRead t = .next (t.answer (.sum (checksum s.cfg bs)))) ∧
  (∀ (p q : List Byte) (s : State), ∃ rs t,
    runOps (.crcInit :: (p.map .crcFeed ++ .crcRead :: q.map .crcFeed)) s = .next (rs, t) ∧
    exec .crcRead t = .next (t.answer (.sum (checksum s.cfg (p ++ q))))) ∧
  (∀ s : State, exec .crcRead s.resetEvent = .next (s.resetEvent.answer (.sum s.cfg.crcXorOut))) ∧
  (∀ s t u : State, exec .crcRead s = .next t → exec .crcRead t = .next u → u = t)

/-- R95: CRC.CHECK rx gives `ok = 1` exactly when rx is `crc XOR CRC_XOROUT`, so for one byte of the 256; it always ends
OK and changes nothing. -/
def Obligations.CrcCheckComparesTheReceivedByte : Prop :=
  (∀ rx : Byte, Instr.opc (.crcCheck rx) = 0x13#8) ∧
  (∀ (rx : Byte) (s : State), ∃ ok : Bool, (ok = true ↔ s.crc ^^^ s.cfg.crcXorOut = rx) ∧
    exec (.crcCheck rx) s = .next { s with response := some (.ok (.check ok)) }) ∧
  (∀ s : State, ∃! rx : Byte, exec (.crcCheck rx) s = .next (s.answer (.check true)))

/-- R96: CRC.SUM gives `crc_raw XOR CRC_XOROUT` of its bytes and leaves `crc = crc_raw`; the configuration and what the
host presents are as before. -/
def Obligations.CrcSumIsTheOneShotChecksum : Prop :=
  ∀ (bs : List Byte) (s : State), ∃ t,
    (crcSum bs).from s = (.ok (crcRaw s.cfg.crcPoly bs ^^^ s.cfg.crcXorOut), t) ∧
    t.crc = crcRaw s.cfg.crcPoly bs ∧ t.cfg = s.cfg ∧ t.inputs = s.inputs

/-! ### The header codec -/

/-- R61, R110 and R111: the three bytes of a header, byte 0 first, are its fields in the order op, crc_en, len, section,
page, address from bit 23 down; packing is a bijection onto the three-byte values, and `hdr_unpack` is its inverse, both
ways round. -/
def Obligations.HeaderBytesAreTheFieldsInOrder : Prop :=
  (∀ h : CommandHeader, (hdrByte0 h ++ hdrByte1 h ++ hdrByte2 h : BitVec 24) =
    (h.op ++ h.crcEn ++ h.len ++ h.sectionId ++ h.pageId ++ h.addr : BitVec 24)) ∧
  Function.Bijective (fun h : CommandHeader => (hdrByte0 h, hdrByte1 h, hdrByte2 h)) ∧
  (∀ h : CommandHeader, hdrUnpack (hdrByte0 h) (hdrByte1 h) (hdrByte2 h) = h) ∧
  (∀ h0 h1 h2 : Byte, hdrByte0 (hdrUnpack h0 h1 h2) = h0 ∧ hdrByte1 (hdrUnpack h0 h1 h2) = h1 ∧
    hdrByte2 (hdrUnpack h0 h1 h2) = h2)

/-- R112 and R113, with the length codes of R7: HDR.ENCX refuses the length code 0b11 and otherwise packs its six
operands; HDR.ENC does the same with the section and page ids of the configuration; nothing but the outputs changes. -/
def Obligations.EncodersPackTheHeader : Prop :=
  (∀ (op crcEn : BitVec 1) (len : BitVec 2) (addr : BitVec 12) (s : State), standardLengthCodes s.cfg →
    Instr.opc (.hdrEnc op crcEn len addr) = 0x20#8 ∧
    (len = 0b11#2 → exec (.hdrEnc op crcEn len addr) s = .next (s.raise (.illegalOperand (.len len)))) ∧
    (len ≠ 0b11#2 → ∃ h0 h1 h2 : Byte,
      (h0 ++ h1 ++ h2 : BitVec 24) = (op ++ crcEn ++ len ++ s.cfg.sectionId ++ s.cfg.pageId ++ addr : BitVec 24) ∧
      exec (.hdrEnc op crcEn len addr) s = .next { s with response := some (.ok (.header h0 h1 h2)) })) ∧
  (∀ (op crcEn : BitVec 1) (len : BitVec 2) (sect page : BitVec 4) (addr : BitVec 12) (s : State),
    standardLengthCodes s.cfg →
    Instr.opc (.hdrEncx op crcEn len sect page addr) = 0x21#8 ∧
    (len = 0b11#2 → exec (.hdrEncx op crcEn len sect page addr) s = .next (s.raise (.illegalOperand (.len len)))) ∧
    (len ≠ 0b11#2 → ∃ h0 h1 h2 : Byte,
      (h0 ++ h1 ++ h2 : BitVec 24) = (op ++ crcEn ++ len ++ sect ++ page ++ addr : BitVec 24) ∧
      exec (.hdrEncx op crcEn len sect page addr) s = .next { s with response := some (.ok (.header h0 h1 h2)) })) ∧
  (∀ (op crcEn : BitVec 1) (len : BitVec 2) (addr : BitVec 12) (s : State),
    exec (.hdrEnc op crcEn len addr) s = exec (.hdrEncx op crcEn len s.cfg.sectionId s.cfg.pageId addr) s)

/-- For any three distinct length codes (the model's reading of R7's parameters, log entry 9): the encoders end OK
exactly on the code of a length class, and otherwise report that code. -/
def Obligations.EncodersAcceptExactlyTheAssignedLengths : Prop :=
  ∀ (op crcEn : BitVec 1) (len : BitVec 2) (sect page : BitVec 4) (addr : BitVec 12) (s : State),
    ((∃ k, len = lenCode s.cfg k) →
      (∃ h0 h1 h2, exec (.hdrEnc op crcEn len addr) s = .next (s.answer (.header h0 h1 h2))) ∧
      (∃ h0 h1 h2, exec (.hdrEncx op crcEn len sect page addr) s = .next (s.answer (.header h0 h1 h2)))) ∧
    ((¬ ∃ k, len = lenCode s.cfg k) →
      exec (.hdrEnc op crcEn len addr) s = .next (s.raise (.illegalOperand (.len len))) ∧
      exec (.hdrEncx op crcEn len sect page addr) s = .next (s.raise (.illegalOperand (.len len))))

/-- R116, with the length codes of R7: HDR.DEC gives the six fields of the 24 bits and `len_ok`, on all inputs, always
with status OK, and changes nothing else. The spec marks the operation as its own decision D15. -/
def Obligations.HdrDecReadsTheFields : Prop :=
  ∀ (h0 h1 h2 : Byte) (s : State), standardLengthCodes s.cfg →
    Instr.opc (.hdrDec h0 h1 h2) = 0x22#8 ∧
    ∃ (h : CommandHeader) (ok : Bool),
      (h.op ++ h.crcEn ++ h.len ++ h.sectionId ++ h.pageId ++ h.addr : BitVec 24) = (h0 ++ h1 ++ h2 : BitVec 24) ∧
      (ok = true ↔ h.len ≠ 0b11#2) ∧
      exec (.hdrDec h0 h1 h2) s = .next { s with response := some (.ok (.fields h ok)) }

/-- R117: HDR.DEC of the result of HDR.ENCX returns the six values with `len_ok = 1`, and HDR.ENCX of the result of
HDR.DEC returns the three bytes, for every assigned length code. The spec marks R117 as derived from R110, R111, R113
and R116. -/
def Obligations.HeaderCodecRoundTrips : Prop :=
  (∀ (h : CommandHeader) (s : State), standardLengthCodes s.cfg → h.len ≠ 0b11#2 → ∃ h0 h1 h2 t,
    exec (.hdrEncx h.op h.crcEn h.len h.sectionId h.pageId h.addr) s = .next t ∧
    t.response = some (.ok (.header h0 h1 h2)) ∧
    exec (.hdrDec h0 h1 h2) t = .next (t.answer (.fields h true))) ∧
  (∀ (h0 h1 h2 : Byte) (s : State), standardLengthCodes s.cfg → h0.extractLsb' 4 2 ≠ 0b11#2 → ∃ h t,
    exec (.hdrDec h0 h1 h2) s = .next t ∧ t.response = some (.ok (.fields h true)) ∧
    exec (.hdrEncx h.op h.crcEn h.len h.sectionId h.pageId h.addr) t = .next (t.answer (.header h0 h1 h2)))

/-! ### Slices -/

/-- R132: FLD.GET refuses width 0 and a field that ends above bit 31, and otherwise gives the unsigned value of bits
lsb+width-1 down to lsb; nothing but the outputs changes. -/
def Obligations.FldGetSlices : Prop :=
  ∀ (lsb : BitVec 5) (width : BitVec 6) (v : Reg32) (s : State),
    Instr.opc (.fldGet lsb width v) = 0x30#8 ∧
    (width = 0#6 ∨ lsb.toNat + width.toNat > 32 →
      exec (.fldGet lsb width v) s = .next (s.raise (.illegalOperand (.position lsb width)))) ∧
    (width ≠ 0#6 → lsb.toNat + width.toNat ≤ 32 → ∃ f : Reg32,
      f.toNat = v.toNat / 2 ^ lsb.toNat % 2 ^ width.toNat ∧
      exec (.fldGet lsb width v) s = .next { s with response := some (.ok (.field f)) })

/-- R133: FLD.SET refuses an illegal position, then a value that does not fit, and otherwise replaces the bits of the
field by the value and copies every other bit; nothing but the outputs changes. -/
def Obligations.FldSetReplacesTheField : Prop :=
  ∀ (lsb : BitVec 5) (width : BitVec 6) (v f : Reg32) (s : State),
    Instr.opc (.fldSet lsb width v f) = 0x31#8 ∧
    (width = 0#6 ∨ lsb.toNat + width.toNat > 32 →
      exec (.fldSet lsb width v f) s = .next (s.raise (.illegalOperand (.position lsb width)))) ∧
    (width ≠ 0#6 → lsb.toNat + width.toNat ≤ 32 → 2 ^ width.toNat ≤ f.toNat →
      exec (.fldSet lsb width v f) s = .next (s.raise (.illegalOperand (.fieldValue f)))) ∧
    (width ≠ 0#6 → lsb.toNat + width.toNat ≤ 32 → f.toNat < 2 ^ width.toNat → ∃ v' : Reg32,
      (∀ k < 32, v'.getLsbD k =
        if lsb.toNat ≤ k ∧ k < lsb.toNat + width.toNat then f.getLsbD (k - lsb.toNat) else v.getLsbD k) ∧
      exec (.fldSet lsb width v f) s = .next { s with response := some (.ok (.value v')) })

/-- R134 and R135: BIT.GET gives bit pos and equals FLD.GET pos, 1, v; BIT.SET replaces bit pos by b, copies every
other bit and equals FLD.SET pos, 1, v, b; both always end OK and change nothing but the outputs. -/
def Obligations.BitOperationsAreOneBitSlices : Prop :=
  (∀ (pos : BitVec 5) (v : Reg32) (s : State),
    Instr.opc (.bitGet pos v) = 0x32#8 ∧
    ∃ b : BitVec 1, (b = 1#1 ↔ v.getLsbD pos.toNat = true) ∧
      exec (.bitGet pos v) s = .next { s with response := some (.ok (.bit b)) } ∧
      exec (.fldGet pos 1#6 v) s = .next (s.answer (.field (b.setWidth 32)))) ∧
  (∀ (pos : BitVec 5) (v : Reg32) (b : BitVec 1) (s : State),
    Instr.opc (.bitSet pos v b) = 0x33#8 ∧
    (∃ v' : Reg32, (∀ k < 32, v'.getLsbD k = if k = pos.toNat then b.getLsbD 0 else v.getLsbD k) ∧
      exec (.bitSet pos v b) s = .next { s with response := some (.ok (.value v')) }) ∧
    exec (.bitSet pos v b) s = exec (.fldSet pos 1#6 v (b.setWidth 32)) s)

/-- R136: the slice laws, for legal positions and values that fit. The spec marks R136 as derived from R132 and R133. -/
def Obligations.SliceLaws : Prop :=
  ∀ (l w : Nat), 1 ≤ w → l + w ≤ 32 → ∀ v f : Reg32, f.toNat < 2 ^ w →
    sliceGet l w (sliceSet l w v f) = f ∧
    sliceSet l w v (sliceGet l w v) = v ∧
    ∀ (l' w' : Nat), 1 ≤ w' → l' + w' ≤ 32 → (l + w ≤ l' ∨ l' + w' ≤ l) → ∀ g : Reg32, g.toNat < 2 ^ w' →
      sliceGet l w (sliceSet l' w' v g) = sliceGet l w v ∧
      sliceSet l w (sliceSet l' w' v g) f = sliceSet l' w' (sliceSet l w v f) g

/-! ### Enumerations -/

/-- R139: ENUM.DEC refuses an unknown table, then a code wider than the field, and otherwise gives the code unchanged
and whether it is valid; for an exhaustive well-formed table `known = 1` always. -/
def Obligations.EnumDecTagsEveryCode : Prop :=
  ∀ (t code : Byte) (s : State),
    Instr.opc (.enumDec t code) = 0x40#8 ∧
    (enumTable? s.cfg t = none → exec (.enumDec t code) s = .next (s.raise (.illegalOperand (.table t)))) ∧
    (∀ d, enumTable? s.cfg t = some d →
      (2 ^ d.width ≤ code.toNat → exec (.enumDec t code) s = .next (s.raise (.illegalOperand (.code code)))) ∧
      (code.toNat < 2 ^ d.width → exec (.enumDec t code) s =
        .next { s with response := some (.ok (.decoded (enumValid d code) code)) }) ∧
      (configWf s.cfg = true → d.exhaustive = true → code.toNat < 2 ^ d.width → enumValid d code = true))

/-- R140: ENUM.ENC refuses an unknown table, a code too wide and a tag that disagrees with the table, in this order, and
otherwise gives the code; ENUM.ENC of the result of ENUM.DEC returns the code. -/
def Obligations.EnumEncUndoesEnumDec : Prop :=
  ∀ (t : Byte) (known : Bool) (code : Byte) (s : State),
    Instr.opc (.enumEnc t known code) = 0x41#8 ∧
    (enumTable? s.cfg t = none → exec (.enumEnc t known code) s = .next (s.raise (.illegalOperand (.table t)))) ∧
    (∀ d, enumTable? s.cfg t = some d →
      (2 ^ d.width ≤ code.toNat → exec (.enumEnc t known code) s = .next (s.raise (.illegalOperand (.code code)))) ∧
      (code.toNat < 2 ^ d.width → known ≠ enumValid d code →
        exec (.enumEnc t known code) s = .next (s.raise (.illegalOperand (.known known)))) ∧
      (code.toNat < 2 ^ d.width → known = enumValid d code →
        exec (.enumEnc t known code) s = .next { s with response := some (.ok (.code code)) }) ∧
      (code.toNat < 2 ^ d.width → ∃ k c u, exec (.enumDec t code) s = .next u ∧
        u.response = some (.ok (.decoded k c)) ∧ exec (.enumEnc t k c) u = .next (u.answer (.code code))))

/-- R141: ENUM.CANON refuses an unknown table, then a code too wide, and otherwise gives `canon(code)`. -/
def Obligations.EnumCanonGivesTheClass : Prop :=
  ∀ (t code : Byte) (s : State),
    Instr.opc (.enumCanon t code) = 0x42#8 ∧
    (enumTable? s.cfg t = none → exec (.enumCanon t code) s = .next (s.raise (.illegalOperand (.table t)))) ∧
    (∀ d, enumTable? s.cfg t = some d →
      (2 ^ d.width ≤ code.toNat → exec (.enumCanon t code) s = .next (s.raise (.illegalOperand (.code code)))) ∧
      (code.toNat < 2 ^ d.width → exec (.enumCanon t code) s =
        .next { s with response := some (.ok (.cls (enumClass d code))) }))

/-- R162: ENUM.REP refuses an unknown table, then a class outside the range of `canon`, and otherwise gives
`rep(class)`; for a well-formed catalogue ENUM.CANON of the result of ENUM.REP is the class. -/
def Obligations.EnumRepIsARepresentative : Prop :=
  ∀ (t cls : Byte) (s : State),
    Instr.opc (.enumRep t cls) = 0x43#8 ∧
    (enumTable? s.cfg t = none → exec (.enumRep t cls) s = .next (s.raise (.illegalOperand (.table t)))) ∧
    (∀ d, enumTable? s.cfg t = some d →
      ((¬ ∃ code : Byte, code.toNat < 2 ^ d.width ∧ enumClass d code = cls) →
        exec (.enumRep t cls) s = .next (s.raise (.illegalOperand (.cls cls)))) ∧
      ((∃ code : Byte, code.toNat < 2 ^ d.width ∧ enumClass d code = cls) → configWf s.cfg = true →
        ∃ code u, d.rep.lookup cls = some code ∧
          exec (.enumRep t cls) s = .next { s with response := some (.ok (.code code)) } ∧
          exec (.enumRep t cls) s = .next u ∧ exec (.enumCanon t code) u = .next (u.answer (.cls cls))))

/-- R138 and R161 for a well-formed configuration: a table has 1 to 8 bits and one row for each code, which `valid` and
`canon` read; it is exhaustive exactly when every code is valid; `canon(rep(k)) = k` for every class `k`; and `rep(k)`
is valid whenever a valid code has class `k`. -/
def Obligations.WellFormedTablesAreTotal : Prop :=
  ∀ (c : Config) (t : Byte) (d : EnumDesc), configWf c = true → enumTable? c t = some d →
    1 ≤ d.width ∧ d.width ≤ 8 ∧ d.rows.length = 2 ^ d.width ∧
    (∀ code : Byte, code.toNat < 2 ^ d.width → d.rows[code.toNat]? = some ⟨enumValid d code, enumClass d code⟩) ∧
    (d.exhaustive = true ↔ ∀ code : Byte, code.toNat < 2 ^ d.width → enumValid d code = true) ∧
    (∀ code : Byte, code.toNat < 2 ^ d.width →
      (enumRep d (enumClass d code)).toNat < 2 ^ d.width ∧
      enumClass d (enumRep d (enumClass d code)) = enumClass d code ∧
      (enumValid d code = true → enumValid d (enumRep d (enumClass d code)) = true))

/-- R131 and R152 for a well-formed configuration: every field of a register lies inside the 32 bits and has the width
of its kind, two fields are disjoint and have different names, and a parity bit is outside its own cover. That an
enumeration field's kind agrees with its table's `exhaustive` is the model's reading (log entry 7). -/
def Obligations.WellFormedRegistersKeepTheirLaws : Prop :=
  ∀ (c : Config) (r : Byte) (d : RegDesc), configWf c = true → regTemplate? c r = some d →
    (∀ F ∈ d.fields, 1 ≤ F.width.toNat ∧ F.lsb.toNat + F.width.toNat ≤ 32 ∧
      (F.kind = .bool → F.width.toNat = 1) ∧
      (∀ t, F.kind = .enumExhaustive t → ∃ e, enumTable? c t = some e ∧ F.width.toNat = e.width ∧
        ∀ code : Byte, code.toNat < 2 ^ e.width → enumValid e code = true) ∧
      (∀ t, F.kind = .enumPartial t → ∃ e, enumTable? c t = some e ∧ F.width.toNat = e.width ∧
        ∃ code : Byte, code.toNat < 2 ^ e.width ∧ enumValid e code = false) ∧
      (∀ shift, F.kind = .scaled shift → F.width.toNat = 10) ∧
      (∀ lw hw, F.kind = .splitHigh lw hw → lw ≠ 0#5 ∧ lw.toNat + hw.toNat ≤ 32 ∧ F.width.toNat = hw.toNat) ∧
      (∀ lw hw, F.kind = .splitLow lw hw → hw ≠ 0#5 ∧ lw.toNat + hw.toNat ≤ 32 ∧ F.width.toNat = lw.toNat)) ∧
    d.fields.Pairwise (fun F G => F.lsb.toNat + F.width.toNat ≤ G.lsb.toNat ∨ G.lsb.toNat + G.width.toNat ≤ F.lsb.toNat) ∧
    (d.fields.map FieldDesc.name).Nodup ∧
    (∀ pos cover odd, .parity pos cover odd ∈ d.hooks → cover.getLsbD pos.toNat = false)

/-! ### Scaled magnitudes -/

/-- R143, with the exponent in the high bits (R70): SCL.DEC gives f[7:0], f[9:8] and whether the pattern is zero, for
all 1024 patterns, always with status OK, and changes nothing else. -/
def Obligations.SclDecSplitsThePattern : Prop :=
  ∀ (f : BitVec 10) (s : State), s.cfg.sclExpHigh = true →
    Instr.opc (.sclDec f) = 0x50#8 ∧
    ∃ (auto : Bool) (m : Byte) (e : BitVec 2),
      (auto = true ↔ f = 0#10) ∧ m.toNat = f.toNat % 256 ∧ e.toNat = f.toNat / 256 ∧
      exec (.sclDec f) s = .next { s with response := some (.ok (.scaled auto m e)) }

/-- R144: with the exponent in the high bits (R70) SCL.ENC refuses Auto with a number and the number with mantissa 0 and
exponent 0, and otherwise gives 0 for Auto and `exponent * 256 + mantissa` for a number. Its round trips hold for either
position of the exponent (the second position is the model's reading of SCL_EXP_HIGH = false, log entry 10): SCL.ENC of
the result of SCL.DEC returns the pattern, and SCL.DEC of the result of SCL.ENC returns its operands. -/
def Obligations.SclEncBuildsThePattern : Prop :=
  (∀ (auto : Bool) (m : Byte) (e : BitVec 2) (s : State), s.cfg.sclExpHigh = true →
    Instr.opc (.sclEnc auto m e) = 0x51#8 ∧
    (auto = true → (m ≠ 0#8 ∨ e ≠ 0#2) →
      exec (.sclEnc auto m e) s = .next (s.raise (.illegalOperand (.scaled m e)))) ∧
    (auto = false → m = 0#8 → e = 0#2 → exec (.sclEnc auto m e) s = .next (s.raise (.illegalOperand (.scaled m e)))) ∧
    (auto = true → m = 0#8 → e = 0#2 →
      exec (.sclEnc auto m e) s = .next { s with response := some (.ok (.pattern 0#10)) }) ∧
    (auto = false → (m ≠ 0#8 ∨ e ≠ 0#2) → ∃ f : BitVec 10, f.toNat = e.toNat * 256 + m.toNat ∧
      exec (.sclEnc auto m e) s = .next { s with response := some (.ok (.pattern f)) })) ∧
  (∀ (f : BitVec 10) (s : State), ∃ auto m e t, exec (.sclDec f) s = .next t ∧
    t.response = some (.ok (.scaled auto m e)) ∧ exec (.sclEnc auto m e) t = .next (t.answer (.pattern f))) ∧
  (∀ (auto : Bool) (m : Byte) (e : BitVec 2) (s t : State) (f : BitVec 10),
    exec (.sclEnc auto m e) s = .next t → t.response = some (.ok (.pattern f)) →
    exec (.sclDec f) t = .next (t.answer (.scaled auto m e)))

/-! ### Split fields -/

/-- R147 and R148: SPL.COMB and SPL.SPLIT refuse illegal widths, then a part or a value that does not fit; otherwise
SPL.COMB gives `high * 2^lw + low`, and SPL.SPLIT gives the quotient and the remainder by `2^lw`. -/
def Obligations.SplitOperationsJoinAndCut : Prop :=
  (∀ (lw hw : BitVec 5) (high low : Reg32) (s : State),
    Instr.opc (.splComb lw hw high low) = 0x60#8 ∧
    (lw = 0#5 ∨ hw = 0#5 ∨ lw.toNat + hw.toNat > 32 →
      exec (.splComb lw hw high low) s = .next (s.raise (.illegalOperand (.splitWidths lw hw)))) ∧
    (lw ≠ 0#5 → hw ≠ 0#5 → lw.toNat + hw.toNat ≤ 32 → (2 ^ hw.toNat ≤ high.toNat ∨ 2 ^ lw.toNat ≤ low.toNat) →
      exec (.splComb lw hw high low) s = .next (s.raise (.illegalOperand (.splitParts high low)))) ∧
    (lw ≠ 0#5 → hw ≠ 0#5 → lw.toNat + hw.toNat ≤ 32 → high.toNat < 2 ^ hw.toNat → low.toNat < 2 ^ lw.toNat →
      ∃ l : Reg32, l.toNat = high.toNat * 2 ^ lw.toNat + low.toNat ∧
        exec (.splComb lw hw high low) s = .next { s with response := some (.ok (.logical l)) })) ∧
  (∀ (lw hw : BitVec 5) (l : Reg32) (s : State),
    Instr.opc (.splSplit lw hw l) = 0x61#8 ∧
    (lw = 0#5 ∨ hw = 0#5 ∨ lw.toNat + hw.toNat > 32 →
      exec (.splSplit lw hw l) s = .next (s.raise (.illegalOperand (.splitWidths lw hw)))) ∧
    (lw ≠ 0#5 → hw ≠ 0#5 → lw.toNat + hw.toNat ≤ 32 → 2 ^ (lw.toNat + hw.toNat) ≤ l.toNat →
      exec (.splSplit lw hw l) s = .next (s.raise (.illegalOperand (.logical l)))) ∧
    (lw ≠ 0#5 → hw ≠ 0#5 → lw.toNat + hw.toNat ≤ 32 → l.toNat < 2 ^ (lw.toNat + hw.toNat) →
      ∃ high low : Reg32, high.toNat = l.toNat / 2 ^ lw.toNat ∧ low.toNat = l.toNat % 2 ^ lw.toNat ∧
        exec (.splSplit lw hw l) s = .next { s with response := some (.ok (.parts high low)) }))

/-- R149: SPL.COMB of the result of SPL.SPLIT returns every representable value, and SPL.SPLIT of the result of SPL.COMB
returns the two parts. The spec marks the second as derived from R147 and R148. -/
def Obligations.SplitLaws : Prop :=
  ∀ (lw hw : BitVec 5) (s : State), lw ≠ 0#5 → hw ≠ 0#5 → lw.toNat + hw.toNat ≤ 32 →
    (∀ l : Reg32, l.toNat < 2 ^ (lw.toNat + hw.toNat) → ∃ high low t, exec (.splSplit lw hw l) s = .next t ∧
      t.response = some (.ok (.parts high low)) ∧ exec (.splComb lw hw high low) t = .next (t.answer (.logical l))) ∧
    (∀ high low : Reg32, high.toNat < 2 ^ hw.toNat → low.toNat < 2 ^ lw.toNat → ∃ l t,
      exec (.splComb lw hw high low) s = .next t ∧ t.response = some (.ok (.logical l)) ∧
      exec (.splSplit lw hw l) t = .next (t.answer (.parts high low)))

/-! ### Equality -/

/-- R151, with the exponent in the high bits (R70) where the policy is value: raw compares the patterns, canon the
classes, value the cross-multiplied numbers with Auto equal only to Auto, ignore is always equal; an unknown table and
a pattern too wide are refused; equality is reflexive, symmetric and transitive; nothing but the outputs changes. -/
def Obligations.EqFldComparesUnderItsPolicy : Prop :=
  (∀ (t : Byte) (a b : Reg32) (s : State),
    (∀ p, Instr.opc (.eqFld p t a b) = 0x70#8) ∧
    (∃ e : Bool, (e = true ↔ a = b) ∧ exec (.eqFld .raw t a b) s = .next { s with response := some (.ok (.equal e)) }) ∧
    (enumTable? s.cfg t = none → exec (.eqFld .canon t a b) s = .next (s.raise (.illegalOperand (.table t)))) ∧
    (∀ d, enumTable? s.cfg t = some d →
      (2 ^ d.width ≤ a.toNat ∨ 2 ^ d.width ≤ b.toNat →
        exec (.eqFld .canon t a b) s = .next (s.raise (.illegalOperand (.patterns a b)))) ∧
      (a.toNat < 2 ^ d.width → b.toNat < 2 ^ d.width → ∃ e : Bool,
        (e = true ↔ enumClass d (a.setWidth 8) = enumClass d (b.setWidth 8)) ∧
        exec (.eqFld .canon t a b) s = .next { s with response := some (.ok (.equal e)) })) ∧
    (2 ^ 10 ≤ a.toNat ∨ 2 ^ 10 ≤ b.toNat →
      exec (.eqFld .value t a b) s = .next (s.raise (.illegalOperand (.patterns a b)))) ∧
    (s.cfg.sclExpHigh = true → a.toNat < 2 ^ 10 → b.toNat < 2 ^ 10 → ∃ e : Bool,
      (a = 0#32 ∨ b = 0#32 → (e = true ↔ a = b)) ∧
      (a ≠ 0#32 → b ≠ 0#32 → (e = true ↔
        a.toNat % 256 * 10 ^ (b.toNat / 256) = b.toNat % 256 * 10 ^ (a.toNat / 256))) ∧
      exec (.eqFld .value t a b) s = .next { s with response := some (.ok (.equal e)) }) ∧
    exec (.eqFld .ignore t a b) s = .next { s with response := some (.ok (.equal true)) }) ∧
  (∀ (p : Policy) (t : Byte) (s : State),
    (∀ a b e, exec (.eqFld p t a b) s = .next (s.answer (.equal e)) →
      exec (.eqFld p t a a) s = .next (s.answer (.equal true)) ∧
      exec (.eqFld p t b a) s = .next (s.answer (.equal e))) ∧
    (∀ a b c, exec (.eqFld p t a b) s = .next (s.answer (.equal true)) →
      exec (.eqFld p t b c) s = .next (s.answer (.equal true)) →
      exec (.eqFld p t a c) s = .next (s.answer (.equal true))))

/-- The policy value of R150 against the meaning of R142, for every shift and for either position of the exponent (the
second position is the model's reading, log entry 10): two 10-bit patterns are equal when both are Auto, or both are
numbers with the same rational value. -/
def Obligations.EqFldValueComparesTheNumbers : Prop :=
  ∀ (t : Byte) (a b : Reg32) (s : State), a.toNat < 2 ^ 10 → b.toNat < 2 ^ 10 → ∃ e : Bool,
    exec (.eqFld .value t a b) s = .next (s.answer (.equal e)) ∧
    ∀ shift : Nat, (e = true ↔
      (a = 0#32 ∧ b = 0#32) ∨
      (a ≠ 0#32 ∧ b ≠ 0#32 ∧
        scaledValue (scaledMantissa s.cfg (a.setWidth 10)) (scaledExponent s.cfg (a.setWidth 10)) shift =
        scaledValue (scaledMantissa s.cfg (b.setWidth 10)) (scaledExponent s.cfg (b.setWidth 10)) shift))

/-- R156 for a well-formed configuration (R217): EQ.REG refuses an unknown register, and for a known one of length
class L32 (R152; the other classes: EveryOperationCompletes) it always ends OK, equal exactly when EQ.FLD finds every
field equal under its policy, on the values after the Invert hooks; a value equals itself; bits that belong to no
field, and fields with the policy ignore, are not compared. -/
def Obligations.EqRegComparesFieldByField : Prop :=
  ∀ (r : Byte) (a b : Reg32) (s : State), configWf s.cfg = true →
    Instr.opc (.eqReg r a b) = 0x71#8 ∧
    (regTemplate? s.cfg r = none → exec (.eqReg r a b) s = .next (s.raise (.illegalOperand (.register r)))) ∧
    (∀ d, regTemplate? s.cfg r = some d → d.len = .l32 →
      (∃ e : Bool, exec (.eqReg r a b) s = .next { s with response := some (.ok (.equal e)) } ∧
        (e = true ↔ ∀ F ∈ d.fields, exec (.eqFld F.policy (fieldTable F)
          (sliceGet F.lsb.toNat F.width.toNat (undoHooks d.hooks a))
          (sliceGet F.lsb.toNat F.width.toNat (undoHooks d.hooks b))) s = .next (s.answer (.equal true)))) ∧
      exec (.eqReg r a a) s = .next (s.answer (.equal true)) ∧
      ((∀ k < 32, (∃ F ∈ d.fields, F.policy ≠ .ignore ∧ F.lsb.toNat ≤ k ∧ k < F.lsb.toNat + F.width.toNat) →
          a.getLsbD k = b.getLsbD k) →
        exec (.eqReg r a b) s = .next (s.answer (.equal true))))

/-! ### Hooks -/

/-- R158 and R159: POST.INV inverts the bits of its mask and copies the others, always ends OK, and is its own inverse;
POST.PAR refuses a parity bit inside its own cover, and otherwise writes bit pos alone, so that the number of ones among
the covered bits and the parity bit is even for odd = 0 and odd for odd = 1. -/
def Obligations.HooksInvertAndWriteParity : Prop :=
  (∀ (mask v : Reg32) (s : State),
    Instr.opc (.postInv mask v) = 0x80#8 ∧
    ∃ v' : Reg32, (∀ k < 32, v'.getLsbD k = if mask.getLsbD k then !v.getLsbD k else v.getLsbD k) ∧
      exec (.postInv mask v) s = .next { s with response := some (.ok (.value v')) } ∧
      exec (.postInv mask v') s = .next (s.answer (.value v))) ∧
  (∀ (pos : BitVec 5) (cover : Reg32) (odd : Bool) (v : Reg32) (s : State),
    Instr.opc (.postPar pos cover odd v) = 0x81#8 ∧
    (cover.getLsbD pos.toNat = true →
      exec (.postPar pos cover odd v) s = .next (s.raise (.illegalOperand (.parity pos cover)))) ∧
    (cover.getLsbD pos.toNat = false → ∃ v' : Reg32,
      (∀ k < 32, k ≠ pos.toNat → v'.getLsbD k = v.getLsbD k) ∧
      ((Finset.range 32).filter fun k =>
        v'.getLsbD k = true ∧ (cover.getLsbD k = true ∨ k = pos.toNat)).card % 2 = odd.toNat ∧
      exec (.postPar pos cover odd v) s = .next { s with response := some (.ok (.value v')) }))

/-! ### Whole registers -/

/-- R154 for a well-formed configuration: REG.UNPACK of a known register of length class L32 (R152) never fails, its
patterns are the slices of the value after the Invert hooks, and `crc` is not touched. -/
def Obligations.RegUnpackIsTotal : Prop :=
  ∀ (r : Byte) (d : RegDesc) (x : Reg32) (s : State), configWf s.cfg = true → regTemplate? s.cfg r = some d →
    d.len = .l32 → ∃ t, (regUnpack r x).from s = (.ok (undoHooks d.hooks x,
        d.fields.map fun F => sliceGet F.lsb.toNat F.width.toNat (undoHooks d.hooks x)), t) ∧
      t.crc = s.crc ∧ t.cfg = s.cfg ∧ t.inputs = s.inputs

/-- R153 for a well-formed configuration (R217): REG.PACK of an unknown register is refused; for one of length class
L32 (R152), with one pattern for each field, it gives the value after the post-encode hooks of a value whose fields are
the patterns and whose other bits are those of `base`; the first pattern that does not fit ends it with FLD.SET's
IllegalOperand; `crc` is not touched. -/
def Obligations.RegPackWritesEveryField : Prop :=
  ∀ (r : Byte) (base : Reg32) (fs : List Reg32) (s : State), configWf s.cfg = true →
    (regTemplate? s.cfg r = none → (regPack r base fs).from s = (.error (.raised (.illegalOperand (.register r))), s)) ∧
    (∀ d, regTemplate? s.cfg r = some d → d.len = .l32 → fs.length = d.fields.length →
      ((∀ p ∈ d.fields.zip fs, p.2.toNat < 2 ^ p.1.width.toNat) →
        ∃ v t, (regPack r base fs).from s = (.ok (applyHooks d.hooks v), t) ∧ t.crc = s.crc ∧
          d.fields.map (fun F => sliceGet F.lsb.toNat F.width.toNat v) = fs ∧
          (∀ k < 32, ¬ inSomeField d k → v.getLsbD k = base.getLsbD k)) ∧
      (∀ pre F f post, d.fields.zip fs = pre ++ (F, f) :: post →
        (∀ p ∈ pre, p.2.toNat < 2 ^ p.1.width.toNat) → 2 ^ F.width.toNat ≤ f.toNat →
        ∃ t, (regPack r base fs).from s = (.error (.raised (.illegalOperand (.fieldValue f))), t) ∧ t.crc = s.crc))

/-- R155, R153 and R154: for every L32 register with no Parity hook in a well-formed configuration and every 32-bit
pattern, REG.PACK of the results of REG.UNPACK returns the pattern. -/
def Obligations.PackUndoesUnpack : Prop :=
  ∀ (r : Byte) (d : RegDesc) (x : Reg32) (s : State), configWf s.cfg = true → regTemplate? s.cfg r = some d →
    d.len = .l32 → noParity d →
    ∃ v0 fs t u, (regUnpack r x).from s = (.ok (v0, fs), t) ∧ (regPack r v0 fs).from t = (.ok x, u)

/-- R155 for an L32 register with one Parity hook, and any Invert hooks before and after it: the round trip returns the
pattern exactly when the value the Parity hook writes to, the pattern with the later inversions undone, already carries
the parity the hook computes. With no later inversion (program P4) that value is the pattern itself. -/
def Obligations.ParityRoundTripNeedsTheParity : Prop :=
  ∀ (r : Byte) (d : RegDesc) (pre post : List Hook) (pos : BitVec 5) (cover : Reg32) (odd : Bool) (x : Reg32) (s : State),
    configWf s.cfg = true → regTemplate? s.cfg r = some d → d.len = .l32 →
    d.hooks = pre ++ .parity pos cover odd :: post → (∀ h ∈ pre ++ post, ∃ mask, h = .invert mask) →
    ∃ v0 fs t v u, (regUnpack r x).from s = (.ok (v0, fs), t) ∧ (regPack r v0 fs).from t = (.ok v, u) ∧
      (v = x ↔ ((Finset.range 32).filter fun k =>
        (undoHooks post x).getLsbD k = true ∧ (cover.getLsbD k = true ∨ k = pos.toNat)).card % 2 = odd.toNat) ∧
      (post = [] → undoHooks post x = x)

/-- R155 with typed values (R13, R140, R144): for every L32 register with no Parity hook in a well-formed configuration
and every 32-bit pattern, decoding to typed values never fails and encoding them again returns the pattern. -/
def Obligations.EncodeUndoesDecode : Prop :=
  ∀ (r : Byte) (d : RegDesc) (x : Reg32) (s : State), configWf s.cfg = true → regTemplate? s.cfg r = some d →
    d.len = .l32 → noParity d →
    ∃ v0 vs t u, (regDecode r x).from s = (.ok (v0, vs), t) ∧ (regEncode r v0 vs).from t = (.ok x, u)

/-! ### Frames -/

/-- R43 and R68: `le_value(le_bytes(v, n)) = v` for values of 8n bits, `le_bytes(le_value(bs), n) = bs`, and byte `i` of
`le_bytes(v, n)` holds bits 8i+7 down to 8i, for n = 2, 4, 8; the address byte is DEV_ADDR above the direction bit. -/
def Obligations.BytesOfAFrame : Prop :=
  (∀ k : LengthClass,
    (∀ v : BitVec 64, v.toNat < 2 ^ (8 * nbytes k) → leValue (leBytes v (nbytes k)) = v.toNat) ∧
    (∀ bs : List Byte, bs.length = nbytes k → leBytes (BitVec.ofNat 64 (leValue bs)) (nbytes k) = bs) ∧
    (∀ (v : BitVec 64) (i : Nat), i < nbytes k → (leBytes v (nbytes k))[i]? = some (v.extractLsb' (8 * i) 8)) ∧
    (∀ v : BitVec 64, (leBytes v (nbytes k)).length = nbytes k)) ∧
  (∀ (c : Config) (rw : BitVec 1), addrByte c rw = (c.devAddr ++ rw : BitVec 8))

/-- R172 and R173, with the write context of R171: for a length class FRM.WR gives header, little-endian data and the
checksum of address byte, header and data, 6, 8 or 12 bytes in all (R65), and leaves that remainder in `crc`; FRM.RDCMD
gives the header of a read (R66) and leaves `crc` alone; the unassigned length code ends both with HDR.ENC's
IllegalOperand. -/
def Obligations.WriteFramesAndReadCommands : Prop :=
  (∀ (addr : BitVec 12) (k : LengthClass) (data : BitVec 64) (s : State), configWf s.cfg = true →
    (∃ h0 h1 h2 t,
      (h0 ++ h1 ++ h2 : BitVec 24) =
        (s.cfg.opBitWrite ++ 1#1 ++ lenCode s.cfg k ++ s.cfg.sectionId ++ s.cfg.pageId ++ addr : BitVec 24) ∧
      (frmWr addr (lenCode s.cfg k) data).from s = (.ok ([h0, h1, h2] ++ leBytes data (nbytes k) ++
        [checksum s.cfg ([addrByte s.cfg 0#1, h0, h1, h2] ++ leBytes data (nbytes k))]), t) ∧
      t.crc = crcRaw s.cfg.crcPoly ([addrByte s.cfg 0#1, h0, h1, h2] ++ leBytes data (nbytes k)) ∧
      (leBytes data (nbytes k)).length = nbytes k) ∧
    (∃ h0 h1 h2 t,
      (h0 ++ h1 ++ h2 : BitVec 24) =
        (s.cfg.opBitRead ++ 1#1 ++ lenCode s.cfg k ++ s.cfg.sectionId ++ s.cfg.pageId ++ addr : BitVec 24) ∧
      (frmRdcmd addr (lenCode s.cfg k)).from s = (.ok (h0, h1, h2), t) ∧ t.crc = s.crc)) ∧
  (∀ (addr : BitVec 12) (len : BitVec 2) (data : BitVec 64) (s : State), (¬ ∃ k, len = lenCode s.cfg k) →
    (frmWr addr len data).from s =
      (.error (.raised (.illegalOperand (.len len))), s.raise (.illegalOperand (.len len))) ∧
    (frmRdcmd addr len).from s =
      (.error (.raised (.illegalOperand (.len len))), s.raise (.illegalOperand (.len len))))

/-- R175 with the read context of R174: for a length class FRM.RDCHK returns the little-endian value of the data when
the trailing byte is the checksum of address byte, header, read address byte and data, and otherwise ends with
ChecksumMismatch, the expected and the received byte, and no data; either way `crc` keeps the remainder of the context.
The unassigned length code ends it with HDR.ENC's IllegalOperand. -/
def Obligations.FrmRdchkChecksTheReceivedFrame : Prop :=
  (∀ (addr : BitVec 12) (k : LengthClass) (data : List Byte) (rx : Byte) (s : State), configWf s.cfg = true →
    data.length = nbytes k → ∃ h0 h1 h2 t,
      (h0 ++ h1 ++ h2 : BitVec 24) =
        (s.cfg.opBitRead ++ 1#1 ++ lenCode s.cfg k ++ s.cfg.sectionId ++ s.cfg.pageId ++ addr : BitVec 24) ∧
      t.crc = crcRaw s.cfg.crcPoly ([addrByte s.cfg 0#1, h0, h1, h2, addrByte s.cfg 1#1] ++ data) ∧
      (rx = t.crc ^^^ s.cfg.crcXorOut → (frmRdchk addr (lenCode s.cfg k) (data ++ [rx])).from s =
        (.ok (BitVec.ofNat 64 (leValue data)), t)) ∧
      (rx ≠ t.crc ^^^ s.cfg.crcXorOut → (frmRdchk addr (lenCode s.cfg k) (data ++ [rx])).from s =
        (.error (.raised (.checksumMismatch (t.crc ^^^ s.cfg.crcXorOut) rx)), t))) ∧
  (∀ (addr : BitVec 12) (len : BitVec 2) (rx : List Byte) (s : State), (¬ ∃ k, len = lenCode s.cfg k) →
    (frmRdchk addr len rx).from s =
      (.error (.raised (.illegalOperand (.len len))), s.raise (.illegalOperand (.len len))))

/-- The detection claim of R99 on the read path, for CRC_POLY = 0x07: if FRM.RDCHK accepts a received frame, it ends
with ChecksumMismatch on the same frame with one or with two bits flipped. -/
def Obligations.FrmRdchkDetectsOneOrTwoFlippedBits : Prop :=
  ∀ (addr : BitVec 12) (len : BitVec 2) (rx : List Byte) (s t : State) (v : BitVec 64), s.cfg.crcPoly = 0x07#8 →
    (frmRdchk addr len rx).from s = (.ok v, t) →
    (∀ j < 8 * rx.length, ∃ e g u, (frmRdchk addr len (flipBit j rx)).from s =
      (.error (.raised (.checksumMismatch e g)), u)) ∧
    (∀ j k, j < k → k < 8 * rx.length → ∃ e g u, (frmRdchk addr len (flipBit j (flipBit k rx))).from s =
      (.error (.raised (.checksumMismatch e g)), u))

/-- R176: the split-phase read, in which the first five bytes of the read context are fed before the bus read and the
data bytes as they arrive, with any operations between them but CRC.INIT and CRC.FEED, returns what FRM.RDCHK returns
and leaves the same remainder. The spec marks R176 as derived from R97. The operations between ask the field codec
about L32 registers only. -/
def Obligations.SplitPhaseReadsAgree : Prop :=
  ∀ (addr : BitVec 12) (k : LengthClass) (data : List Byte) (rx : Byte) (is : List Instr) (s : State),
    configWf s.cfg = true → data.length = nbytes k →
    (∀ i ∈ is, inCodec s.cfg i ∧ i ≠ .crcInit ∧ ∀ b, i ≠ .crcFeed b) →
    ∃ t rs u, (readOpen addr (lenCode s.cfg k)).from s = (.ok (), t) ∧ runOps is t = .next (rs, u) ∧
      ((readClose (lenCode s.cfg k) data rx).from u).1 =
        ((frmRdchk addr (lenCode s.cfg k) (data ++ [rx])).from s).1 ∧
      ((readClose (lenCode s.cfg k) data rx).from u).2.crc =
        ((frmRdchk addr (lenCode s.cfg k) (data ++ [rx])).from s).2.crc

/-- R177: REG.VERIFY succeeds exactly when EQ.REG finds the written and the read value equal, and otherwise ends with
ReadbackMismatch and both values; a register id with no descriptor ends it with EQ.REG's IllegalOperand. -/
def Obligations.RegVerifyFollowsEqReg : Prop :=
  ∀ (r : Byte) (written readback : Reg32) (s : State),
    (exec (.eqReg r written readback) s = .next (s.answer (.equal true)) →
      (regVerify r written readback).from s = (.ok (), s.answer (.equal true))) ∧
    (exec (.eqReg r written readback) s = .next (s.answer (.equal false)) →
      (regVerify r written readback).from s =
        (.error (.raised (.readbackMismatch written readback)), s.answer (.equal false))) ∧
    (regTemplate? s.cfg r = none → (regVerify r written readback).from s =
      (.error (.raised (.illegalOperand (.register r))), s.raise (.illegalOperand (.register r))))

/-- R178, R193 and R196, with the order of R198: the write-verify of an L32 register in a well-formed configuration
(R217). A transport error of the write, then of the read command, then of the read ends it and is passed through
unchanged, and `crc` is as the write frame left it. With no transport failure and a frame of five bytes, it ends with
ChecksumMismatch when the trailing byte is not the checksum of the read context, and otherwise with success when EQ.REG
finds the written and the read value equal and with ReadbackMismatch and both values when it does not. ReadbackMismatch
is reached in no other way. The spec marks that sentence of R193 as derived from R175 and R178. -/
def Obligations.WriteVerifyReportsTheFirstError : Prop :=
  (∀ (r : Byte) (d : RegDesc) (v : Reg32) (bus : BusReplies) (s : State), configWf s.cfg = true →
    regTemplate? s.cfg r = some d → d.len = .l32 →
    ∃ w0 w1 w2 r0 r1 r2 : Byte,
      (w0 ++ w1 ++ w2 : BitVec 24) =
        (s.cfg.opBitWrite ++ 1#1 ++ s.cfg.lenCode32 ++ s.cfg.sectionId ++ s.cfg.pageId ++ d.address : BitVec 24) ∧
      (r0 ++ r1 ++ r2 : BitVec 24) =
        (s.cfg.opBitRead ++ 1#1 ++ s.cfg.lenCode32 ++ s.cfg.sectionId ++ s.cfg.pageId ++ d.address : BitVec 24) ∧
      (∀ e : TransportError,
        (bus.write = some e ∨ bus.write = none ∧ bus.command = some e ∨
          bus.write = none ∧ bus.command = none ∧ bus.read = .inl e) →
        ∃ t, (writeVerify r v bus).from s = (.error (.transport e), t) ∧
          t.crc = crcRaw s.cfg.crcPoly ([addrByte s.cfg 0#1, w0, w1, w2] ++ leBytes (v.setWidth 64) 4)) ∧
      (∀ (data : List Byte) (rx : Byte), bus = ⟨none, none, .inr (data ++ [rx])⟩ → data.length = 4 →
        ∃ t, t.crc = crcRaw s.cfg.crcPoly ([addrByte s.cfg 0#1, r0, r1, r2, addrByte s.cfg 1#1] ++ data) ∧
          (rx ≠ t.crc ^^^ s.cfg.crcXorOut → (writeVerify r v bus).from s =
            (.error (.raised (.checksumMismatch (t.crc ^^^ s.cfg.crcXorOut) rx)), t)) ∧
          (rx = t.crc ^^^ s.cfg.crcXorOut →
            exec (.eqReg r v (BitVec.ofNat 32 (leValue data))) s = .next (s.answer (.equal true)) →
            (writeVerify r v bus).from s = (.ok (), t)) ∧
          (rx = t.crc ^^^ s.cfg.crcXorOut →
            exec (.eqReg r v (BitVec.ofNat 32 (leValue data))) s = .next (s.answer (.equal false)) →
            (writeVerify r v bus).from s =
              (.error (.raised (.readbackMismatch v (BitVec.ofNat 32 (leValue data)))), t)))) ∧
  (∀ (r : Byte) (d : RegDesc) (v w rb : Reg32) (bus : BusReplies) (s t : State), configWf s.cfg = true →
    regTemplate? s.cfg r = some d →
    (writeVerify r v bus).from s = (.error (.raised (.readbackMismatch w rb)), t) →
    w = v ∧ bus.write = none ∧ bus.command = none ∧ ∃ rx data u u', bus.read = .inr rx ∧ u.cfg = s.cfg ∧
      (frmRdchk d.address (lenCode s.cfg .l32) rx).from u = (.ok data, u') ∧ rb = data.setWidth 32 ∧
      exec (.eqReg r v rb) u' = .next (u'.answer (.equal false)))

/-! ### The whole machine -/

/-- The execution model of R12 and R190: every operation, in every state and on all operands, completes (R224): either
with status OK and results, writing nothing but `crc`, or with a non-OK status and no change but the outputs. The
configuration (R24) and what the host presents are as before. The one exception is the field codec on a register whose
length class is not L32: EQ.REG is refused, and REG.PACK, REG.UNPACK, the typed encode and decode, REG.VERIFY and the
write-verify stop, by the ruling U19 of 93_implementation_defined.md (log entry 11). The pseudo-operations stop as well
on a request that has not their operands, which is the model's choice (log entry 12): a received frame, whole or in two
phases, or a list of patterns or typed values of another length. -/
def Obligations.EveryOperationCompletes : Prop :=
  (∀ (i : Instr) (s : State), inCodec s.cfg i →
    (∃ r c, exec i s = .next { s with crc := c, response := some (.ok r) }) ∨
    (∃ e, exec i s = .next { s with response := some (.raised e) })) ∧
  (∀ (r : Byte) (d : RegDesc) (s : State), regTemplate? s.cfg r = some d → d.len ≠ .l32 →
    (∀ a b, exec (.eqReg r a b) s = .refused .notThirtyTwoBit) ∧
    (∀ base fs, (regPack r base fs).from s = (.error (.stopped .notThirtyTwoBit), s)) ∧
    (∀ x, (regUnpack r x).from s = (.error (.stopped .notThirtyTwoBit), s)) ∧
    (∀ base vs, (regEncode r base vs).from s = (.error (.stopped .notThirtyTwoBit), s)) ∧
    (∀ x, (regDecode r x).from s = (.error (.stopped .notThirtyTwoBit), s)) ∧
    (∀ a b, (regVerify r a b).from s = (.error (.stopped .notThirtyTwoBit), s)) ∧
    (∀ v bus, (writeVerify r v bus).from s = (.error (.stopped .notThirtyTwoBit), s))) ∧
  (∀ (addr : BitVec 12) (k : LengthClass) (rx : List Byte) (s : State), configWf s.cfg = true →
    rx.length ≠ nbytes k + 1 →
    ∃ t, (frmRdchk addr (lenCode s.cfg k) rx).from s = (.error (.stopped .malformedRequest), t) ∧ t.crc = s.crc) ∧
  (∀ (k : LengthClass) (data : List Byte) (rx : Byte) (s : State), configWf s.cfg = true → data.length ≠ nbytes k →
    (readClose (lenCode s.cfg k) data rx).from s = (.error (.stopped .malformedRequest), s)) ∧
  (∀ (r : Byte) (d : RegDesc) (base : Reg32) (s : State), regTemplate? s.cfg r = some d → d.len = .l32 →
    (∀ fs, fs.length ≠ d.fields.length →
      (regPack r base fs).from s = (.error (.stopped .malformedRequest), s)) ∧
    (∀ vs, vs.length ≠ d.fields.length →
      (regEncode r base vs).from s = (.error (.stopped .malformedRequest), s)))

/-- R20: `crc` is written by CRC.INIT and CRC.FEED and by reset, which makes it 0x00, and by nothing else; an operation
outside the checksum engine does not read it: its whole effect is the same whatever `crc` is; and `crc` holds the raw
remainder: what is written to it is the same whatever CRC_XOROUT is.
The spec marks the reset value as its own decision D6. -/
def Obligations.OnlyTheChecksumEngineTouchesCrc : Prop :=
  (∀ (i : Instr) (s t : State), exec i s = .next t → t.crc ≠ s.crc → i = .crcInit ∨ ∃ b, i = .crcFeed b) ∧
  (∀ s : State, s.resetEvent.crc = 0x00#8) ∧
  (∀ (i : Instr) (s t : State) (c : Byte), crcUse i = .none → exec i s = .next t →
    exec i (s.setCrc c) = .next (t.setCrc c)) ∧
  (∀ (i : Instr) (s t : State) (x : Byte), exec i s = .next t →
    ∃ u, exec i { s with cfg := { s.cfg with crcXorOut := x } } = .next u ∧ u.crc = t.crc)

/-- The status codes of R191: CRC.INIT, CRC.FEED, CRC.READ, CRC.CHECK, HDR.DEC, BIT.GET, BIT.SET, SCL.DEC and POST.INV
always return OK; the other operations return OK (0) or IllegalOperand (3); and the command interface adds only
IllegalOp (4), exactly when the code is unassigned. A command is answered but for EQ.REG on a register outside the
field codec, which is refused (R152, U19; log entry 11). -/
def Obligations.StatusCodesByOperation : Prop :=
  (∀ (i : Instr) (s t : State) (a : Response), exec i s = .next t → t.response = some a →
    (a.status = 0#3 ∨ a.status = 3#3) ∧
    (i.opc ∈ [0x10#8, 0x11#8, 0x12#8, 0x13#8, 0x22#8, 0x32#8, 0x33#8, 0x50#8, 0x80#8] → a.status = 0#3)) ∧
  (∀ (w : CmdWord) (s : State), (∀ i, decode w = .ok i → inCodec s.cfg i) →
    ∃ t a, perform w s = .next t ∧ t.response = some a ∧
    (a.status = 0#3 ∨ a.status = 3#3 ∨ a.status = 4#3) ∧ (a.status = 4#3 ↔ ¬ ∃ i, decode w = .ok i))

/-- R194 and R75: an operation whose operands are outside their legal sets ends with IllegalOperand; and an operation
with legal operands ends with IllegalOperand only if it reads the configuration's length codes or tables. -/
def Obligations.IllFormedOperandsAreRefused : Prop :=
  ∀ (i : Instr) (s : State),
    (i.wellFormed = false → ∃ o, exec i s = .next (s.raise (.illegalOperand o))) ∧
    (∀ o, i.wellFormed = true → exec i s = .next (s.raise (.illegalOperand o)) →
      i.opc ∈ [0x20#8, 0x21#8, 0x40#8, 0x41#8, 0x42#8, 0x43#8, 0x70#8, 0x71#8])

/-- R215 and R216: when the host's next input is the reset event, the step leaves `crc` at 0x00 and no readable output,
and changes nothing else; with CRC.INIT's answer put aside that is the state after a CRC.INIT. The spec marks the
existence of the reset as its own decision D6. -/
def Obligations.ResetClearsTheRemainder : Prop :=
  ∀ (s : State) (ins : List HostInput), configWf s.cfg = true → s.inputs = .reset :: ins →
    step s = .next { s with crc := 0x00#8, response := none, inputs := ins } ∧
    ∀ t, exec .crcInit s = .next t → step s = .next { t with response := none, inputs := ins }

/-- The machine right after reset (R29) with the model's configuration (log entry 1): the invariant of every step
holds, and it holds right after the construction of any instance with a well-formed configuration (R217). -/
def Obligations.InvariantHoldsAtReset : Prop :=
  Inv State.reset ∧ State.reset.crc = 0x00#8 ∧
  ∀ c : Config, configWf c = true → Inv (State.constructed c) ∧ (State.constructed c).crc = 0x00#8

/-- Every step keeps the invariant: the configuration stays well-formed (R24, R217), and what the last operation
reported is sound (R112, R116, R143, R190, R191, R194, R195). -/
def Obligations.EveryStepKeepsTheInvariant : Prop :=
  ∀ s t : State, Inv s → step s = .next t → Inv t

/-- What a step is (R12, R73, R217): when the host's next input is a command that decodes to an operation, the step is
the operation's meaning on the state without that input. With nothing presented nothing happens (the idle step is the
model's, log entry 5), and a configuration that breaks a law is refused (log entry 6). -/
def Obligations.StepPerformsTheDecodedOperation : Prop :=
  (∀ (s : State) (w : CmdWord) (ins : List HostInput) (i : Instr), configWf s.cfg = true →
    s.inputs = .command w :: ins → decode w = .ok i → step s = exec i { s with inputs := ins }) ∧
  (∀ s : State, configWf s.cfg = true → s.inputs = [] → step s = .next s) ∧
  (∀ s : State, configWf s.cfg = false → step s = .refused .illFormedConfiguration)

/-- R77 and R195: a command whose code is none of the twenty-three ends with IllegalOp and the code, and changes no
state; the other commands decode to an operation of that code. The spec marks the command interface as its own decision
D13. -/
def Obligations.UnassignedCodesEndWithIllegalOp : Prop :=
  ∀ (s : State) (w : CmdWord) (ins : List HostInput), configWf s.cfg = true → s.inputs = .command w :: ins →
    (w.extractLsb' 0 8 ∉ [0x10#8, 0x11#8, 0x12#8, 0x13#8, 0x20#8, 0x21#8, 0x22#8, 0x30#8, 0x31#8, 0x32#8, 0x33#8, 0x40#8,
        0x41#8, 0x42#8, 0x43#8, 0x50#8, 0x51#8, 0x60#8, 0x61#8, 0x70#8, 0x71#8, 0x80#8, 0x81#8] →
      step s = .next { s with response := some (.raised (.illegalOp (w.extractLsb' 0 8))), inputs := ins }) ∧
    (w.extractLsb' 0 8 ∈ [0x10#8, 0x11#8, 0x12#8, 0x13#8, 0x20#8, 0x21#8, 0x22#8, 0x30#8, 0x31#8, 0x32#8, 0x33#8, 0x40#8,
        0x41#8, 0x42#8, 0x43#8, 0x50#8, 0x51#8, 0x60#8, 0x61#8, 0x70#8, 0x71#8, 0x80#8, 0x81#8] →
      ∃ i : Instr, decode w = .ok i ∧ i.opc = w.extractLsb' 0 8)

/-- Decoding the encoding of an operation gives it back, with every operand at every value its port admits (R74, R75;
the bundling of ports is the model's, log entry 4). -/
def Obligations.DecodeUndoesEncode : Prop :=
  ∀ i : Instr, decode (encode i) = .ok i

/-- A few commands written out from R74's codes and widths decode to the operations they stand for. -/
def Obligations.CommandsWrittenOutDecode : Prop :=
  decode 0x0000000000000000003111#88 = .ok (.crcFeed 0x31#8) ∧
  decode 0x0000000000000000088720#88 = .ok (.hdrEnc 1#1 1#1 0b01#2 0x088#12) ∧
  decode 0x000000002819082CA87A31#88 = .ok (.fldSet 26#5 3#6 0x03210595#32 5#32) ∧
  decode 0x0000000000000000130241#88 = .ok (.enumEnc 0x02#8 true 0x09#8) ∧
  decode 0x0000000000000000020A51#88 = .ok (.sclEnc false 0x05#8 1#2) ∧
  decode 0x0000000018000000146560#88 = .ok (.splComb 5#5 3#5 0x5#32 0x6#32) ∧
  decode 0x00000008C8000004140270#88 = .ok (.eqFld .value 0x00#8 0x105#32 0x232#32) ∧
  decode 0x00F72232FD172105950A71#88 = .ok (.eqReg 0x0A#8 0x17210595#32 0xF72232FD#32) ∧
  decode 0x000000773C060000FF0080#88 = .ok (.postInv 0x0000FF00#32 0x00773C06#32) ∧
  decode 0x00001DF0C18FFFFFFFFF81#88 = .ok (.postPar 31#5 0x7FFFFFFF#32 false 0x0077C306#32)

/-- R21 and R218: in a run that keeps the discipline (every use of `crc` preceded by a CRC.INIT since the last result),
no answer depends on the remainder the run started with. The run asks the field codec about L32 registers only (R152,
U19; log entry 11). -/
def Obligations.DisciplinedRunsForgetTheOldRemainder : Prop :=
  ∀ (is : List Instr) (s : State) (c : Byte), admits true is = true → (∀ i ∈ is, inCodec s.cfg i) →
    ∃ rs t u, runOps is s = .next (rs, t) ∧ runOps is (s.setCrc c) = .next (rs, u) ∧ u.cfg = t.cfg ∧ u.inputs = t.inputs

/-- R27: after a run, `crc` is the remainder of the bytes fed since the last CRC.INIT, continued from the remainder
before the run when it holds no CRC.INIT. The run asks the field codec about L32 registers only (R152, U19; log entry
11). -/
def Obligations.CrcDependsOnTheBytesSinceInit : Prop :=
  ∀ (is : List Instr) (before : List Byte) (s : State), s.crc = crcRaw s.cfg.crcPoly before →
    (∀ i ∈ is, inCodec s.cfg i) →
    ∃ rs t, runOps is s = .next (rs, t) ∧ t.crc = crcRaw s.cfg.crcPoly (bytesSinceInit before is) ∧
      rs.length = is.length

/-- R12, R23 and R225: presenting a list of operations as commands and stepping once for each gives the state that
performing them one after another gives, with nothing left to present. The run asks the field codec about L32 registers
only (R152, U19; log entry 11). -/
def Obligations.SteppingTheCommandsPerformsTheRun : Prop :=
  ∀ (is : List Instr) (s : State), configWf s.cfg = true → s.inputs = is.map (fun i => .command (encode i)) →
    (∀ i ∈ is, inCodec s.cfg i) →
    ∃ rs t, runOps is { s with inputs := [] } = .next (rs, t) ∧
      Host.Core.run Sys2Proof.core is.length s = .next t
end

