-- ==== Sys2Proof/Laws/State.lean ====
section
/-! SUPPORT. One lemma per field and update of the state, so that no proof unfolds a record update, and what the shared ends of
an operation do. -/

namespace Sys2Proof.Machine

@[simp] theorem State.setCrc_cfg (s : State) (v : Byte) : (s.setCrc v).cfg = s.cfg := rfl
@[simp] theorem State.setCrc_crc (s : State) (v : Byte) : (s.setCrc v).crc = v := rfl
@[simp] theorem State.setCrc_response (s : State) (v : Byte) : (s.setCrc v).response = s.response := rfl
@[simp] theorem State.setCrc_inputs (s : State) (v : Byte) : (s.setCrc v).inputs = s.inputs := rfl

@[simp] theorem State.answer_cfg (s : State) (r : Results) : (s.answer r).cfg = s.cfg := rfl
@[simp] theorem State.answer_crc (s : State) (r : Results) : (s.answer r).crc = s.crc := rfl
@[simp] theorem State.answer_response (s : State) (r : Results) : (s.answer r).response = some (.ok r) := rfl
@[simp] theorem State.answer_inputs (s : State) (r : Results) : (s.answer r).inputs = s.inputs := rfl

@[simp] theorem State.raise_cfg (s : State) (e : Raise) : (s.raise e).cfg = s.cfg := rfl
@[simp] theorem State.raise_crc (s : State) (e : Raise) : (s.raise e).crc = s.crc := rfl
@[simp] theorem State.raise_response (s : State) (e : Raise) : (s.raise e).response = some (.raised e) := rfl
@[simp] theorem State.raise_inputs (s : State) (e : Raise) : (s.raise e).inputs = s.inputs := rfl

@[simp] theorem State.setInputs_cfg (s : State) (ins : List HostInput) : (s.setInputs ins).cfg = s.cfg := rfl
@[simp] theorem State.setInputs_crc (s : State) (ins : List HostInput) : (s.setInputs ins).crc = s.crc := rfl
@[simp] theorem State.setInputs_response (s : State) (ins : List HostInput) : (s.setInputs ins).response = s.response := rfl
@[simp] theorem State.setInputs_inputs (s : State) (ins : List HostInput) : (s.setInputs ins).inputs = ins := rfl

@[simp] theorem State.resetEvent_cfg (s : State) : s.resetEvent.cfg = s.cfg := rfl
@[simp] theorem State.resetEvent_crc (s : State) : s.resetEvent.crc = 0x00#8 := rfl
@[simp] theorem State.resetEvent_response (s : State) : s.resetEvent.response = none := rfl
@[simp] theorem State.resetEvent_inputs (s : State) : s.resetEvent.inputs = s.inputs := rfl

@[simp] theorem State.present_cfg (s : State) (w : CmdWord) : (s.present w).cfg = s.cfg := rfl
@[simp] theorem State.present_crc (s : State) (w : CmdWord) : (s.present w).crc = s.crc := rfl
@[simp] theorem State.present_response (s : State) (w : CmdWord) : (s.present w).response = s.response := rfl
@[simp] theorem State.present_inputs (s : State) (w : CmdWord) : (s.present w).inputs = .command w :: s.inputs := rfl

@[simp] theorem State.constructed_cfg (c : Config) : (State.constructed c).cfg = c := rfl
@[simp] theorem State.constructed_crc (c : Config) : (State.constructed c).crc = 0x00#8 := rfl
@[simp] theorem State.constructed_response (c : Config) : (State.constructed c).response = none := rfl
@[simp] theorem State.constructed_inputs (c : Config) : (State.constructed c).inputs = [] := rfl

/-- Writing the outputs twice leaves the second. -/
@[simp] theorem State.answer_answer (s : State) (r r' : Results) : (s.answer r).answer r' = s.answer r' := rfl
@[simp] theorem State.raise_raise (s : State) (e e' : Raise) : (s.raise e).raise e' = s.raise e' := rfl
@[simp] theorem State.raise_answer (s : State) (e : Raise) (r : Results) : (s.raise e).answer r = s.answer r := rfl
@[simp] theorem State.answer_raise (s : State) (r : Results) (e : Raise) : (s.answer r).raise e = s.raise e := rfl
@[simp] theorem State.setCrc_setCrc (s : State) (v v' : Byte) : (s.setCrc v).setCrc v' = s.setCrc v' := rfl
@[simp] theorem State.answer_setCrc (s : State) (r : Results) (v : Byte) :
    (s.answer r).setCrc v = (s.setCrc v).answer r := rfl
@[simp] theorem State.raise_setCrc (s : State) (e : Raise) (v : Byte) :
    (s.raise e).setCrc v = (s.setCrc v).raise e := rfl

/-! ### The end of an operation -/

@[simp] theorem reply_ok (s : State) (r : Results) : reply s (.ok r) = .next (s.answer r) := rfl
@[simp] theorem reply_error (s : State) (o : BadOperand) :
    reply s (.error o) = .next (s.raise (.illegalOperand o)) := rfl

/-- Everything `reply` can do: it answers next, with results or with IllegalOperand, and writes the outputs alone. -/
theorem reply_cases {s : State} {x : Except BadOperand Results} {t : State} (h : reply s x = .next t) :
    (∃ r, x = .ok r ∧ t = s.answer r) ∨ (∃ o, x = .error o ∧ t = s.raise (.illegalOperand o)) := by
  cases x with
  | ok r => exact .inl ⟨r, rfl, by simpa using h.symm⟩
  | error o => exact .inr ⟨o, rfl, by simpa using h.symm⟩

/-- Everything `perform` can do: the meaning of the operation, or IllegalOp with the code. -/
theorem perform_cases (w : CmdWord) (s : State) :
    (∃ i, decode w = .ok i ∧ perform w s = exec i s) ∨
    (∃ opc, decode w = .error (.unassigned opc) ∧ perform w s = .next (s.raise (.illegalOp opc))) := by
  unfold perform
  cases h : decode w with
  | ok i => exact .inl ⟨i, rfl, rfl⟩
  | error e => cases e with | unassigned opc => exact .inr ⟨opc, rfl, rfl⟩

/-- Everything a step of a machine with a well-formed configuration can do. -/
theorem step_cases {s t : State} (h : step s = .next t) :
    configWf s.cfg = true ∧
      ((s.inputs = [] ∧ t = s) ∨
       (∃ ins, s.inputs = .reset :: ins ∧ t = (s.setInputs ins).resetEvent) ∨
       (∃ w ins, s.inputs = .command w :: ins ∧ perform w (s.setInputs ins) = .next t)) := by
  unfold step at h
  split at h
  · refine ⟨‹_›, ?_⟩
    unfold serve at h
    split at h
    · exact .inl ⟨‹_›, by simpa using h.symm⟩
    · exact .inr (.inl ⟨_, ‹_›, by simpa using h.symm⟩)
    · exact .inr (.inr ⟨_, _, ‹_›, h⟩)
  · exact absurd h (by simp)

end Sys2Proof.Machine
end

