-- ==== Sys2Proof/Laws/Ops.lean ====
section
/-! SUPPORT. What each shared operation does, said once: lookups and length codes, the laws a well-formed configuration gives its
tables, the shapes of byte sequences, and the running of pseudo-operations. -/

namespace Sys2Proof.Machine

/-! ### Lookups -/

/-- The test of an enumeration code succeeds exactly for a table that exists and a code that fits. -/
theorem findEnumCode_ok {c : Config} {t code : Byte} {d : EnumDesc} :
    findEnumCode c t code = .ok d ↔ enumTable? c t = some d ∧ enumFits d code = true := by
  unfold findEnumCode
  cases h : enumTable? c t with
  | none => simp
  | some d' => by_cases hf : enumFits d' code <;> simp [hf] <;> rintro rfl <;> simp_all

/-- What the test of an enumeration code reports. -/
theorem findEnumCode_error {c : Config} {t code : Byte} {o : BadOperand} (h : findEnumCode c t code = .error o) :
    (enumTable? c t = none ∧ o = .table t) ∨
    (∃ d, enumTable? c t = some d ∧ enumFits d code = false ∧ o = .code code) := by
  unfold findEnumCode at h
  cases ht : enumTable? c t with
  | none => simp [ht] at h; exact .inl ⟨rfl, h.symm⟩
  | some d =>
    by_cases hf : enumFits d code = true
    · simp [ht, hf] at h
    · simp [ht, hf] at h; exact .inr ⟨d, rfl, by simpa using hf, h.symm⟩

/-- A looked-up value stands in the list. -/
theorem mem_of_lookup {α : Type} {k : Byte} {v : α} : ∀ {l : List (Byte × α)}, l.lookup k = some v → (k, v) ∈ l
  | [], h => by simp at h
  | (k', v') :: l, h => by
    rw [List.lookup_cons] at h
    by_cases hk : k = k'
    · subst hk; simp at h; simp [h]
    · simp [show (k == k') = false by simpa using hk] at h
      exact List.mem_cons_of_mem _ (mem_of_lookup h)

/-- A well-formed configuration has well-formed enumeration tables. -/
theorem configWf_enum {c : Config} {t : Byte} {d : EnumDesc} (h : configWf c = true) (ht : enumTable? c t = some d) :
    enumWf d = true := by
  simp only [configWf, Bool.and_eq_true, List.all_eq_true] at h
  exact h.1.1.2 (t, d) (mem_of_lookup ht)

/-- A well-formed configuration has well-formed registers. -/
theorem configWf_reg {c : Config} {r : Byte} {d : RegDesc} (h : configWf c = true) (hr : regTemplate? c r = some d) :
    regWf c d = true := by
  simp only [configWf, Bool.and_eq_true, List.all_eq_true] at h
  exact h.2 (r, d) (mem_of_lookup hr)

/-- The length codes of a well-formed configuration name their classes. -/
theorem lenClass?_lenCode {c : Config} (h : configWf c = true) (k : LengthClass) : lenClass? c (lenCode c k) = some k := by
  simp only [configWf, Bool.and_eq_true, decide_eq_true_eq] at h
  obtain ⟨h1, h2, h3⟩ := h.1.1.1.1.2
  cases k <;> simp [lenClass?, lenCode, Ne.symm h1, Ne.symm h2, Ne.symm h3]

/-- A code has no length class exactly when it is the code of none. -/
theorem lenClass?_eq_none {c : Config} {code : BitVec 2} : lenClass? c code = none ↔ ∀ k, code ≠ lenCode c k := by
  constructor
  · intro h k hk
    unfold lenClass? at h
    split_ifs at h with h1 h2 h3
    cases k <;> simp_all [lenCode]
  · intro h
    have h1 := h .l16
    have h2 := h .l32
    have h3 := h .l64
    simp_all [lenClass?, lenCode]

/-! ### Registers outside the field codec -/

theorem outsideCodec_iff {c : Config} {r : Byte} :
    outsideCodec c r = true ↔ ∃ d, regTemplate? c r = some d ∧ d.len ≠ .l32 := by
  unfold outsideCodec
  cases regTemplate? c r <;> simp

/-- Everything EQ.REG can do: it is refused on a register outside the field codec, and otherwise replies. -/
theorem execEqReg_cases (r : Byte) (a b : Reg32) (s : State) :
    (outsideCodec s.cfg r = true ∧ execEqReg r a b s = .refused .notThirtyTwoBit) ∨
    (outsideCodec s.cfg r = false ∧ execEqReg r a b s = reply s ((registerEqual s.cfg r a b).map .equal)) := by
  unfold execEqReg
  cases outsideCodec s.cfg r <;> simp

/-- EQ.REG of an L32 register replies. -/
theorem execEqReg_of_l32 {r : Byte} {d : RegDesc} {s : State} (hr : regTemplate? s.cfg r = some d) (hd : d.len = .l32)
    (a b : Reg32) : execEqReg r a b s = reply s ((registerEqual s.cfg r a b).map .equal) := by
  simp [execEqReg, outsideCodec, hr, hd]

/-! ### Byte sequences -/

@[simp] theorem crcFrom_nil (poly c : Byte) : crcFrom poly c [] = c := rfl
@[simp] theorem crcFrom_cons (poly c b : Byte) (bs : List Byte) :
    crcFrom poly c (b :: bs) = crcFrom poly (crcStep poly c b) bs := rfl

@[simp] theorem leBytes_length (v : BitVec 64) (n : Nat) : (leBytes v n).length = n := by
  induction n generalizing v with
  | zero => rfl
  | succ n ih => simp [leBytes, ih]

/-! ### Running a pseudo-operation -/

@[simp] theorem Pseudo.from_pure {α : Type} (a : α) (s : State) : (pure a : Pseudo α).from s = (.ok a, s) := rfl

@[simp] theorem Pseudo.from_throw {α : Type} (e : PseudoError) (s : State) :
    (throw e : Pseudo α).from s = (.error e, s) := rfl

/-- A sequence of two pseudo-operations: the second runs on the result and the state of the first, unless that raised. -/
theorem Pseudo.from_bind {α β : Type} (p : Pseudo α) (f : α → Pseudo β) (s : State) :
    (p >>= f).from s = match p.from s with
      | (.ok a, t) => (f a).from t
      | (.error e, t) => (.error e, t) := by
  simp only [Pseudo.from, ExceptT.run, StateT.run, Bind.bind, ExceptT.bind, StateT.bind, ExceptT.mk]
  cases h : p s with
  | mk x t => cases x <;> rfl

theorem Pseudo.from_bind_ok {α β : Type} {p : Pseudo α} {f : α → Pseudo β} {s t : State} {a : α}
    (h : p.from s = (.ok a, t)) : (p >>= f).from s = (f a).from t := by rw [Pseudo.from_bind, h]

theorem Pseudo.from_bind_error {α β : Type} {p : Pseudo α} {f : α → Pseudo β} {s t : State} {e : PseudoError}
    (h : p.from s = (.error e, t)) : (p >>= f).from s = (.error e, t) := by rw [Pseudo.from_bind, h]

@[simp] theorem Pseudo.from_get (s : State) : (get : Pseudo State).from s = (.ok s, s) := rfl

@[simp] theorem config_from (s : State) : config.from s = (.ok s.cfg, s) := rfl

/-- An operation that ends OK hands its results to the host. -/
theorem issue_ok {i : Instr} {s t : State} {r : Results} (h : exec i s = .next t) (hr : t.response = some (.ok r)) :
    (issue i).from s = (.ok r, t) := by
  simp [issue, Pseudo.from, ExceptT.run, ExceptT.mk, StateT.run, h, hr]

/-- An operation that raises ends the pseudo-operation, in the state it leaves. -/
theorem issue_raised {i : Instr} {s t : State} {e : Raise} (h : exec i s = .next t)
    (hr : t.response = some (.raised e)) : (issue i).from s = (.error (.raised e), t) := by
  simp [issue, Pseudo.from, ExceptT.run, ExceptT.mk, StateT.run, h, hr]

/-- An operation refused outside the field codec ends the pseudo-operation in the state before it. -/
theorem issue_refused {i : Instr} {s : State} (h : exec i s = .refused .notThirtyTwoBit) :
    (issue i).from s = (.error (.stopped .notThirtyTwoBit), s) := by
  simp [issue, Pseudo.from, ExceptT.run, ExceptT.mk, StateT.run, h]

/-- Everything the reading of a descriptor can do, by what the table holds for the id. -/
theorem findTemplate_from (r : Byte) (s : State) : (findTemplate r).from s =
    match regTemplate? s.cfg r with
    | some d => if d.len = .l32 then (.ok d, s) else (.error (.stopped .notThirtyTwoBit), s)
    | none => (.error (.raised (.illegalOperand (.register r))), s) := by
  rw [findTemplate, Pseudo.from_bind_ok (config_from s)]
  cases regTemplate? s.cfg r with
  | none => rfl
  | some d => by_cases h : d.len = .l32 <;> simp [h]

/-- Feeding a byte sequence: `crc` becomes the remainder continued over it, configuration and inputs are as before. -/
theorem feed_from (bs : List Byte) (s : State) :
    ∃ t, (feed bs).from s = (.ok (), t) ∧ t.crc = crcFrom s.cfg.crcPoly s.crc bs ∧ t.cfg = s.cfg ∧
      t.inputs = s.inputs := by
  induction bs generalizing s with
  | nil => exact ⟨s, rfl, rfl, rfl, rfl⟩
  | cons b bs ih =>
    obtain ⟨t, h, hc, hg, hi⟩ := ih ((s.setCrc (crcStep s.cfg.crcPoly s.crc b)).answer .empty)
    refine ⟨t, ?_, hc, hg, hi⟩
    rw [feed, Pseudo.from_bind_ok (issue_ok rfl rfl), h]

end Sys2Proof.Machine
end

