-- ==== Sys2Proof/Laws/Engine.lean ====
section
/-! SUPPORT. The checksum functions over concatenation and exclusive-or, the header encoder, and runs of operations. -/

namespace Sys2Proof.Machine

/-! ### The checksum functions -/

@[simp] theorem crcShifts_zero (poly : Byte) : ∀ n, crcShifts poly n 0#8 = 0#8
  | 0 => rfl
  | n + 1 => by rw [crcShifts, show crcShift poly 0#8 = 0#8 from rfl]; exact crcShifts_zero poly n

/-- The remainder of a concatenation continues over the second part. -/
theorem crcFrom_append (poly c : Byte) (p q : List Byte) :
    crcFrom poly c (p ++ q) = crcFrom poly (crcFrom poly c p) q := by
  induction p generalizing c with
  | nil => rfl
  | cons b p ih => simp [ih]

theorem crcShift_xor (poly x y : Byte) : crcShift poly (x ^^^ y) = crcShift poly x ^^^ crcShift poly y := by
  unfold crcShift
  rw [BitVec.msb_xor]
  cases x.msb <;> cases y.msb <;> simp <;> ext i <;> simp <;> grind

theorem crcShifts_xor (poly : Byte) : ∀ n x y, crcShifts poly n (x ^^^ y) = crcShifts poly n x ^^^ crcShifts poly n y
  | 0, _, _ => rfl
  | n + 1, x, y => by simp only [crcShifts, crcShift_xor]; exact crcShifts_xor poly n _ _

/-! ### The header -/

/-- Packing and unpacking keep the length code. -/
theorem hdrUnpack_len (h : CommandHeader) : (hdrUnpack (hdrByte0 h) (hdrByte1 h) (hdrByte2 h)).len = h.len := by
  apply BitVec.eq_of_getLsbD_eq
  intro i hi
  obtain rfl | rfl : i = 0 ∨ i = 1 := by omega
  all_goals simp [hdrUnpack, hdrByte0]

theorem encodeHeader_none {c : Config} {h : CommandHeader} (hl : lenClass? c h.len = none) :
    encodeHeader c h = .error (.len h.len) := by
  simp [encodeHeader, hl]

theorem encodeHeader_some {c : Config} {h : CommandHeader} {k : LengthClass} (hl : lenClass? c h.len = some k) :
    encodeHeader c h = .ok (.header (hdrByte0 h) (hdrByte1 h) (hdrByte2 h)) := by
  simp [encodeHeader, hl]

/-! ### Runs of operations -/

/-- A run of two lists of operations is a run of the second from the state the first leaves. -/
theorem runOps_append {is : List Instr} {s t : State} {rs : List (Option Response)} (js : List Instr)
    (h : runOps is s = .next (rs, t)) :
    runOps (is ++ js) s = match runOps js t with
      | .next (rs', u) => .next (rs ++ rs', u)
      | .fault f => .fault f
      | .refused r => .refused r := by
  induction is generalizing s rs with
  | nil =>
    simp only [runOps] at h
    cases h
    simp only [List.nil_append]
    split <;> simp_all
  | cons i is ih =>
    simp only [runOps, List.cons_append] at h ⊢
    cases he : exec i s with
    | fault f => exact f.casesOn
    | refused r => simp [he] at h
    | next v =>
      simp only [he] at h ⊢
      cases hr : runOps is v with
      | fault f => exact f.casesOn
      | refused r => simp [hr] at h
      | next p =>
        obtain ⟨rs', u⟩ := p
        simp only [hr] at h
        cases h
        rw [ih hr]
        cases runOps js t with
        | fault f => exact f.casesOn
        | refused r => rfl
        | next p => rfl

end Sys2Proof.Machine
end

