-- ==== Sys2Proof/Laws/Wires.lean ====
section
/-! SUPPORT. Reading a port of a bundle: the ports of a concatenation are those of its two halves. -/

namespace Sys2Proof

/-- A port above the low half of a concatenation is a port of the high half. -/
theorem port_high {n m lo k : Nat} (x : BitVec n) (y : BitVec m) (h : n + m ≤ 88) (hl : m ≤ lo) :
    port (bundle (x ++ y)) lo k = port (bundle x) (lo - m) k := by
  apply BitVec.eq_of_getLsbD_eq
  intro i hi
  simp only [port, bundle, BitVec.getLsbD_extractLsb', BitVec.getLsbD_setWidth, BitVec.getLsbD_append]
  rw [show lo - m + i = lo + i - m by omega]
  by_cases h1 : lo + i < 88
  · simp [hi, h1, show ¬ lo + i < m by omega, show lo + i - m < 88 by omega]
  · simp [h1, hi]
    intro _
    exact BitVec.getLsbD_of_ge _ _ (by omega)

/-- A port inside the low half of a concatenation is a port of the low half. -/
theorem port_low {n m lo k : Nat} (x : BitVec n) (y : BitVec m) (hl : lo + k ≤ m) :
    port (bundle (x ++ y)) lo k = port (bundle y) lo k := by
  apply BitVec.eq_of_getLsbD_eq
  intro i hi
  simp only [port, bundle, BitVec.getLsbD_extractLsb', BitVec.getLsbD_setWidth, BitVec.getLsbD_append]
  simp [hi, show lo + i < m by omega]

/-- The port that is all of a bundle's value. -/
theorem port_all {n : Nat} (x : BitVec n) (h : n ≤ 88) : port (bundle x) 0 n = x := by
  apply BitVec.eq_of_getLsbD_eq
  intro i hi
  simp [port, bundle, hi, show i < 88 by omega]

/-- A one-wire port as a Boolean. -/
theorem portFlag_eq (w : CmdWord) (lo : Nat) : portFlag w lo = (port w lo 1).getLsbD 0 := by
  simp [portFlag, port]

/-- The low byte of a bundle that ends in a byte is that byte. -/
theorem bundle_code {n : Nat} (x : BitVec n) (c : Byte) : (bundle (x ++ c)).extractLsb' 0 8 = c :=
  (port_low x c (by omega)).trans (port_all c (by omega))

/-- The policy of a policy's code. -/
@[simp] theorem policyOfCode_codeOfPolicy (p : Policy) : policyOfCode (codeOfPolicy p) = p := by
  cases p <;> rfl

/-- The code of a code's policy: the four codes and the four policies correspond (R75). -/
@[simp] theorem codeOfPolicy_policyOfCode (c : BitVec 2) : codeOfPolicy (policyOfCode c) = c := by
  revert c; decide

end Sys2Proof
end

