-- ==== Sys2Proof/Laws/PerInstr.lean ====
section
/-! SUPPORT. A statement about every operation as syntax, one lemma per constructor: the low byte of the command that encodes it is
the code R74 gives it. -/

namespace Sys2Proof.Laws.CommandCode

/-- The code in bits 7..0 of the command of `i` is that of `i`. -/
def Statement (i : Instr) : Prop := (encode i).extractLsb' 0 8 = i.opc

theorem crcInit : Statement (.crcInit) :=
  port_all _ (by omega)

theorem crcFeed (b : Byte) : Statement (.crcFeed b) :=
  bundle_code _ _

theorem crcRead : Statement (.crcRead) :=
  port_all _ (by omega)

theorem crcCheck (rx : Byte) : Statement (.crcCheck rx) :=
  bundle_code _ _

theorem hdrEnc (op crcEn : BitVec 1) (len : BitVec 2) (addr : BitVec 12) : Statement (.hdrEnc op crcEn len addr) :=
  bundle_code _ _

theorem hdrEncx (op crcEn : BitVec 1) (len : BitVec 2) (sectionId pageId : BitVec 4) (addr : BitVec 12) : Statement (.hdrEncx op crcEn len sectionId pageId addr) :=
  bundle_code _ _

theorem hdrDec (h0 h1 h2 : Byte) : Statement (.hdrDec h0 h1 h2) :=
  bundle_code _ _

theorem fldGet (lsb : BitVec 5) (width : BitVec 6) (v : Reg32) : Statement (.fldGet lsb width v) :=
  bundle_code _ _

theorem fldSet (lsb : BitVec 5) (width : BitVec 6) (v f : Reg32) : Statement (.fldSet lsb width v f) :=
  bundle_code _ _

theorem bitGet (pos : BitVec 5) (v : Reg32) : Statement (.bitGet pos v) :=
  bundle_code _ _

theorem bitSet (pos : BitVec 5) (v : Reg32) (b : BitVec 1) : Statement (.bitSet pos v b) :=
  bundle_code _ _

theorem enumDec (t code : Byte) : Statement (.enumDec t code) :=
  bundle_code _ _

theorem enumEnc (t : Byte) (known : Bool) (code : Byte) : Statement (.enumEnc t known code) :=
  bundle_code _ _

theorem enumCanon (t code : Byte) : Statement (.enumCanon t code) :=
  bundle_code _ _

theorem enumRep (t cls : Byte) : Statement (.enumRep t cls) :=
  bundle_code _ _

theorem sclDec (f : BitVec 10) : Statement (.sclDec f) :=
  bundle_code _ _

theorem sclEnc (auto : Bool) (mantissa : Byte) (exponent : BitVec 2) : Statement (.sclEnc auto mantissa exponent) :=
  bundle_code _ _

theorem splComb (lw hw : BitVec 5) (high low : Reg32) : Statement (.splComb lw hw high low) :=
  bundle_code _ _

theorem splSplit (lw hw : BitVec 5) (logical : Reg32) : Statement (.splSplit lw hw logical) :=
  bundle_code _ _

theorem eqFld (policy : Policy) (t : Byte) (a b : Reg32) : Statement (.eqFld policy t a b) :=
  bundle_code _ _

theorem eqReg (r : Byte) (a b : Reg32) : Statement (.eqReg r a b) :=
  bundle_code _ _

theorem postInv (mask v : Reg32) : Statement (.postInv mask v) :=
  bundle_code _ _

theorem postPar (pos : BitVec 5) (cover : Reg32) (odd : Bool) (v : Reg32) : Statement (.postPar pos cover odd v) :=
  bundle_code _ _

end Sys2Proof.Laws.CommandCode
end

