-- ==== Sys2Proof/Laws/Slices.lean ====
section
/-! SUPPORT. The operand tests as propositions, slices of a 32-bit value bit by bit, and what a well-formed configuration says of
a register. -/

namespace Sys2Proof.Machine

/-! ### Operand tests -/

theorem badPosition_iff (lsb : BitVec 5) (width : BitVec 6) :
    badPosition lsb width = true ↔ width = 0#6 ∨ 32 < lsb.toNat + width.toNat := by
  simp only [badPosition, Bool.or_eq_true, decide_eq_true_eq]
  rw [← BitVec.toNat_inj]
  simp

theorem badSplit_iff (lw hw : BitVec 5) :
    badSplit lw hw = true ↔ lw = 0#5 ∨ hw = 0#5 ∨ 32 < lw.toNat + hw.toNat := by
  simp only [badSplit, Bool.or_eq_true, decide_eq_true_eq, or_assoc]
  rw [← BitVec.toNat_inj, ← BitVec.toNat_inj]
  simp

theorem tooWide_iff (w : Nat) (x : Reg32) : tooWide w x = true ↔ 2 ^ w ≤ x.toNat := by simp [tooWide]

theorem tooWide_eq_false (w : Nat) (x : Reg32) : tooWide w x = false ↔ x.toNat < 2 ^ w := by simp [tooWide]

/-- The code of an enumeration fits exactly when it is one of its codes. -/
theorem mem_enumCodes {d : EnumDesc} {code : Byte} : code ∈ enumCodes d ↔ code.toNat < 2 ^ d.width := by
  simp only [enumCodes, List.mem_map, List.mem_range]
  constructor
  · rintro ⟨n, hn, rfl⟩
    exact lt_of_le_of_lt (by simpa using Nat.mod_le n 256) hn
  · intro h
    exact ⟨code.toNat, h, by simp⟩

/-- A class is in the range of `canon` exactly when some code of the field has it. -/
theorem mem_enumClasses {d : EnumDesc} {cls : Byte} :
    cls ∈ enumClasses d ↔ ∃ code : Byte, code.toNat < 2 ^ d.width ∧ enumClass d code = cls := by
  simp [enumClasses, mem_enumCodes]

/-! ### Bits of a slice -/

/-- The bits of a value above its width are zero. -/
theorem getLsbD_of_lt {w k : Nat} {f : Reg32} (hf : f.toNat < 2 ^ w) (h : w ≤ k) : f.getLsbD k = false := by
  rw [BitVec.getLsbD]
  exact Nat.testBit_lt_two_pow (lt_of_lt_of_le hf (Nat.pow_le_pow_right (by norm_num) h))

theorem lowMask_bit {w : Nat} (hw : w ≤ 32) (k : Nat) : (lowMask w).getLsbD k = decide (k < w) := by
  rw [lowMask, BitVec.getLsbD_ofNat, Nat.testBit_two_pow_sub_one]
  by_cases h : k < w <;> simp [h]; omega

/-- Bit `k` of a slice. -/
theorem sliceGet_bit {w : Nat} (hw : w ≤ 32) (l k : Nat) (v : Reg32) :
    (sliceGet l w v).getLsbD k = (decide (k < w) && v.getLsbD (l + k)) := by
  simp [sliceGet, lowMask_bit hw, Bool.and_comm]

/-- A slice fits the width of its field. -/
theorem sliceGet_lt {w : Nat} (hw : w ≤ 32) (l : Nat) (v : Reg32) : (sliceGet l w v).toNat < 2 ^ w := by
  have h : 2 ^ w ≤ 2 ^ 32 := Nat.pow_le_pow_right (by norm_num) hw
  have h0 : 0 < 2 ^ w := by positivity
  rw [sliceGet, BitVec.toNat_and, lowMask, BitVec.toNat_ofNat, Nat.mod_eq_of_lt (by omega),
    Nat.and_two_pow_sub_one_eq_mod]
  exact Nat.mod_lt _ h0

/-- Bit `k` of a value with a field replaced. -/
theorem sliceSet_bit {l w k : Nat} (h : l + w ≤ 32) (v : Reg32) {f : Reg32} (hf : f.toNat < 2 ^ w) (hk : k < 32) :
    (sliceSet l w v f).getLsbD k = if l ≤ k ∧ k < l + w then f.getLsbD (k - l) else v.getLsbD k := by
  simp only [sliceSet, BitVec.getLsbD_or, BitVec.getLsbD_and, BitVec.getLsbD_not, BitVec.getLsbD_shiftLeft,
    lowMask_bit (show w ≤ 32 by omega), hk]
  by_cases h1 : l ≤ k
  · by_cases h2 : k < l + w
    · simp [h1, h2, show ¬ k < l by omega, show k - l < w by omega]
    · simp [h1, h2, show ¬ k < l by omega, show ¬ k - l < w by omega,
        getLsbD_of_lt hf (show w ≤ k - l by omega)]
  · simp [h1, show k < l by omega]

/-- A one-bit replacement is the replacement of a field of width 1 (R135). -/
theorem bitPut_eq_sliceSet (pos : Nat) (v : Reg32) (b : BitVec 1) :
    bitPut pos v b = sliceSet pos 1 v (b.setWidth 32) := rfl

/-! ### Fields and hooks of a well-formed register -/

theorem regWf_field {c : Config} {d : RegDesc} (h : regWf c d = true) {F : FieldDesc} (hF : F ∈ d.fields) :
    fieldWf c F = true := by
  simp only [regWf, Bool.and_eq_true, List.all_eq_true] at h
  exact h.1.1.1 F hF

theorem regWf_hook {c : Config} {d : RegDesc} (h : regWf c d = true) {k : Hook} (hk : k ∈ d.hooks) :
    hookWf k = true := by
  simp only [regWf, Bool.and_eq_true, List.all_eq_true] at h
  exact h.2 k hk

/-- A test of every two fields, as a relation between the fields of a list. -/
theorem pairwiseAll_iff {test : FieldDesc → FieldDesc → Bool} {Fs : List FieldDesc} :
    pairwiseAll test Fs = true ↔ Fs.Pairwise fun F G => test F G = true := by
  induction Fs with
  | nil => simp [pairwiseAll]
  | cons F Fs ih => simp [pairwiseAll, ih]

/-- The position of a well-formed field is legal. -/
theorem fieldWf_position {c : Config} {F : FieldDesc} (h : fieldWf c F = true) :
    1 ≤ F.width.toNat ∧ F.lsb.toNat + F.width.toNat ≤ 32 := by
  simp only [fieldWf, Bool.and_eq_true, decide_eq_true_eq] at h
  exact ⟨h.1.1.1, h.1.1.2⟩

theorem fieldWf_badPosition {c : Config} {F : FieldDesc} (h : fieldWf c F = true) :
    badPosition F.lsb F.width = false := by
  obtain ⟨h1, h2⟩ := fieldWf_position h
  simp only [badPosition, Bool.or_eq_false_iff, decide_eq_false_iff_not]
  omega

/-! ### Hooks -/

@[simp] theorem invertBits_invertBits (mask v : Reg32) : invertBits mask (invertBits mask v) = v := by
  simp [invertBits]

theorem undoHooks_append (hs ks : List Hook) (v : Reg32) : undoHooks (hs ++ ks) v = undoHooks ks (undoHooks hs v) := by
  induction hs generalizing v with
  | nil => rfl
  | cons h hs ih => cases h <;> exact ih _

/-- The pre-decode hooks are one exclusive-or with a mask of the register. -/
theorem undoHooks_eq_xor (hs : List Hook) : ∃ mask : Reg32, ∀ v, undoHooks hs v = v ^^^ mask := by
  induction hs with
  | nil => exact ⟨0#32, fun v => by simp [undoHooks]⟩
  | cons h hs ih =>
    obtain ⟨mask, hm⟩ := ih
    cases h with
    | invert m => exact ⟨m ^^^ mask, fun v => by rw [undoHooks, hm, invertBits, BitVec.xor_assoc]⟩
    | parity pos cover odd => exact ⟨mask, fun v => by rw [undoHooks, hm]⟩

end Sys2Proof.Machine
end

