-- ==== Sys2Proof/Tests/Slice0.lean ====
section
/-! SUPPORT. Tests. Expected values are those of 95_test_vectors.md (V1 to V9, programs P1 to P5), of the examples in the rules,
or worked out by hand from the rules; none comes from the model. After them, a witness for the hypotheses of every
statement that has some. -/

namespace Sys2Proof.Tests

open Sys2Proof Sys2Proof.Machine Sys2Proof.Safety

/-! ### The illustrative catalogue of 95_test_vectors.md -/

/-- X1: width 2, codes 0 to 2 valid, code 3 reserved, each code its own class. -/
def tableX1 : EnumDesc where
  width := 2
  exhaustive := false
  rows := [⟨true, 0#8⟩, ⟨true, 1#8⟩, ⟨true, 2#8⟩, ⟨false, 3#8⟩]
  rep := [(0#8, 0#8), (1#8, 1#8), (2#8, 2#8), (3#8, 3#8)]

/-- X2: width 4, exhaustive, the codes 5 to 15 in one class. -/
def tableX2 : EnumDesc where
  width := 4
  exhaustive := true
  rows := [⟨true, 0#8⟩, ⟨true, 1#8⟩, ⟨true, 2#8⟩, ⟨true, 3#8⟩, ⟨true, 4#8⟩] ++ List.replicate 11 ⟨true, 5#8⟩
  rep := [(0#8, 0#8), (1#8, 1#8), (2#8, 2#8), (3#8, 3#8), (4#8, 4#8), (5#8, 5#8)]

/-- XA, register 0x0A. -/
def regXA : RegDesc where
  address := 0x088#12
  len := .l32
  hooks := []
  fields := [
    ⟨"en", 0#5, 1#6, .bool, .raw⟩,
    ⟨"mode", 1#5, 2#6, .enumPartial 1#8, .canon⟩,
    ⟨"lock", 4#5, 4#6, .enumExhaustive 2#8, .canon⟩,
    ⟨"kp", 8#5, 10#6, .scaled 2, .value⟩,
    ⟨"count", 18#5, 8#6, .uint, .raw⟩,
    ⟨"duty_hi", 26#5, 3#6, .splitHigh 5#5 3#5, .raw⟩]

/-- XB, register 0x0B. -/
def regXB : RegDesc where
  address := 0x08A#12
  len := .l32
  hooks := [.invert 0x0000FF00#32, .parity 31#5 0x7FFFFFFF#32 false]
  fields := [
    ⟨"duty_lo", 0#5, 5#6, .splitLow 5#5 3#5, .raw⟩,
    ⟨"inv", 8#5, 8#6, .uint, .raw⟩,
    ⟨"scratch", 16#5, 8#6, .uint, .ignore⟩]

/-- A register of the tests' own with one Parity hook and no Invert, for the round trip of R155. -/
def regXP : RegDesc where
  address := 0x08C#12
  len := .l32
  hooks := [.parity 31#5 0x7FFFFFFF#32 false]
  fields := [⟨"data", 0#5, 8#6, .uint, .raw⟩]

/-- A register of the tests' own whose length class is not L32 (R152, U19). -/
def regXH : RegDesc where
  address := 0x08E#12
  len := .l16
  hooks := []
  fields := [⟨"data", 0#5, 8#6, .uint, .raw⟩]

/-- The parameters of 95_test_vectors.md. -/
def demoConfig : Config :=
  { Config.recommended with
    devAddr := 0x01#7
    enumTable := [(1#8, tableX1), (2#8, tableX2)]
    regTemplate := [(0x0A#8, regXA), (0x0B#8, regXB), (0x0C#8, regXP), (0x0D#8, regXH)] }

/-- A block with those parameters, right after reset. -/
def demo : State := State.constructed demoConfig

/-- The same block in the middle of a computation (V2, V3: crc = F4). -/
def demoF4 : State := demo.setCrc 0xF4#8

/-- The remainder and the outputs after an operation. -/
def after (r : Result) : Option (Byte × Option Response) :=
  match r with
  | .next s => some (s.crc, s.response)
  | .fault _ => none
  | .refused _ => none

/-- The outputs of one operation of the demonstration block. -/
def answers (i : Instr) : Option Response := (after (exec i demo)).bind Prod.snd

/-- The result of a pseudo-operation on the demonstration block. -/
def result {α : Type} (p : Pseudo α) : Except PseudoError α := (p.from demo).1

/-! ### Decoding (R74): each word is written out bit by bit, the last operand first and the code last -/

theorem test_decode_crc_init : decode (bundle (0b00010000#8)) = .ok .crcInit := by decide

/-- R74: 00010001, 00110001, code first. -/
theorem test_decode_crc_feed :
    decode (bundle (0b0011000100010001#16)) = .ok (.crcFeed 0x31#8) := by decide

theorem test_decode_crc_read : decode (bundle (0b00010010#8)) = .ok .crcRead := by decide

/-- R74: 00010011, 11111110, code first. -/
theorem test_decode_crc_check :
    decode (bundle (0b1111111000010011#16)) = .ok (.crcCheck 0xFE#8) := by decide

/-- R74: 00100000, 1, 1, 01, 000010001000, code first. -/
theorem test_decode_hdr_enc :
    decode (bundle (0b000010001000011100100000#24)) = .ok (.hdrEnc 1#1 1#1 0b01#2 0x088#12) := by decide

/-- R74: 00100001, 0, 1, 10, 1010, 0101, 101010111100, code first. -/
theorem test_decode_hdr_encx :
    decode (bundle (0b10101011110001011010101000100001#32)) = .ok (.hdrEncx 0#1 1#1 0b10#2 0xA#4 0x5#4 0xABC#12) := by decide

/-- R74: 00100010, 00110000, 00000001, 11101111, code first. -/
theorem test_decode_hdr_dec :
    decode (bundle (0b11101111000000010011000000100010#32)) = .ok (.hdrDec 0x30#8 0x01#8 0xEF#8) := by decide

/-- R74: 00110000, 01000, 001010, 11110111001000100011001011111101, code first. -/
theorem test_decode_fld_get :
    decode (bundle (0b111101110010001000110010111111010010100100000110000#51)) = .ok (.fldGet 8#5 10#6 0xF72232FD#32) := by decide

/-- R74: 00110001, 11010, 000011, 00000011001000010000010110010101, 00000000000000000000000000000101, code first. -/
theorem test_decode_fld_set :
    decode (bundle (0b00000000000000000000000000000101000000110010000100000101100101010000111101000110001#83)) = .ok (.fldSet 26#5 3#6 0x03210595#32 5#32) := by decide

/-- R74: 00110010, 11111, 10000000000000000000000000000000, code first. -/
theorem test_decode_bit_get :
    decode (bundle (0b100000000000000000000000000000001111100110010#45)) = .ok (.bitGet 31#5 0x80000000#32) := by decide

/-- R74: 00110011, 00011, 11111111111111111111111100000000, 1, code first. -/
theorem test_decode_bit_set :
    decode (bundle (0b1111111111111111111111111000000000001100110011#46)) = .ok (.bitSet 3#5 0xFFFFFF00#32 1#1) := by decide

/-- R74: 01000000, 00000010, 00001111, code first. -/
theorem test_decode_enum_dec :
    decode (bundle (0b000011110000001001000000#24)) = .ok (.enumDec 0x02#8 0x0F#8) := by decide

/-- R74: 01000001, 00000010, 1, 00001001, code first. -/
theorem test_decode_enum_enc :
    decode (bundle (0b0000100110000001001000001#25)) = .ok (.enumEnc 0x02#8 true 0x09#8) := by decide

/-- R74: 01000010, 00000010, 00001111, code first. -/
theorem test_decode_enum_canon :
    decode (bundle (0b000011110000001001000010#24)) = .ok (.enumCanon 0x02#8 0x0F#8) := by decide

/-- R74: 01000011, 00000010, 00000101, code first. -/
theorem test_decode_enum_rep :
    decode (bundle (0b000001010000001001000011#24)) = .ok (.enumRep 0x02#8 0x05#8) := by decide

/-- R74: 01010000, 1000110010, code first. -/
theorem test_decode_scl_dec :
    decode (bundle (0b100011001001010000#18)) = .ok (.sclDec 0x232#10) := by decide

/-- R74: 01010001, 0, 00000101, 01, code first. -/
theorem test_decode_scl_enc :
    decode (bundle (0b0100000101001010001#19)) = .ok (.sclEnc false 0x05#8 1#2) := by decide

/-- R74: 01100000, 00101, 00011, 00000000000000000000000000000101, 00000000000000000000000000000110, code first. -/
theorem test_decode_spl_comb :
    decode (bundle (0b0000000000000000000000000000011000000000000000000000000000000101000110010101100000#82)) = .ok (.splComb 5#5 3#5 0x5#32 0x6#32) := by decide

/-- R74: 01100001, 00101, 00011, 00000000000000000000000010100110, code first. -/
theorem test_decode_spl_split :
    decode (bundle (0b00000000000000000000000010100110000110010101100001#50)) = .ok (.splSplit 5#5 3#5 0xA6#32) := by decide

/-- R74: 01110000, 10, 00000000, 00000000000000000000000100000101, 00000000000000000000001000110010, code first. -/
theorem test_decode_eq_fld :
    decode (bundle (0b0000000000000000000000100011001000000000000000000000000100000101000000001001110000#82)) = .ok (.eqFld .value 0x00#8 0x105#32 0x232#32) := by decide

/-- R74: 01110001, 00001010, 00010111001000010000010110010101, 11110111001000100011001011111101, code first. -/
theorem test_decode_eq_reg :
    decode (bundle (0b11110111001000100011001011111101000101110010000100000101100101010000101001110001#80)) = .ok (.eqReg 0x0A#8 0x17210595#32 0xF72232FD#32) := by decide

/-- R74: 10000000, 00000000000000001111111100000000, 00000000011101110011110000000110, code first. -/
theorem test_decode_post_inv :
    decode (bundle (0b000000000111011100111100000001100000000000000000111111110000000010000000#72)) = .ok (.postInv 0x0000FF00#32 0x00773C06#32) := by decide

/-- R74: 10000001, 11111, 01111111111111111111111111111111, 0, 00000000011101111100001100000110, code first. -/
theorem test_decode_post_par :
    decode (bundle (0b000000000111011111000011000001100011111111111111111111111111111111111110000001#78)) = .ok (.postPar 31#5 0x7FFFFFFF#32 false 0x0077C306#32) := by decide

/-- Program P5, step 3: code 0x14 is unassigned (R77). -/
theorem test_decode_unassigned : decode 0x14#88 = .error (.unassigned 0x14#8) := by decide

theorem test_decode_tableWord :
    decodeTableWord 8 0x12 = some .crcRead ∧ decodeTableWord 8 0x11 = some (.crcFeed 0x00#8) ∧
      decodeTableWord 8 0x14 = none ∧ decodeTableWord 16 0xAB11 = some (.crcFeed 0xAB#8) := by decide

theorem test_policy_codes : policyOfCode 0#2 = .raw ∧ policyOfCode 1#2 = .canon ∧ policyOfCode 2#2 = .value ∧
    policyOfCode 3#2 = .ignore := by decide

/-! ### Well-formedness: an ill-formed term for each check, refused -/

theorem smoke_fldGet_width : Instr.wellFormed (.fldGet 0#5 0#6 0#32) = false := by decide
theorem smoke_fldGet_end : Instr.wellFormed (.fldGet 28#5 5#6 0#32) = false := by decide
theorem smoke_fldSet_position : Instr.wellFormed (.fldSet 1#5 32#6 0#32 0#32) = false := by decide
theorem smoke_fldSet_value : Instr.wellFormed (.fldSet 8#5 10#6 0#32 0x400#32) = false := by decide
theorem smoke_sclEnc_number : Instr.wellFormed (.sclEnc false 0#8 0#2) = false := by decide
theorem smoke_sclEnc_auto : Instr.wellFormed (.sclEnc true 5#8 0#2) = false := by decide
theorem smoke_splComb_widths : Instr.wellFormed (.splComb 16#5 17#5 0#32 0#32) = false := by decide
theorem smoke_splComb_high : Instr.wellFormed (.splComb 5#5 3#5 0b1000#32 0#32) = false := by decide
theorem smoke_splComb_low : Instr.wellFormed (.splComb 5#5 3#5 0#32 0x20#32) = false := by decide
theorem smoke_splSplit_widths : Instr.wellFormed (.splSplit 0#5 3#5 0#32) = false := by decide
theorem smoke_splSplit_value : Instr.wellFormed (.splSplit 5#5 3#5 0x100#32) = false := by decide
theorem smoke_eqFld_left : Instr.wellFormed (.eqFld .value 0#8 0x400#32 0#32) = false := by decide
theorem smoke_eqFld_right : Instr.wellFormed (.eqFld .value 0#8 0#32 0x400#32) = false := by decide
theorem smoke_postPar : Instr.wellFormed (.postPar 31#5 0xFFFFFFFF#32 false 0#32) = false := by decide

theorem smoke_accepted : Instr.wellFormed (.fldGet 0#5 32#6 0#32) = true ∧
    Instr.wellFormed (.fldSet 8#5 10#6 0#32 0x3FF#32) = true ∧ Instr.wellFormed (.sclEnc false 0#8 2#2) = true ∧
    Instr.wellFormed (.splComb 16#5 16#5 0xFFFF#32 0xFFFF#32) = true ∧
    Instr.wellFormed (.postPar 31#5 0x7FFFFFFF#32 false 0#32) = true := by decide

/-! ### The laws of a configuration (R7, R131, R138, R152, R217) -/

theorem test_demo_config : configWf demoConfig = true := by decide
theorem test_recommended_config : configWf Config.recommended = true := by decide
theorem smoke_config_opBits : configWf { demoConfig with opBitRead := 0#1 } = false := by decide
theorem smoke_config_lenCodes : configWf { demoConfig with lenCode64 := 0b01#2 } = false := by decide
theorem smoke_config_tableTwice :
    configWf { demoConfig with enumTable := [(1#8, tableX1), (2#8, tableX2), (1#8, tableX1)] } = false := by decide
theorem smoke_config_registerTwice :
    configWf { demoConfig with regTemplate := [(0x0A#8, regXA), (0x0A#8, regXB)] } = false := by decide
theorem smoke_config_noTable : configWf { demoConfig with enumTable := [(1#8, tableX1)] } = false := by decide
theorem smoke_enum_width : enumWf { tableX1 with width := 9 } = false := by decide
theorem smoke_enum_noWidth : enumWf { tableX1 with width := 0, rows := [⟨true, 0#8⟩] } = false := by decide
theorem smoke_enum_rows : enumWf { tableX1 with rows := tableX1.rows.take 3 } = false := by decide
theorem smoke_enum_exhaustive : enumWf { tableX1 with exhaustive := true } = false := by decide
theorem smoke_enum_noRep : enumWf { tableX1 with rep := [(0#8, 0#8), (1#8, 1#8), (2#8, 2#8)] } = false := by decide
theorem smoke_enum_wrongRep : enumWf { tableX2 with rep := tableX2.rep.map fun p => (p.1, 0#8) } = false := by decide
theorem smoke_enum_reservedRep :
    enumWf { tableX1 with rows := [⟨true, 0#8⟩, ⟨true, 1#8⟩, ⟨true, 2#8⟩, ⟨false, 2#8⟩]
                          rep := [(0#8, 0#8), (1#8, 1#8), (2#8, 3#8)] } = false := by decide
theorem smoke_field_bool : fieldWf demoConfig ⟨"f", 0#5, 2#6, .bool, .raw⟩ = false := by decide
theorem smoke_field_width : fieldWf demoConfig ⟨"f", 0#5, 0#6, .uint, .raw⟩ = false := by decide
theorem smoke_field_end : fieldWf demoConfig ⟨"f", 30#5, 3#6, .uint, .raw⟩ = false := by decide
theorem smoke_field_enumWidth : fieldWf demoConfig ⟨"f", 0#5, 3#6, .enumPartial 1#8, .raw⟩ = false := by decide
theorem smoke_field_enumKind : fieldWf demoConfig ⟨"f", 0#5, 2#6, .enumExhaustive 1#8, .raw⟩ = false := by decide
theorem smoke_field_scaled : fieldWf demoConfig ⟨"f", 0#5, 9#6, .scaled 1, .value⟩ = false := by decide
theorem smoke_field_split : fieldWf demoConfig ⟨"f", 0#5, 3#6, .splitLow 5#5 3#5, .raw⟩ = false := by decide
theorem smoke_field_canon : fieldWf demoConfig ⟨"f", 0#5, 3#6, .uint, .canon⟩ = false := by decide
theorem smoke_field_value : fieldWf demoConfig ⟨"f", 0#5, 3#6, .uint, .value⟩ = false := by decide
theorem smoke_reg_overlap : regWf demoConfig { regXA with fields :=
    [⟨"a", 0#5, 4#6, .uint, .raw⟩, ⟨"b", 3#5, 4#6, .uint, .raw⟩] } = false := by decide
theorem smoke_reg_names : regWf demoConfig { regXA with fields :=
    [⟨"a", 0#5, 4#6, .uint, .raw⟩, ⟨"a", 4#5, 4#6, .uint, .raw⟩] } = false := by decide
theorem smoke_reg_hook : regWf demoConfig { regXA with hooks := [.parity 3#5 0x8#32 true] } = false := by decide

/-! ### The checksum engine (T1, V1 to V3) -/

theorem test_crcStep_table_corners : crcStep 0x07#8 0#8 0x01#8 = 0x07#8 ∧ crcStep 0x07#8 0#8 0x80#8 = 0x89#8 ∧
    crcStep 0x07#8 0#8 0xFF#8 = 0xF3#8 ∧ crcStep 0x07#8 0#8 0x9D#8 = 0xDA#8 := by decide

theorem test_crc_check_value :
    checksum demoConfig [0x31#8, 0x32#8, 0x33#8, 0x34#8, 0x35#8, 0x36#8, 0x37#8, 0x38#8, 0x39#8] = 0xA1#8 := by decide +kernel

theorem test_crcSum_two_ones : result (crcSum [0xFF#8, 0xFF#8]) = .ok 0x71#8 := by decide +kernel

theorem test_crcInit : after (exec .crcInit demoF4) = some (0x00#8, some (.ok .empty)) := by decide
theorem test_crcFeed : after (exec (.crcFeed 0x32#8) (demo.setCrc 0x97#8)) = some (0x72#8, some (.ok .empty)) := by decide
theorem test_crcFeed_last : after (exec (.crcFeed 0xA1#8) demoF4) = some (0xAC#8, some (.ok .empty)) := by decide
theorem test_crcRead : after (exec .crcRead demoF4) = some (0xF4#8, some (.ok (.sum 0xA1#8))) := by decide
theorem test_crcRead_empty : answers .crcRead = some (.ok (.sum 0x55#8)) := by decide
theorem test_crcCheck : after (exec (.crcCheck 0xA1#8) demoF4) = some (0xF4#8, some (.ok (.check true))) := by decide
theorem test_crcCheck_raw : after (exec (.crcCheck 0xF4#8) demoF4) = some (0xF4#8, some (.ok (.check false))) := by decide

/-! ### The header codec (V4) -/

theorem test_hdrEnc : answers (.hdrEnc 1#1 1#1 0b01#2 0x088#12) = some (.ok (.header 0xD0#8 0x00#8 0x88#8)) := by decide
theorem test_hdrEnc_len :
    answers (.hdrEnc 0#1 1#1 0b11#2 0x088#12) = some (.raised (.illegalOperand (.len 0b11#2))) := by decide
theorem test_hdrEnc_page : (after (exec (.hdrEnc 0#1 1#1 0b01#2 0x088#12)
    (State.constructed { demoConfig with pageId := 0x3#4 }))).bind Prod.snd =
      some (.ok (.header 0x50#8 0x30#8 0x88#8)) := by decide
theorem test_hdrEncx :
    answers (.hdrEncx 0#1 1#1 0b10#2 0xA#4 0x5#4 0xABC#12) = some (.ok (.header 0x6A#8 0x5A#8 0xBC#8)) := by decide
theorem test_hdrEncx_high :
    answers (.hdrEncx 1#1 1#1 0b10#2 0xF#4 0xF#4 0xFFF#12) = some (.ok (.header 0xEF#8 0xFF#8 0xFF#8)) := by decide
theorem test_hdrDec : answers (.hdrDec 0x50#8 0x00#8 0x88#8) =
    some (.ok (.fields ⟨0#1, 1#1, 0b01#2, 0#4, 0#4, 0x088#12⟩ true)) := by decide
theorem test_hdrDec_len : answers (.hdrDec 0xFF#8 0xFF#8 0xFF#8) =
    some (.ok (.fields ⟨1#1, 1#1, 0b11#2, 0xF#4, 0xF#4, 0xFFF#12⟩ false)) := by decide

/-! ### Slices (V5) -/

theorem test_fldGet : answers (.fldGet 28#5 4#6 0xA0000000#32) = some (.ok (.field 0x0000000A#32)) := by decide
theorem test_fldGet_end :
    answers (.fldGet 28#5 5#6 0#32) = some (.raised (.illegalOperand (.position 28#5 5#6))) := by decide
theorem test_fldSet : answers (.fldSet 8#5 10#6 0xFFFFFFFF#32 0#32) = some (.ok (.value 0xFFFC00FF#32)) := by decide
theorem test_fldSet_wide :
    answers (.fldSet 8#5 10#6 0#32 0x400#32) = some (.raised (.illegalOperand (.fieldValue 0x400#32))) := by decide
theorem test_bitGet : answers (.bitGet 31#5 0x80000000#32) = some (.ok (.bit 1#1)) := by decide
theorem test_bitGet_low : answers (.bitGet 0#5 0xFFFFFFFE#32) = some (.ok (.bit 0#1)) := by decide
theorem test_bitSet : answers (.bitSet 31#5 0xFFFFFFFF#32 0#1) = some (.ok (.value 0x7FFFFFFF#32)) := by decide
theorem test_bitSet_low : answers (.bitSet 0#5 0#32 1#1) = some (.ok (.value 0x00000001#32)) := by decide

/-! ### Enumerations (V6) -/

theorem test_enumDec : answers (.enumDec 1#8 3#8) = some (.ok (.decoded false 3#8)) := by decide
theorem test_enumDec_wide : answers (.enumDec 1#8 4#8) = some (.raised (.illegalOperand (.code 4#8))) := by decide
theorem test_enumEnc : answers (.enumEnc 1#8 false 3#8) = some (.ok (.code 3#8)) := by decide
theorem test_enumEnc_tag :
    answers (.enumEnc 1#8 true 3#8) = some (.raised (.illegalOperand (.known true))) := by decide
theorem test_enumCanon : answers (.enumCanon 2#8 0xF#8) = some (.ok (.cls 5#8)) := by decide
theorem test_enumCanon_table :
    answers (.enumCanon 0x7F#8 0#8) = some (.raised (.illegalOperand (.table 0x7F#8))) := by decide
theorem test_enumRep : answers (.enumRep 2#8 5#8) = some (.ok (.code 5#8)) := by decide
theorem test_enumRep_class : answers (.enumRep 2#8 6#8) = some (.raised (.illegalOperand (.cls 6#8))) := by decide

/-! ### Scaled magnitudes and split fields (V7) -/

theorem test_sclDec : answers (.sclDec 0x105#10) = some (.ok (.scaled false 5#8 1#2)) := by decide
theorem test_sclDec_auto : answers (.sclDec 0x000#10) = some (.ok (.scaled true 0#8 0#2)) := by decide
theorem test_sclEnc : answers (.sclEnc false 5#8 1#2) = some (.ok (.pattern 0x105#10)) := by decide
theorem test_sclEnc_number :
    answers (.sclEnc false 0#8 0#2) = some (.raised (.illegalOperand (.scaled 0#8 0#2))) := by decide
theorem test_splComb : answers (.splComb 5#5 3#5 0b101#32 0b00110#32) = some (.ok (.logical 0xA6#32)) := by decide
theorem test_splComb_full :
    answers (.splComb 16#5 16#5 0xFFFF#32 0xFFFF#32) = some (.ok (.logical 0xFFFFFFFF#32)) := by decide
theorem test_splSplit : answers (.splSplit 5#5 3#5 0xA6#32) = some (.ok (.parts 0b101#32 0b00110#32)) := by decide
theorem test_splSplit_wide :
    answers (.splSplit 5#5 3#5 0x100#32) = some (.raised (.illegalOperand (.logical 0x100#32))) := by decide

/-! ### Equality and hooks (V8) -/

theorem test_eqFld_value : answers (.eqFld .value 0#8 0x105#32 0x232#32) = some (.ok (.equal true)) := by decide
theorem test_eqFld_canon : answers (.eqFld .canon 2#8 0x4#32 0x5#32) = some (.ok (.equal false)) := by decide
theorem test_eqReg : answers (.eqReg 0x0A#8 0x17210595#32 0xF72232FD#32) = some (.ok (.equal true)) := by decide
theorem test_eqReg_parity : answers (.eqReg 0x0B#8 0x0077C306#32 0x8077C307#32) = some (.ok (.equal false)) := by decide
theorem test_postInv : answers (.postInv 0x0000FF00#32 0x12345678#32) = some (.ok (.value 0x1234A978#32)) := by decide
theorem test_postPar :
    answers (.postPar 31#5 0x7FFFFFFF#32 false 0x80000003#32) = some (.ok (.value 0x00000003#32)) := by decide
theorem test_postPar_odd :
    answers (.postPar 31#5 0x7FFFFFFF#32 true 0x00000007#32) = some (.ok (.value 0x00000007#32)) := by decide

/-! ### Frames and whole registers (V9, P3, P4) -/

theorem test_frmWr : result (frmWr 0x0A4#12 0b01#2 0x12345678#64) =
    .ok [0x50#8, 0x00#8, 0xA4#8, 0x78#8, 0x56#8, 0x34#8, 0x12#8, 0x91#8] := by decide +kernel
theorem test_frmRdcmd : result (frmRdcmd 0x0E4#12 0b01#2) = .ok (0xD0#8, 0x00#8, 0xE4#8) := by decide
theorem test_frmRdchk :
    result (frmRdchk 0x088#12 0b01#2 [0x78#8, 0x56#8, 0x34#8, 0x12#8, 0xFE#8]) = .ok 0x12345678#64 := by decide +kernel
theorem test_frmRdchk_corrupted : result (frmRdchk 0x088#12 0b01#2 [0x78#8, 0x56#8, 0x35#8, 0x12#8, 0xFE#8]) =
    .error (.raised (.checksumMismatch 0xEB#8 0xFE#8)) := by decide +kernel
theorem test_regPack_XA : result (regPack 0x0A#8 0#32 [1#32, 2#32, 9#32, 0x105#32, 0xC8#32, 5#32]) =
    .ok 0x17210595#32 := by decide
theorem test_regPack_XB : result (regPack 0x0B#8 0#32 [6#32, 0x3C#32, 0x77#32]) = .ok 0x0077C306#32 := by decide
theorem test_regUnpack_XB : result (regUnpack 0x0B#8 0x8077C306#32) =
    .ok (0x80773C06#32, [6#32, 0x3C#32, 0x77#32]) := by decide
theorem test_regVerify : result (regVerify 0x0A#8 0x17210595#32 0x17210545#32) =
    .error (.raised (.readbackMismatch 0x17210595#32 0x17210545#32)) := by decide
theorem test_regEncode_XA : result (regEncode 0x0A#8 0#32 [.bool true, .enum (.known 2#8), .enum (.known 9#8),
    .scaled (.num 5#8 1#2), .uint 200#32, .part 0b101#32]) = .ok 0x17210595#32 := by decide
theorem test_writeVerify : result (writeVerify 0x0A#8 0x17210595#32
    ⟨none, none, .inr [0xFD#8, 0x32#8, 0x22#8, 0xF7#8, 0x73#8]⟩) = .ok () := by decide +kernel
theorem test_writeVerify_transport : result (writeVerify 0x0A#8 0x17210595#32 ⟨none, some 7, .inr []⟩) =
    .error (.transport 7) := by decide

/-! ### The machine -/

/-- Reset (R29, R216) and the first operation after it. -/
theorem test_reset : State.reset.crc = 0x00#8 ∧ State.reset.inputs = [] ∧
    after (step (State.reset.withFetchWord 8 0x12)) = some (0x00#8, some (.ok (.sum 0x55#8))) := by decide

/-- Program P5, steps 1 to 4 and 7: the refused requests leave the remainder as it is. -/
theorem test_step_refused_requests :
    after (step ((demo.setCrc 0x97#8).withFetchWord 8 0x14)) = some (0x97#8, some (.raised (.illegalOp 0x14#8))) ∧
    after (step ((demo.setCrc 0x97#8).withFetchWord 24 0x088E20)) =
      some (0x97#8, some (.raised (.illegalOperand (.len 0b11#2)))) := by decide

theorem test_step_reset_event : after (step (demoF4.setInputs [.reset])) = some (0x00#8, none) := by decide

theorem test_step_idle : after (step demoF4) = some (0xF4#8, none) := by decide

/-! ### Witnesses: states and operands that meet the hypotheses of each statement, clause by clause -/

/-- The block with the demonstration catalogue whose next input is given. -/
def demoNext (i : HostInput) : State := demoF4.setInputs [i]

/-- A frame of 14 bytes that ends with its checksum: thirteen zeros and 0x55 (V1: leading zeros are invisible). -/
def longFrame : List Byte := List.replicate 13 0x00#8 ++ [0x55#8]

theorem longFrame_valid : validFrame demoConfig longFrame := ⟨List.replicate 13 0x00#8, by decide +kernel⟩

theorem from_of_result {α : Type} {p : Pseudo α} {x : Except PseudoError α} (h : result p = x) :
    ∃ t, p.from demo = (x, t) := ⟨(p.from demo).2, Prod.ext h rfl⟩

theorem table_X1 : enumTable? demo.cfg 1#8 = some tableX1 := by decide
theorem table_X2 : enumTable? demo.cfg 2#8 = some tableX2 := by decide
theorem no_table : enumTable? demo.cfg 0x7F#8 = none := by decide
theorem register_XA : regTemplate? demo.cfg 0x0A#8 = some regXA := by decide
theorem register_XP : regTemplate? demo.cfg 0x0C#8 = some regXP := by decide
theorem register_XB : regTemplate? demo.cfg 0x0B#8 = some regXB := by decide
theorem register_XH : regTemplate? demo.cfg 0x0D#8 = some regXH := by decide
theorem no_register : regTemplate? demo.cfg 0x7F#8 = none := by decide
theorem inCodec_XA (a b : Reg32) : inCodec demo.cfg (.eqReg 0x0A#8 a b) := by
  intro r a' b' d h hd
  cases h
  rw [register_XA] at hd
  cases hd
  rfl
theorem demo_wf : configWf demo.cfg = true := test_demo_config
theorem demo_lengths : standardLengthCodes demo.cfg := ⟨rfl, rfl, rfl⟩
theorem demo_unassigned : ¬ ∃ k, (0b11#2 : BitVec 2) = lenCode demo.cfg k := by
  rintro ⟨k, h⟩
  cases k <;> exact absurd h (by decide)

theorem witness_CrcInitClearsTheRemainder :
    (∃ t u, exec .crcInit demoF4 = .next t ∧ exec .crcInit t = .next u) ∧
      ∃ t, exec .crcInit demoF4.resetEvent = .next t :=
  ⟨⟨_, _, rfl, rfl⟩, _, rfl⟩

theorem witness_CrcFeedAdvancesTheRemainder :
    (demo.crc = 0x00#8 ∧ ∃ t, exec (.crcFeed 0x00#8) demo = .next t) ∧
      ∃ t, exec (.crcFeed demoF4.crc) demoF4 = .next t :=
  ⟨⟨rfl, _, rfl⟩, _, rfl⟩

theorem witness_CrcIsLinear : ([0x31#8, 0x32#8] : List Byte).length = ([0xFF#8, 0x00#8] : List Byte).length := rfl

theorem witness_OneOrTwoFlippedBitsAreDetected : demoConfig.crcPoly = 0x07#8 ∧ longFrame.length ≤ 14 ∧
    validFrame demoConfig longFrame ∧ 111 < 8 * longFrame.length ∧ 0 < 111 :=
  ⟨rfl, by decide, longFrame_valid, by decide, by decide⟩

theorem witness_OddErrorsAreDetected : demoConfig.crcPoly = 0x07#8 ∧ validFrame demoConfig [0x01#8, 0x52#8] ∧
    validFrame demoConfig [0x80#8, 0xDC#8] :=
  ⟨rfl, ⟨[0x01#8], by decide⟩, ⟨[0x80#8], by decide⟩⟩

theorem witness_CrcReadGivesTheChecksum : ∃ t u, exec .crcRead demoF4 = .next t ∧ exec .crcRead t = .next u :=
  ⟨_, _, rfl, rfl⟩

theorem witness_EncodersPackTheHeader : standardLengthCodes demo.cfg ∧ (0b11#2 : BitVec 2) = 0b11#2 ∧
    (0b10#2 : BitVec 2) ≠ 0b11#2 ∧ (0b00#2 : BitVec 2) ≠ 0b11#2 :=
  ⟨demo_lengths, rfl, by decide, by decide⟩

theorem witness_EncodersAcceptExactlyTheAssignedLengths :
    (∃ k, (0b10#2 : BitVec 2) = lenCode demo.cfg k) ∧ ¬ ∃ k, (0b11#2 : BitVec 2) = lenCode demo.cfg k :=
  ⟨⟨.l64, rfl⟩, demo_unassigned⟩

theorem witness_HdrDecReadsTheFields : standardLengthCodes demo.cfg := demo_lengths

theorem witness_HeaderCodecRoundTrips : standardLengthCodes demo.cfg ∧
    (⟨1#1, 1#1, 0b10#2, 0xF#4, 0xF#4, 0xFFF#12⟩ : CommandHeader).len ≠ 0b11#2 ∧
    (0xEF#8 : Byte).extractLsb' 4 2 ≠ 0b11#2 :=
  ⟨demo_lengths, by decide, by decide⟩

/-- Width 0; a field that ends one above bit 31; the whole value; bit 31. -/
theorem witness_FldGetSlices :
    ((0#6 : BitVec 6) = 0#6) ∧ (1#5 : BitVec 5).toNat + (32#6 : BitVec 6).toNat > 32 ∧
    ((32#6 : BitVec 6) ≠ 0#6 ∧ (0#5 : BitVec 5).toNat + (32#6 : BitVec 6).toNat ≤ 32) ∧
    ((1#6 : BitVec 6) ≠ 0#6 ∧ (31#5 : BitVec 5).toNat + (1#6 : BitVec 6).toNat ≤ 32) := by decide

theorem witness_FldSetReplacesTheField :
    (0#6 : BitVec 6) = 0#6 ∧ (8#5 : BitVec 5).toNat + (25#6 : BitVec 6).toNat > 32 ∧
    ((10#6 : BitVec 6) ≠ 0#6 ∧ (8#5 : BitVec 5).toNat + (10#6 : BitVec 6).toNat ≤ 32 ∧
      2 ^ (10#6 : BitVec 6).toNat ≤ (0x400#32 : Reg32).toNat ∧
      (0x3FF#32 : Reg32).toNat < 2 ^ (10#6 : BitVec 6).toNat) ∧
    ((32#6 : BitVec 6) ≠ 0#6 ∧ (0#5 : BitVec 5).toNat + (32#6 : BitVec 6).toNat ≤ 32 ∧
      (0xFFFFFFFF#32 : Reg32).toNat < 2 ^ (32#6 : BitVec 6).toNat) := by decide

theorem witness_SliceLaws : 1 ≤ 31 ∧ 0 + 31 ≤ 32 ∧ (0x7FFFFFFF#32 : Reg32).toNat < 2 ^ 31 ∧ 1 ≤ 1 ∧ 31 + 1 ≤ 32 ∧
    (0 + 31 ≤ 31 ∨ 31 + 1 ≤ 0) ∧ (1#32 : Reg32).toNat < 2 ^ 1 := by decide

theorem witness_EnumDecTagsEveryCode : enumTable? demo.cfg 0x7F#8 = none ∧
    (enumTable? demo.cfg 1#8 = some tableX1 ∧ 2 ^ tableX1.width ≤ (4#8 : Byte).toNat ∧
      (3#8 : Byte).toNat < 2 ^ tableX1.width) ∧
    (enumTable? demo.cfg 2#8 = some tableX2 ∧ configWf demo.cfg = true ∧ tableX2.exhaustive = true ∧
      (15#8 : Byte).toNat < 2 ^ tableX2.width) :=
  ⟨no_table, ⟨table_X1, by decide, by decide⟩, table_X2, demo_wf, rfl, by decide⟩

theorem witness_EnumEncUndoesEnumDec : enumTable? demo.cfg 0x7F#8 = none ∧ enumTable? demo.cfg 1#8 = some tableX1 ∧
    2 ^ tableX1.width ≤ (4#8 : Byte).toNat ∧
    ((3#8 : Byte).toNat < 2 ^ tableX1.width ∧ true ≠ enumValid tableX1 3#8 ∧ false = enumValid tableX1 3#8) :=
  ⟨no_table, table_X1, by decide, by decide, by decide, by decide⟩

theorem witness_EnumCanonGivesTheClass : enumTable? demo.cfg 0x7F#8 = none ∧ enumTable? demo.cfg 2#8 = some tableX2 ∧
    2 ^ tableX2.width ≤ (16#8 : Byte).toNat ∧ (15#8 : Byte).toNat < 2 ^ tableX2.width :=
  ⟨no_table, table_X2, by decide, by decide⟩

theorem no_class_six : ∀ n < 2 ^ tableX2.width, enumClass tableX2 (BitVec.ofNat 8 n) ≠ 6#8 := by decide

theorem witness_EnumRepIsARepresentative : enumTable? demo.cfg 0x7F#8 = none ∧ enumTable? demo.cfg 2#8 = some tableX2 ∧
    (¬ ∃ code : Byte, code.toNat < 2 ^ tableX2.width ∧ enumClass tableX2 code = 6#8) ∧
    (∃ code : Byte, code.toNat < 2 ^ tableX2.width ∧ enumClass tableX2 code = 5#8) ∧ configWf demo.cfg = true := by
  refine ⟨no_table, table_X2, ?_, ⟨15#8, by decide⟩, demo_wf⟩
  rintro ⟨code, h, hc⟩
  exact no_class_six code.toNat h (by rw [BitVec.ofNat_toNat, BitVec.setWidth_eq]; exact hc)

theorem witness_WellFormedTablesAreTotal : configWf demoConfig = true ∧
    enumTable? demoConfig 2#8 = some tableX2 ∧ (15#8 : Byte).toNat < 2 ^ tableX2.width ∧
    enumValid tableX2 15#8 = true :=
  ⟨demo_wf, table_X2, by decide, by decide⟩

theorem witness_WellFormedRegistersKeepTheirLaws : configWf demoConfig = true ∧
    regTemplate? demoConfig 0x0A#8 = some regXA ∧ (regXA.fields.map FieldDesc.kind) =
      [.bool, .enumPartial 1#8, .enumExhaustive 2#8, .scaled 2, .uint, .splitHigh 5#5 3#5] ∧
    regTemplate? demoConfig 0x0B#8 = some regXB ∧ .parity 31#5 0x7FFFFFFF#32 false ∈ regXB.hooks :=
  ⟨demo_wf, register_XA, rfl, by decide, by decide⟩

theorem witness_SclDecSplitsThePattern : demo.cfg.sclExpHigh = true := rfl

theorem witness_SclEncBuildsThePattern : demo.cfg.sclExpHigh = true ∧
    ((5#8 : Byte) ≠ 0#8 ∨ (0#2 : BitVec 2) ≠ 0#2) ∧ ((0#8 : Byte) ≠ 0#8 ∨ (2#2 : BitVec 2) ≠ 0#2) ∧
    ∃ t, exec (.sclEnc false 5#8 1#2) demo = .next t ∧ t.response = some (.ok (.pattern 0x105#10)) :=
  ⟨rfl, by decide, by decide, _, rfl, by decide⟩

theorem witness_SplitOperationsJoinAndCut :
    (0#5 : BitVec 5) = 0#5 ∧ (16#5 : BitVec 5).toNat + (17#5 : BitVec 5).toNat > 32 ∧
    ((16#5 : BitVec 5) ≠ 0#5 ∧ (16#5 : BitVec 5).toNat + (16#5 : BitVec 5).toNat ≤ 32 ∧
      2 ^ (16#5 : BitVec 5).toNat ≤ (0x10000#32 : Reg32).toNat ∧
      (0xFFFF#32 : Reg32).toNat < 2 ^ (16#5 : BitVec 5).toNat ∧
      (0xFFFFFFFF#32 : Reg32).toNat < 2 ^ ((16#5 : BitVec 5).toNat + (16#5 : BitVec 5).toNat)) ∧
    ((5#5 : BitVec 5) ≠ 0#5 ∧ (3#5 : BitVec 5) ≠ 0#5 ∧
      2 ^ ((5#5 : BitVec 5).toNat + (3#5 : BitVec 5).toNat) ≤ (0x100#32 : Reg32).toNat) := by decide

theorem witness_SplitLaws : (31#5 : BitVec 5) ≠ 0#5 ∧ (1#5 : BitVec 5) ≠ 0#5 ∧
    (31#5 : BitVec 5).toNat + (1#5 : BitVec 5).toNat ≤ 32 ∧
    (0xFFFFFFFF#32 : Reg32).toNat < 2 ^ ((31#5 : BitVec 5).toNat + (1#5 : BitVec 5).toNat) ∧
    (1#32 : Reg32).toNat < 2 ^ (1#5 : BitVec 5).toNat ∧
    (0x7FFFFFFF#32 : Reg32).toNat < 2 ^ (31#5 : BitVec 5).toNat := by decide

theorem witness_EqFldComparesUnderItsPolicy :
    (enumTable? demo.cfg 0x7F#8 = none ∧ enumTable? demo.cfg 2#8 = some tableX2 ∧
      2 ^ tableX2.width ≤ (0x10#32 : Reg32).toNat ∧ (0xF#32 : Reg32).toNat < 2 ^ tableX2.width) ∧
    (2 ^ 10 ≤ (0x400#32 : Reg32).toNat ∧ demo.cfg.sclExpHigh = true ∧ (0x3FF#32 : Reg32).toNat < 2 ^ 10 ∧
      (0x000#32 : Reg32) = 0#32 ∧ (0x105#32 : Reg32) ≠ 0#32 ∧ (0x232#32 : Reg32) ≠ 0#32) ∧
    (exec (.eqFld .value 0#8 0x105#32 0x232#32) demo = .next (demo.answer (.equal true)) ∧
      exec (.eqFld .value 0#8 0x232#32 0x105#32) demo = .next (demo.answer (.equal true))) :=
  ⟨⟨no_table, table_X2, by decide, by decide⟩, by decide, rfl, rfl⟩

theorem witness_EqFldValueComparesTheNumbers :
    (0x3FF#32 : Reg32).toNat < 2 ^ 10 ∧ (0x000#32 : Reg32).toNat < 2 ^ 10 := by decide

theorem witness_EqRegComparesFieldByField : configWf demo.cfg = true ∧ regTemplate? demo.cfg 0x7F#8 = none ∧
    regTemplate? demo.cfg 0x0A#8 = some regXA ∧ regXA.len = .l32 ∧
    ∀ k < 32, (∃ F ∈ regXA.fields, F.policy ≠ .ignore ∧ F.lsb.toNat ≤ k ∧ k < F.lsb.toNat + F.width.toNat) →
      (0x00000008#32 : Reg32).getLsbD k = (0xE0000000#32 : Reg32).getLsbD k :=
  ⟨demo_wf, no_register, register_XA, rfl, by decide⟩

theorem witness_HooksInvertAndWriteParity : (0x7FFFFFFF#32 : Reg32).getLsbD (31#5 : BitVec 5).toNat = false ∧
    (0xFFFFFFFF#32 : Reg32).getLsbD (31#5 : BitVec 5).toNat = true := by decide

theorem witness_RegUnpackIsTotal : configWf demo.cfg = true ∧ regTemplate? demo.cfg 0x0A#8 = some regXA ∧
    regXA.len = .l32 :=
  ⟨demo_wf, register_XA, rfl⟩

/-- The largest pattern of the first field; the least one that does not fit the second. -/
theorem witness_RegPackWritesEveryField : configWf demo.cfg = true ∧ regTemplate? demo.cfg 0x7F#8 = none ∧
    regTemplate? demo.cfg 0x0A#8 = some regXA ∧ regXA.len = .l32 ∧
    (([1#32, 2#32, 9#32, 0x105#32, 0xC8#32, 5#32] : List Reg32).length = regXA.fields.length ∧
      ∀ p ∈ regXA.fields.zip [1#32, 2#32, 9#32, 0x105#32, 0xC8#32, 5#32], p.2.toNat < 2 ^ p.1.width.toNat) ∧
    (∃ pre F f post, regXA.fields.zip [1#32, 4#32, 9#32, 0x105#32, 0xC8#32, 5#32] = pre ++ (F, f) :: post ∧
      (∀ p ∈ pre, p.2.toNat < 2 ^ p.1.width.toNat) ∧ 2 ^ F.width.toNat ≤ f.toNat) :=
  ⟨demo_wf, no_register, register_XA, rfl, by decide,
    [(⟨"en", 0#5, 1#6, .bool, .raw⟩, 1#32)], ⟨"mode", 1#5, 2#6, .enumPartial 1#8, .canon⟩, 4#32, _, rfl, by decide,
    by decide⟩

theorem witness_PackUndoesUnpack : configWf demo.cfg = true ∧ regTemplate? demo.cfg 0x0A#8 = some regXA ∧
    regXA.len = .l32 ∧ noParity regXA :=
  ⟨demo_wf, register_XA, rfl, by intro h hh; cases hh⟩

/-- A register with an Invert hook is among those without a Parity hook. -/
theorem witness_noParity_invert : noParity { regXA with hooks := [.invert 0x0000FF00#32] } := by
  intro h hh
  exact ⟨0x0000FF00#32, by simpa using hh⟩

/-- XB has an Invert hook before its Parity hook (program P4), XP has a Parity hook alone. -/
theorem witness_ParityRoundTripNeedsTheParity : configWf demo.cfg = true ∧
    (regTemplate? demo.cfg 0x0B#8 = some regXB ∧ regXB.len = .l32 ∧
      regXB.hooks = [.invert 0x0000FF00#32] ++ .parity 31#5 0x7FFFFFFF#32 false :: [] ∧
      ∀ h ∈ ([.invert 0x0000FF00#32] ++ [] : List Hook), ∃ mask, h = .invert mask) ∧
    (regTemplate? demo.cfg 0x0C#8 = some regXP ∧ regXP.len = .l32 ∧
      regXP.hooks = [] ++ .parity 31#5 0x7FFFFFFF#32 false :: []) :=
  ⟨demo_wf, ⟨register_XB, rfl, rfl, by intro h hh; exact ⟨0x0000FF00#32, by simpa using hh⟩⟩, register_XP, rfl, rfl⟩

theorem witness_EncodeUndoesDecode : configWf demo.cfg = true ∧ regTemplate? demo.cfg 0x0A#8 = some regXA ∧
    regXA.len = .l32 ∧ noParity regXA := witness_PackUndoesUnpack

theorem witness_BytesOfAFrame : (0xFFFF#64 : BitVec 64).toNat < 2 ^ (8 * nbytes .l16) ∧
    (0xFFFFFFFFFFFFFFFF#64 : BitVec 64).toNat < 2 ^ (8 * nbytes .l64) ∧
    ([0xEF#8, 0xBE#8] : List Byte).length = nbytes .l16 ∧ 7 < nbytes .l64 := by decide

theorem witness_WriteFramesAndReadCommands : configWf demo.cfg = true ∧
    ¬ ∃ k, (0b11#2 : BitVec 2) = lenCode demo.cfg k :=
  ⟨demo_wf, demo_unassigned⟩

theorem witness_FrmRdchkChecksTheReceivedFrame : configWf demo.cfg = true ∧
    ([0x78#8, 0x56#8, 0x34#8, 0x12#8] : List Byte).length = nbytes .l32 ∧
    (0xFE#8 : Byte) = crcRaw demo.cfg.crcPoly ([addrByte demo.cfg 0#1, 0xD0#8, 0x00#8, 0x88#8, addrByte demo.cfg 1#1]
      ++ [0x78#8, 0x56#8, 0x34#8, 0x12#8]) ^^^ demo.cfg.crcXorOut ∧
    (0xFF#8 : Byte) ≠ crcRaw demo.cfg.crcPoly ([addrByte demo.cfg 0#1, 0xD0#8, 0x00#8, 0x88#8, addrByte demo.cfg 1#1]
      ++ [0x78#8, 0x56#8, 0x34#8, 0x12#8]) ^^^ demo.cfg.crcXorOut ∧
    ¬ ∃ k, (0b11#2 : BitVec 2) = lenCode demo.cfg k :=
  ⟨demo_wf, by decide, by decide +kernel, by decide +kernel, demo_unassigned⟩

theorem witness_FrmRdchkDetectsOneOrTwoFlippedBits : demo.cfg.crcPoly = 0x07#8 ∧
    (∃ v t, (frmRdchk 0x088#12 0b01#2 [0x78#8, 0x56#8, 0x34#8, 0x12#8, 0xFE#8]).from demo = (.ok v, t)) ∧
    0 < 39 ∧ 39 < 8 * ([0x78#8, 0x56#8, 0x34#8, 0x12#8, 0xFE#8] : List Byte).length :=
  ⟨rfl, ⟨0x12345678#64, from_of_result test_frmRdchk⟩, by decide, by decide⟩

theorem witness_SplitPhaseReadsAgree : configWf demo.cfg = true ∧
    ([0x78#8, 0x56#8, 0x34#8, 0x12#8] : List Byte).length = nbytes .l32 ∧
    ∀ i ∈ ([.eqReg 0x0A#8 0#32 0#32, .crcRead] : List Instr),
      inCodec demo.cfg i ∧ i ≠ .crcInit ∧ ∀ b, i ≠ .crcFeed b := by
  refine ⟨demo_wf, by decide, ?_⟩
  intro i hi
  simp only [List.mem_cons, List.not_mem_nil, or_false] at hi
  rcases hi with rfl | rfl
  · exact ⟨inCodec_XA 0#32 0#32, by decide, fun b h => by cases h⟩
  · exact ⟨(fun r a b d h => by cases h), by decide, fun b h => by cases h⟩

theorem witness_RegVerifyFollowsEqReg :
    exec (.eqReg 0x0A#8 0x17210595#32 0xF72232FD#32) demo = .next (demo.answer (.equal true)) ∧
    exec (.eqReg 0x0A#8 0x17210595#32 0x17210545#32) demo = .next (demo.answer (.equal false)) ∧
    regTemplate? demo.cfg 0x7F#8 = none :=
  ⟨rfl, rfl, no_register⟩

/-- A failure of each bus call; the readbacks F72232FD, which EQ.REG finds equal, and 17210545, which it does not (program P3);
a wrong and a right trailing byte of the first (V9: FD 32 22 F7 73); and a write-verify that ends with ReadbackMismatch
(its trailing byte is that of the context 02 D0 00 88 03 45 05 21 17). -/
theorem witness_WriteVerifyReportsTheFirstError : configWf demo.cfg = true ∧
    regTemplate? demo.cfg 0x0A#8 = some regXA ∧ regXA.len = .l32 ∧
    ((⟨some 1, none, .inr []⟩ : BusReplies).write = some 1 ∧ (⟨none, some 2, .inr []⟩ : BusReplies).command = some 2 ∧
      (⟨none, none, .inl 3⟩ : BusReplies).read = .inl 3) ∧
    (([0xFD#8, 0x32#8, 0x22#8, 0xF7#8] : List Byte).length = 4 ∧
      exec (.eqReg 0x0A#8 0x17210595#32 (BitVec.ofNat 32 (leValue [0xFD#8, 0x32#8, 0x22#8, 0xF7#8]))) demo =
        .next (demo.answer (.equal true)) ∧
      exec (.eqReg 0x0A#8 0x17210595#32 (BitVec.ofNat 32 (leValue [0x45#8, 0x05#8, 0x21#8, 0x17#8]))) demo =
        .next (demo.answer (.equal false))) ∧
    ((0x73#8 : Byte) = crcRaw demo.cfg.crcPoly ([addrByte demo.cfg 0#1, 0xD0#8, 0x00#8, 0x88#8, addrByte demo.cfg 1#1]
        ++ [0xFD#8, 0x32#8, 0x22#8, 0xF7#8]) ^^^ demo.cfg.crcXorOut ∧
      (0x72#8 : Byte) ≠ crcRaw demo.cfg.crcPoly ([addrByte demo.cfg 0#1, 0xD0#8, 0x00#8, 0x88#8, addrByte demo.cfg 1#1]
        ++ [0xFD#8, 0x32#8, 0x22#8, 0xF7#8]) ^^^ demo.cfg.crcXorOut) ∧
    (∃ sum t, (writeVerify 0x0A#8 0x17210595#32 ⟨none, none, .inr [0x45#8, 0x05#8, 0x21#8, 0x17#8, sum]⟩).from demo =
      (.error (.raised (.readbackMismatch 0x17210595#32 0x17210545#32)), t)) :=
  ⟨demo_wf, register_XA, rfl, ⟨rfl, rfl, rfl⟩, ⟨rfl, rfl, rfl⟩, ⟨by decide +kernel, by decide +kernel⟩,
    0x3D#8, from_of_result (by decide +kernel)⟩

/-- A register that is not L32, a frame one byte short and one byte long, and lists one longer than the fields. -/
theorem witness_EveryOperationCompletes : inCodec demo.cfg (.eqReg 0x0A#8 0#32 0#32) ∧
    (regTemplate? demo.cfg 0x0D#8 = some regXH ∧ regXH.len ≠ .l32) ∧ configWf demo.cfg = true ∧
    ([0#8, 0#8, 0#8, 0#8] : List Byte).length ≠ nbytes .l32 + 1 ∧
    ([0#8, 0#8, 0#8, 0#8, 0#8, 0#8] : List Byte).length ≠ nbytes .l32 + 1 ∧
    ([0#8, 0#8, 0#8] : List Byte).length ≠ nbytes .l32 ∧
    (regTemplate? demo.cfg 0x0B#8 = some regXB ∧ regXB.len = .l32 ∧
      ([0#32, 0#32, 0#32, 0#32] : List Reg32).length ≠ regXB.fields.length ∧
      ([.uint 0#32] : List TypedValue).length ≠ regXB.fields.length) :=
  ⟨inCodec_XA 0#32 0#32, ⟨register_XH, by decide⟩, demo_wf, by decide, by decide, by decide, register_XB, rfl, by decide,
    by decide⟩

theorem witness_OnlyTheChecksumEngineTouchesCrc :
    (∃ t, exec (.crcFeed 0x32#8) demoF4 = .next t ∧ t.crc ≠ demoF4.crc) ∧
    crcUse (.eqReg 0x0A#8 0#32 0#32) = .none ∧ ∃ t, exec (.eqReg 0x0A#8 0#32 0#32) demoF4 = .next t :=
  ⟨⟨_, rfl, by decide⟩, rfl, _, rfl⟩

theorem witness_StatusCodesByOperation :
    (∃ t a, exec (.hdrDec 0x30#8 0x00#8 0x00#8) demo = .next t ∧ t.response = some a) ∧
    (∀ i, decode 0x12#88 = .ok i → inCodec demo.cfg i) ∧ ∀ i, decode 0x14#88 = .ok i → inCodec demo.cfg i := by
  refine ⟨⟨_, _, rfl, rfl⟩, ?_, ?_⟩
  · intro i h
    rw [show decode 0x12#88 = .ok .crcRead by decide] at h
    cases h
    exact fun r a b d h => by cases h
  · intro i h
    rw [test_decode_unassigned] at h
    cases h

theorem witness_IllFormedOperandsAreRefused : Instr.wellFormed (.splSplit 5#5 3#5 0x100#32) = false ∧
    Instr.wellFormed (.enumDec 1#8 4#8) = true ∧
    exec (.enumDec 1#8 4#8) demo = .next (demo.raise (.illegalOperand (.code 4#8))) :=
  ⟨by decide, rfl, rfl⟩

theorem witness_ResetClearsTheRemainder : configWf (demoNext .reset).cfg = true ∧
    (demoNext .reset).inputs = .reset :: [] ∧ ∃ t, exec .crcInit (demoNext .reset) = .next t :=
  ⟨demo_wf, rfl, _, rfl⟩

theorem witness_InvariantHoldsAtReset : configWf demoConfig = true := demo_wf

theorem witness_EveryStepKeepsTheInvariant : Inv (demoNext (.command 0x14#88)) ∧
    ∃ t, step (demoNext (.command 0x14#88)) = .next t :=
  ⟨⟨demo_wf, trivial⟩, _, by rw [step, if_pos (show configWf (demoNext (.command 0x14#88)).cfg = true from demo_wf)]; rfl⟩

theorem witness_StepPerformsTheDecodedOperation :
    (configWf (demoNext (.command 0x3111#88)).cfg = true ∧
      (demoNext (.command 0x3111#88)).inputs = .command 0x3111#88 :: [] ∧
      decode 0x3111#88 = .ok (.crcFeed 0x31#8)) ∧
    (configWf demo.cfg = true ∧ demo.inputs = []) ∧
    configWf (State.constructed { demoConfig with opBitRead := 0#1 }).cfg = false :=
  ⟨⟨demo_wf, rfl, by decide⟩, ⟨demo_wf, rfl⟩, smoke_config_opBits⟩

theorem witness_UnassignedCodesEndWithIllegalOp : configWf (demoNext (.command 0x14#88)).cfg = true ∧
    (demoNext (.command 0x14#88)).inputs = .command 0x14#88 :: [] ∧
    (0x14#88 : CmdWord).extractLsb' 0 8 ∉ ([0x10#8, 0x11#8, 0x12#8, 0x13#8] : List Byte) ∧
    decode 0x14#88 = .error (.unassigned 0x14#8) ∧ (0x3111#88 : CmdWord).extractLsb' 0 8 = 0x11#8 :=
  ⟨demo_wf, rfl, by decide, by decide, by decide⟩

theorem witness_DisciplinedRunsForgetTheOldRemainder :
    admits true [.crcInit, .crcFeed 0x31#8, .eqReg 0x0A#8 0#32 0#32, .crcRead] = true ∧
    admits true [.crcFeed 0x31#8] = false ∧
    ∀ i ∈ ([.crcInit, .crcFeed 0x31#8, .eqReg 0x0A#8 0#32 0#32, .crcRead] : List Instr), inCodec demo.cfg i := by
  refine ⟨by decide, by decide, ?_⟩
  intro i hi
  simp only [List.mem_cons, List.not_mem_nil, or_false] at hi
  rcases hi with rfl | rfl | rfl | rfl
  · exact fun r a b d h => by cases h
  · exact fun r a b d h => by cases h
  · exact inCodec_XA 0#32 0#32
  · exact fun r a b d h => by cases h

theorem witness_CrcDependsOnTheBytesSinceInit :
    (demo.setCrc 0x72#8).crc = crcRaw (demo.setCrc 0x72#8).cfg.crcPoly [0x31#8, 0x32#8] ∧
    ∀ i ∈ ([.eqReg 0x0A#8 0#32 0#32] : List Instr), inCodec (demo.setCrc 0x72#8).cfg i := by
  refine ⟨by decide +kernel, ?_⟩
  intro i hi
  rw [List.mem_singleton.mp hi]
  exact inCodec_XA 0#32 0#32

theorem witness_SteppingTheCommandsPerformsTheRun :
    configWf (demo.setInputs [.command (encode .crcInit), .command (encode (.crcFeed 0x31#8))]).cfg = true ∧
    (demo.setInputs [.command (encode .crcInit), .command (encode (.crcFeed 0x31#8))]).inputs =
      [.crcInit, .crcFeed 0x31#8].map (fun i => .command (encode i)) ∧
    ∀ i ∈ ([.crcInit, .crcFeed 0x31#8] : List Instr), inCodec demo.cfg i := by
  refine ⟨demo_wf, rfl, ?_⟩
  intro i hi
  simp only [List.mem_cons, List.not_mem_nil, or_false] at hi
  rcases hi with rfl | rfl <;> exact fun r a b d h => by cases h

end Sys2Proof.Tests
end

section
/-! SUPPORT. Who touches `crc` (R20 of 10_state.md): an operation the block performs writes `crc` as `crcAfter` says and then replies,
and outside the checksum engine the reply is the same whatever `crc` holds. -/

namespace Sys2Proof.Machine

open Sys2Proof.Safety

/-- `crc` after an operation: CRC.INIT and CRC.FEED write it (R92, R93), every other operation keeps it (R20). -/
def crcAfter (i : Instr) (s : State) : Byte :=
  match i with
  | .crcInit => crcInitial
  | .crcFeed b => crcStep s.cfg.crcPoly s.crc b
  | _ => s.crc

/-- An operation that changes `crc` is one of the two that write it. -/
theorem crcAfter_ne {i : Instr} {s : State} (h : crcAfter i s ≠ s.crc) : i = .crcInit ∨ ∃ b, i = .crcFeed b := by
  cases i with
  | crcInit => exact .inl rfl
  | crcFeed b => exact .inr ⟨b, rfl⟩
  | _ => exact absurd rfl h

/-- What is written to `crc` does not depend on the final exclusive-or. -/
theorem crcAfter_setXorOut (i : Instr) (s : State) (x : Byte) :
    crcAfter i { s with cfg := { s.cfg with crcXorOut := x } } = crcAfter i s := by
  cases i <;> rfl

/-! ### Replies -/

/-- A reply writes the outputs alone, so it keeps `crc`. -/
theorem reply_crc {s t : State} {x : Except BadOperand Results} (h : reply s x = .next t) : t.crc = s.crc := by
  obtain ⟨r, -, rfl⟩ | ⟨o, -, rfl⟩ := reply_cases h <;> rfl

/-- The same reply with another `crc` leaves the same state but for that `crc`. -/
theorem reply_setCrc {s t : State} {x : Except BadOperand Results} (h : reply s x = .next t) (v : Byte) :
    reply (s.setCrc v) x = .next (t.setCrc v) := by
  obtain ⟨r, rfl, rfl⟩ | ⟨o, rfl, rfl⟩ := reply_cases h <;> rfl

/-- A reply always answers. -/
theorem reply_next (s : State) (x : Except BadOperand Results) : ∃ t, reply s x = .next t := by
  cases x with
  | ok r => exact ⟨_, reply_ok s r⟩
  | error o => exact ⟨_, reply_error s o⟩

/-! ### What an operation does to `crc` -/

/-- EQ.REG stays inside the field codec exactly when its register is not outside it. -/
theorem inCodec_eqReg {c : Config} {r : Byte} {a b : Reg32} :
    inCodec c (.eqReg r a b) ↔ outsideCodec c r = false := by
  rw [← Bool.not_eq_true, outsideCodec_iff]
  constructor
  · rintro hi ⟨d, hd, hlen⟩
    exact hlen (hi r a b d rfl hd)
  · rintro hout _ _ _ d ⟨⟩ hd
    by_contra hlen
    exact hout ⟨d, hd, hlen⟩

/-- An operation that answers is none that the field codec refuses. -/
theorem inCodec_of_exec_next {i : Instr} {s t : State} (h : exec i s = .next t) : inCodec s.cfg i := by
  cases i with
  | eqReg r a b =>
    obtain ⟨-, href⟩ | ⟨hin, -⟩ := execEqReg_cases r a b s
    · exact absurd (h.symm.trans href) nofun
    · exact inCodec_eqReg.mpr hin
  | _ => exact nofun

/-- An operation outside the checksum engine gives one reply, whatever `crc` is: it does not read it (R20). -/
theorem exec_outsideEngine {i : Instr} {s : State} (hcrc : crcUse i = .none) (hi : inCodec s.cfg i) :
    ∃ x, exec i s = reply s x ∧ ∀ v, exec i (s.setCrc v) = reply (s.setCrc v) x := by
  cases i with
  | crcInit | crcFeed | crcRead | crcCheck => cases hcrc
  | hdrDec | bitGet | bitSet | sclDec | postInv => exact ⟨.ok _, rfl, fun _ => rfl⟩
  | eqReg r a b =>
    have hin : ∀ v, execEqReg r a b (s.setCrc v) =
        reply (s.setCrc v) ((registerEqual s.cfg r a b).map .equal) :=
      fun _ => if_neg (by simp [inCodec_eqReg.mp hi])
    exact ⟨_, hin s.crc, hin⟩
  | _ => exact ⟨_, rfl, fun _ => rfl⟩

/-- Every operation the field codec does not refuse writes `crc` as `crcAfter` says and replies. -/
theorem exec_eq_reply {i : Instr} {s : State} (hi : inCodec s.cfg i) :
    ∃ x, exec i s = reply (s.setCrc (crcAfter i s)) x := by
  cases i with
  | crcInit | crcFeed | crcRead | crcCheck => exact ⟨.ok _, rfl⟩
  | _ =>
    obtain ⟨x, hx, -⟩ := exec_outsideEngine rfl hi
    exact ⟨x, hx⟩

/-- The `crc` of the next state. -/
theorem exec_crc {i : Instr} {s t : State} (h : exec i s = .next t) : t.crc = crcAfter i s := by
  obtain ⟨x, hx⟩ := exec_eq_reply (inCodec_of_exec_next h)
  exact reply_crc (hx.symm.trans h)

/-- Every operation the field codec does not refuse answers. -/
theorem exec_next_of_inCodec {i : Instr} {s : State} (hi : inCodec s.cfg i) : ∃ t, exec i s = .next t := by
  obtain ⟨x, hx⟩ := exec_eq_reply hi
  exact hx ▸ reply_next _ x

/-- An operation outside the checksum engine has the same whole effect with another `crc` (R20). -/
theorem exec_setCrc {i : Instr} {s t : State} (hcrc : crcUse i = .none) (h : exec i s = .next t) (v : Byte) :
    exec i (s.setCrc v) = .next (t.setCrc v) := by
  obtain ⟨x, hx, hv⟩ := exec_outsideEngine hcrc (inCodec_of_exec_next h)
  rw [hv v]
  exact reply_setCrc (hx.symm.trans h) v

/-- With another final exclusive-or an operation still answers, and leaves the same `crc`: the stored remainder is the raw
one (R20). -/
theorem exec_setXorOut_crc {i : Instr} {s t : State} (h : exec i s = .next t) (x : Byte) :
    ∃ u, exec i { s with cfg := { s.cfg with crcXorOut := x } } = .next u ∧ u.crc = t.crc := by
  have hi : inCodec { s.cfg with crcXorOut := x } i := inCodec_of_exec_next h
  obtain ⟨u, hu⟩ := exec_next_of_inCodec (s := { s with cfg := { s.cfg with crcXorOut := x } }) hi
  exact ⟨u, hu, by rw [exec_crc hu, exec_crc h, crcAfter_setXorOut]⟩

/-- Settles O48: an operation writes `crc` as `crcAfter` says, and its reply outside the checksum engine is the same for every
`crc`. -/
theorem onlyTheChecksumEngineTouchesCrc : Obligations.OnlyTheChecksumEngineTouchesCrc :=
  ⟨fun _ _ _ h hne => crcAfter_ne (exec_crc h ▸ hne),
    State.resetEvent_crc,
    fun _ _ _ c hcrc h => exec_setCrc hcrc h c,
    fun _ _ _ x h => exec_setXorOut_crc h x⟩

end Sys2Proof.Machine
end

section
/-! SUPPORT. The bytes of a frame (R43 of 20_memory.md) and the address byte (R68 of 30_encoding.md): how `leBytes` and `leValue`
undo each other, and which bits each byte holds. -/

namespace Sys2Proof.Machine

@[simp] theorem leBytes_zero (v : BitVec 64) : leBytes v 0 = [] := rfl

theorem leBytes_succ (v : BitVec 64) (n : Nat) : leBytes v (n + 1) = v.extractLsb' 0 8 :: leBytes (v >>> 8) n := rfl

@[simp] theorem leValue_nil : leValue [] = 0 := rfl

@[simp] theorem leValue_cons (b : Byte) (bs : List Byte) : leValue (b :: bs) = b.toNat + 256 * leValue bs := rfl

/-- Eight more bits are worth a factor of 256. -/
theorem two_pow_succ_bytes (n : Nat) : 2 ^ (8 * (n + 1)) = 256 * 2 ^ (8 * n) := by ring

/-! ### The bits of each byte -/

/-- A byte of the value shifted down by one byte is the next byte of the value. -/
theorem extractLsb'_ushiftRight_byte (v : BitVec 64) (i : Nat) :
    (v >>> 8).extractLsb' (8 * i) 8 = v.extractLsb' (8 * (i + 1)) 8 := by
  ext j hj
  simp [show 8 + (8 * i + j) = 8 * (i + 1) + j by omega]

/-- Byte `i` of `le_bytes(v, n)` holds the bits 8i+7 down to 8i (R43). -/
theorem leBytes_getElem? {n i : Nat} (v : BitVec 64) (hi : i < n) :
    (leBytes v n)[i]? = some (v.extractLsb' (8 * i) 8) := by
  induction n generalizing v i with
  | zero => omega
  | succ n ih =>
    cases i with
    | zero => rfl
    | succ i => rw [leBytes_succ, List.getElem?_cons_succ, ih _ (by omega), extractLsb'_ushiftRight_byte]

/-! ### Bytes to a value and back -/

/-- The bytes of `v` are worth `v` modulo `2 ^ (8n)`, whatever stands above them. -/
theorem leValue_leBytes (v : BitVec 64) (n : Nat) : leValue (leBytes v n) = v.toNat % 2 ^ (8 * n) := by
  induction n generalizing v with
  | zero => simp [Nat.mod_one]
  | succ n ih =>
    rw [leBytes_succ, leValue_cons, ih, two_pow_succ_bytes, Nat.mod_mul, BitVec.extractLsb'_toNat,
      BitVec.toNat_ushiftRight, Nat.shiftRight_zero, Nat.shiftRight_eq_div_pow]

/-- `n` bytes are worth less than `2 ^ (8n)`. -/
theorem leValue_lt (bs : List Byte) : leValue bs < 2 ^ (8 * bs.length) := by
  induction bs with
  | nil => decide
  | cons b bs ih =>
    have hb := b.isLt
    rw [leValue_cons, List.length_cons, two_pow_succ_bytes]
    omega

/-- The low byte of a value is the first byte of its sequence. -/
theorem lowByte_leValue_cons (b : Byte) (bs : List Byte) :
    (BitVec.ofNat 64 (leValue (b :: bs))).extractLsb' 0 8 = b := by
  have hb := b.isLt
  apply BitVec.eq_of_toNat_eq
  rw [BitVec.extractLsb'_toNat, BitVec.toNat_ofNat, Nat.shiftRight_zero, leValue_cons]
  omega

/-- Shifting out the low byte leaves the value of the other bytes, if the sequence fits the 64 bits. -/
theorem ofNat_leValue_cons_ushiftRight (b : Byte) {bs : List Byte} (h : leValue bs < 2 ^ 56) :
    BitVec.ofNat 64 (leValue (b :: bs)) >>> 8 = BitVec.ofNat 64 (leValue bs) := by
  have hb := b.isLt
  apply BitVec.eq_of_toNat_eq
  rw [BitVec.toNat_ushiftRight, Nat.shiftRight_eq_div_pow, BitVec.toNat_ofNat, BitVec.toNat_ofNat, leValue_cons]
  omega

/-- At most eight bytes come back from their value. -/
theorem leBytes_leValue {bs : List Byte} (hlen : bs.length ≤ 8) :
    leBytes (BitVec.ofNat 64 (leValue bs)) bs.length = bs := by
  induction bs with
  | nil => rfl
  | cons b bs ih =>
    have hbs : bs.length ≤ 7 := Nat.le_of_succ_le_succ hlen
    have hlt : leValue bs < 2 ^ 56 :=
      (leValue_lt bs).trans_le (Nat.pow_le_pow_right (by decide) (Nat.mul_le_mul_left 8 hbs))
    rw [List.length_cons, leBytes_succ, lowByte_leValue_cons, ofNat_leValue_cons_ushiftRight b hlt, ih (by omega)]

theorem nbytes_le (k : LengthClass) : nbytes k ≤ 8 := by
  cases k <;> decide

/-! ### The address byte -/

/-- The device address stands in bits 7 to 1 of the address byte, the direction in bit 0 (R68). -/
theorem addrByte_eq_append (c : Config) (rw : BitVec 1) : addrByte c rw = (c.devAddr ++ rw : BitVec 8) := by
  have happend := BitVec.append_def c.devAddr rw
  rw [BitVec.shiftLeftZeroExtend_eq, BitVec.setWidth'_eq] at happend
  exact happend.symm

/-- Settles O40: the laws of the bytes hold for every count, and the round trip from bytes for at most eight. -/
theorem bytesOfAFrame : Obligations.BytesOfAFrame := by
  refine ⟨fun k => ⟨fun v hv => ?_, fun bs hbs => ?_, fun v _ hi => leBytes_getElem? v hi, fun v => leBytes_length v _⟩,
    addrByte_eq_append⟩
  · rw [leValue_leBytes, Nat.mod_eq_of_lt hv]
  · rw [← hbs]
    exact leBytes_leValue (hbs ▸ nbytes_le k)

end Sys2Proof.Machine
end

section
/-! SUPPORT. The packing of a header (R61, R110, R111 of 41_header.md): each byte of a header is a concatenation of fields, and a
field of a header is a slice of one of its bytes. -/

namespace Sys2Proof.Machine

/-! ### The bytes of a header as concatenations -/

/-- Two neighbouring fields, each shifted to its place, are their concatenation shifted to the place of the lower one. -/
theorem setWidth_shiftLeft_or {n m w : Nat} (x : BitVec n) (y : BitVec m) (i j : Nat) (hij : i = m + j) :
    x.setWidth w <<< i ||| y.setWidth w <<< j = (x ++ y).setWidth w <<< j := by
  subst hij
  ext k hk
  simp only [BitVec.getElem_or, BitVec.getElem_shiftLeft, BitVec.getElem_setWidth, BitVec.getLsbD_append]
  by_cases hj : k < j
  · simp [hj, show k < m + j by omega]
  · by_cases hm : k - j < m
    · simp [hj, hm, show k < m + j by omega]
    · simp [hj, hm, show ¬ k < m + j by omega, show k - (m + j) = k - j - m by omega,
        BitVec.getLsbD_of_ge y (k - j) (by omega)]

/-- The lower field of the two may stand at bit 0, unshifted. -/
theorem setWidth_shiftLeft_or_setWidth {n m w : Nat} (x : BitVec n) (y : BitVec m) :
    x.setWidth w <<< m ||| y.setWidth w = (x ++ y).setWidth w := by
  simpa using setWidth_shiftLeft_or (w := w) x y m 0 rfl

theorem hdrByte0_eq_append (h : CommandHeader) : hdrByte0 h = h.op ++ h.crcEn ++ h.len ++ h.sectionId := by
  rw [hdrByte0, setWidth_shiftLeft_or h.op h.crcEn 7 6 rfl, setWidth_shiftLeft_or _ h.len 6 4 rfl,
    setWidth_shiftLeft_or_setWidth]
  exact BitVec.setWidth_eq _

theorem hdrByte1_eq_append (h : CommandHeader) : hdrByte1 h = h.pageId ++ h.addr.extractLsb' 8 4 := by
  rw [hdrByte1, setWidth_shiftLeft_or_setWidth]
  exact BitVec.setWidth_eq _

/-- The address is its high nibble in byte 1 and its low byte in byte 2. -/
theorem addr_eq_append (a : BitVec 12) : a.extractLsb' 8 4 ++ a.extractLsb' 0 8 = a :=
  (BitVec.extractLsb'_append_extractLsb'_eq_extractLsb' rfl).trans BitVec.extractLsb'_eq_self

/-- The three bytes of a header, byte 0 first, are its 24 bits (R61). -/
theorem hdrBytes_eq_append (h : CommandHeader) : (hdrByte0 h ++ hdrByte1 h ++ hdrByte2 h : BitVec 24) =
    (h.op ++ h.crcEn ++ h.len ++ h.sectionId ++ h.pageId ++ h.addr : BitVec 24) := by
  calc (hdrByte0 h ++ hdrByte1 h ++ hdrByte2 h : BitVec 24)
    _ = (h.op ++ h.crcEn ++ h.len ++ h.sectionId ++ (h.pageId ++ h.addr.extractLsb' 8 4) ++
          h.addr.extractLsb' 0 8 : BitVec 24) := by
      rw [hdrByte0_eq_append, hdrByte1_eq_append, hdrByte2]
    _ = (h.op ++ h.crcEn ++ h.len ++ h.sectionId ++ h.pageId ++
          (h.addr.extractLsb' 8 4 ++ h.addr.extractLsb' 0 8) : BitVec 24) := by
      simp only [BitVec.append_assoc, BitVec.cast_eq]
    _ = (h.op ++ h.crcEn ++ h.len ++ h.sectionId ++ h.pageId ++ h.addr : BitVec 24) := by rw [addr_eq_append]

/-! ### Packing and unpacking -/

/-- Unpacking reads each field off the concatenation it stands in. -/
theorem hdrUnpack_append (op crcEn : BitVec 1) (len : BitVec 2) (sect page hi : BitVec 4) (lo : Byte) :
    hdrUnpack (op ++ crcEn ++ len ++ sect) (page ++ hi) lo = ⟨op, crcEn, len, sect, page, hi ++ lo⟩ := by
  have hop : (op ++ crcEn ++ len ++ sect).extractLsb' 7 1 = op := by
    rw [BitVec.extractLsb'_append_eq_of_le (by decide), BitVec.extractLsb'_append_eq_of_le (by decide)]
    exact BitVec.extractLsb'_append_eq_left
  have hcrcEn : (op ++ crcEn ++ len ++ sect).extractLsb' 6 1 = crcEn := by
    rw [BitVec.extractLsb'_append_eq_of_le (by decide), BitVec.extractLsb'_append_eq_of_le (by decide)]
    exact BitVec.extractLsb'_append_eq_right
  have hlen : (op ++ crcEn ++ len ++ sect).extractLsb' 4 2 = len := by
    rw [BitVec.extractLsb'_append_eq_of_le (by decide)]
    exact BitVec.extractLsb'_append_eq_right
  rw [hdrUnpack, CommandHeader.mk.injEq]
  exact ⟨hop, hcrcEn, hlen, BitVec.extractLsb'_append_eq_right, BitVec.extractLsb'_append_eq_left,
    congrArg (· ++ lo) BitVec.extractLsb'_append_eq_right⟩

/-- Unpacking the bytes of a header gives its fields back (R111). -/
theorem hdrUnpack_hdrBytes (h : CommandHeader) : hdrUnpack (hdrByte0 h) (hdrByte1 h) (hdrByte2 h) = h := by
  rw [hdrByte0_eq_append, hdrByte1_eq_append, hdrByte2, hdrUnpack_append, addr_eq_append]

/-- Packing the fields of three bytes gives byte 0 back (R111). -/
theorem hdrByte0_hdrUnpack (h0 h1 h2 : Byte) : hdrByte0 (hdrUnpack h0 h1 h2) = h0 := by
  rw [hdrByte0_eq_append]
  calc (h0.extractLsb' 7 1 ++ h0.extractLsb' 6 1 ++ h0.extractLsb' 4 2 ++ h0.extractLsb' 0 4 : BitVec 8)
    _ = h0.extractLsb' 0 8 := by
      rw [BitVec.extractLsb'_append_extractLsb'_eq_extractLsb' (start₂ := 7) rfl,
        BitVec.extractLsb'_append_extractLsb'_eq_extractLsb' (start₂ := 6) rfl,
        BitVec.extractLsb'_append_extractLsb'_eq_extractLsb' (start₂ := 4) rfl]
    _ = h0 := BitVec.extractLsb'_eq_self

/-- Packing the fields of three bytes gives byte 1 back (R111). -/
theorem hdrByte1_hdrUnpack (h0 h1 h2 : Byte) : hdrByte1 (hdrUnpack h0 h1 h2) = h1 := by
  rw [hdrByte1_eq_append]
  calc (h1.extractLsb' 4 4 ++ (h1.extractLsb' 0 4 ++ h2).extractLsb' 8 4 : BitVec 8)
    _ = h1.extractLsb' 4 4 ++ h1.extractLsb' 0 4 := by rw [BitVec.extractLsb'_append_eq_left]
    _ = h1.extractLsb' 0 8 := BitVec.extractLsb'_append_extractLsb'_eq_extractLsb' rfl
    _ = h1 := BitVec.extractLsb'_eq_self

/-- Packing the fields of three bytes gives byte 2 back (R111). -/
theorem hdrByte2_hdrUnpack (h0 h1 h2 : Byte) : hdrByte2 (hdrUnpack h0 h1 h2) = h2 :=
  BitVec.extractLsb'_append_eq_right

/-- Packing is a bijection onto the three-byte values (R110): unpacking is its inverse. -/
theorem hdrBytes_bijective : Function.Bijective fun h : CommandHeader => (hdrByte0 h, hdrByte1 h, hdrByte2 h) :=
  Function.bijective_iff_has_inverse.mpr ⟨fun (h0, h1, h2) => hdrUnpack h0 h1 h2, hdrUnpack_hdrBytes,
    fun (h0, h1, h2) => by simp only [hdrByte0_hdrUnpack, hdrByte1_hdrUnpack, hdrByte2_hdrUnpack]⟩

/-- Settles O12: each byte is a concatenation of fields, so a field is a slice of a byte and neighbouring slices rejoin. -/
theorem headerBytesAreTheFieldsInOrder : Obligations.HeaderBytesAreTheFieldsInOrder :=
  ⟨hdrBytes_eq_append, hdrBytes_bijective, hdrUnpack_hdrBytes,
    fun h0 h1 h2 => ⟨hdrByte0_hdrUnpack h0 h1 h2, hdrByte1_hdrUnpack h0 h1 h2, hdrByte2_hdrUnpack h0 h1 h2⟩⟩

end Sys2Proof.Machine
end

section
/-! SUPPORT. The assigned codes (R74, R77 of 30_encoding.md): the decoder gives an operation exactly for the command of an assigned
code, and that operation has the command's code. -/

namespace Sys2Proof

/-- The twenty-three operation codes of R74. -/
def assignedCodes : List Byte :=
  [0x10#8, 0x11#8, 0x12#8, 0x13#8, 0x20#8, 0x21#8, 0x22#8, 0x30#8, 0x31#8, 0x32#8, 0x33#8, 0x40#8,
    0x41#8, 0x42#8, 0x43#8, 0x50#8, 0x51#8, 0x60#8, 0x61#8, 0x70#8, 0x71#8, 0x80#8, 0x81#8]

/-- The assigned codes are all the codes operations have. -/
theorem opc_mem_assignedCodes (i : Instr) : i.opc ∈ assignedCodes := by
  cases i <;> simp [Instr.opc, assignedCodes]

/-- Everything `decode` can do: an operation of the command's code, or the rejection of an unassigned code. -/
theorem decode_cases (w : CmdWord) :
    (∃ i, decode w = .ok i ∧ i.opc = w.extractLsb' 0 8) ∨
    (w.extractLsb' 0 8 ∉ assignedCodes ∧ decode w = .error (.unassigned (w.extractLsb' 0 8))) := by
  unfold decode
  split
  case h_24 =>
    -- the hypotheses say that the code's value is none of the twenty-three
    refine .inr ⟨?_, rfl⟩
    simp_all [port, assignedCodes, ← BitVec.toNat_inj]
  all_goals
    rename_i hcode
    exact .inl ⟨_, rfl, (BitVec.eq_of_toNat_eq hcode).symm⟩

/-- A command of an assigned code decodes to an operation of that code. -/
theorem decode_of_assigned {w : CmdWord} (h : w.extractLsb' 0 8 ∈ assignedCodes) :
    ∃ i, decode w = .ok i ∧ i.opc = w.extractLsb' 0 8 :=
  (decode_cases w).resolve_right fun ⟨hun, _⟩ => hun h

/-- A command of an unassigned code is rejected with the code (R77). -/
theorem decode_of_unassigned {w : CmdWord} (h : w.extractLsb' 0 8 ∉ assignedCodes) :
    decode w = .error (.unassigned (w.extractLsb' 0 8)) := by
  obtain ⟨i, -, hopc⟩ | ⟨-, herr⟩ := decode_cases w
  · exact absurd (hopc ▸ opc_mem_assignedCodes i) h
  · exact herr

namespace Machine

/-- A step of a machine with a well-formed configuration and a command presented next performs the command. -/
theorem step_command {s : State} {w : CmdWord} {ins : List HostInput} (hwf : configWf s.cfg = true)
    (hin : s.inputs = .command w :: ins) : step s = perform w (s.setInputs ins) := by
  simp [step, serve, hwf, hin]

/-- A rejected command ends with IllegalOp and its code (R195). -/
theorem perform_of_unassigned {w : CmdWord} {opc : Byte} (h : decode w = .error (.unassigned opc)) (s : State) :
    perform w s = .next (s.raise (.illegalOp opc)) := by
  simp [perform, h]

/-- Settles O55: the decoder rejects exactly the commands of no operation's code, and the block raises on a rejection. -/
theorem unassignedCodesEndWithIllegalOp : Obligations.UnassignedCodesEndWithIllegalOp :=
  fun _ _ _ hwf hin =>
    ⟨fun hun => (step_command hwf hin).trans (perform_of_unassigned (decode_of_unassigned hun) _), decode_of_assigned⟩

end Machine
end Sys2Proof
end

section
/-! SUPPORT. The checksum functions as polynomial arithmetic over the two-element field (R90 and R91 of 40_crc.md): a byte is a
polynomial of degree below 8, one turn of `crc_step` is a multiplication by `x` modulo the generator. -/

namespace Sys2Proof.Machine

open Polynomial

/-! ### Bytes as polynomials -/

/-- A byte read as a polynomial over the two-element field, bit `k` the coefficient of `x^k` (R90). -/
noncomputable def bytePoly (c : Byte) : (ZMod 2)[X] := ∑ k ∈ Finset.range 8, if c.getLsbD k then X ^ k else 0

/-- The generator `x^8 + CRC_POLY` (R90). -/
noncomputable def generator (poly : Byte) : (ZMod 2)[X] := X ^ 8 + bytePoly poly

/-- The polynomial of a byte sequence with one more byte at its end (R91). -/
noncomputable def appendByte (m : (ZMod 2)[X]) (b : Byte) : (ZMod 2)[X] := m * X ^ 8 + bytePoly b

@[simp] theorem bytePoly_zero : bytePoly 0#8 = 0 := by simp [bytePoly]

/-- Exclusive-or is the addition of polynomials. -/
theorem bytePoly_xor (x y : Byte) : bytePoly (x ^^^ y) = bytePoly x + bytePoly y := by
  rw [bytePoly, bytePoly, bytePoly, ← Finset.sum_add_distrib]
  refine Finset.sum_congr rfl fun k _ => ?_
  rw [BitVec.getLsbD_xor]
  cases x.getLsbD k <;> cases y.getLsbD k <;> simp [CharTwo.add_self_eq_zero]

theorem bytePoly_degree_lt (c : Byte) : (bytePoly c).degree < 8 := by
  refine mem_degreeLT.mp (Submodule.sum_mem _ fun k hk => mem_degreeLT.mpr ?_)
  split
  · simpa [degree_X_pow] using hk
  · rw [degree_zero]
    exact WithBot.bot_lt_coe 8

/-- Shifting a byte left moves every bit but the top one to the next power. -/
theorem bytePoly_shiftLeft (c : Byte) :
    bytePoly (c <<< 1) = ∑ k ∈ Finset.range 7, if c.getLsbD k then X ^ (k + 1) else 0 := by
  rw [bytePoly, Finset.sum_range_succ', show (c <<< 1).getLsbD 0 = false by simp]
  refine (add_zero _).trans (Finset.sum_congr rfl fun k hk => ?_)
  have hlt : k + 1 < 8 := Nat.succ_lt_succ (Finset.mem_range.mp hk)
  rw [BitVec.getLsbD_shiftLeft, decide_eq_true hlt]
  simp

/-- Multiplying by `x` shifts the byte left; its top bit becomes the term `x^8`. -/
theorem bytePoly_mul_X (c : Byte) : bytePoly c * X = bytePoly (c <<< 1) + if c.msb then X ^ 8 else 0 := by
  rw [bytePoly_shiftLeft, bytePoly, Finset.sum_range_succ, add_mul, Finset.sum_mul, BitVec.msb_eq_getLsbD_last]
  simp [ite_mul, pow_succ]

/-! ### Remainders by the generator -/

theorem generator_monic (poly : Byte) : (generator poly).Monic := monic_X_pow_add (bytePoly_degree_lt poly)

theorem generator_degree (poly : Byte) : (generator poly).degree = 8 := by
  rw [generator, degree_add_eq_left_of_degree_lt, degree_X_pow]
  · rfl
  · rw [degree_X_pow]
    exact bytePoly_degree_lt poly

/-- A byte is its own remainder by the generator. -/
theorem bytePoly_mod_generator (poly c : Byte) : bytePoly c %ₘ generator poly = bytePoly c := by
  rw [modByMonic_eq_self_iff (generator_monic poly), generator_degree]
  exact bytePoly_degree_lt c

/-- A factor may be replaced by its remainder. -/
theorem mod_mul_mod_generator (poly : Byte) (p q : (ZMod 2)[X]) :
    (p %ₘ generator poly * q) %ₘ generator poly = (p * q) %ₘ generator poly := by
  have hself : p %ₘ generator poly %ₘ generator poly = p %ₘ generator poly :=
    (modByMonic_eq_self_iff (generator_monic poly)).mpr (degree_modByMonic_lt p (generator_monic poly))
  rw [mul_modByMonic, hself, ← mul_modByMonic]

/-- One turn of the loop of `crc_step` multiplies by `x` modulo the generator. -/
theorem bytePoly_crcShift (poly c : Byte) : bytePoly (crcShift poly c) = (bytePoly c * X) %ₘ generator poly := by
  rw [bytePoly_mul_X, crcShift]
  cases c.msb
  · simp [bytePoly_mod_generator]
  · have hcarry : bytePoly (c <<< 1) + X ^ 8 = bytePoly (c <<< 1 ^^^ poly) + generator poly := by
      rw [bytePoly_xor, generator, add_add_add_comm, CharTwo.add_self_eq_zero, add_zero]
    simp only [if_true, hcarry, add_modByMonic, modByMonic_self (generator_monic poly), bytePoly_mod_generator, add_zero]

/-- `n` turns multiply by `x^n` modulo the generator. -/
theorem bytePoly_crcShifts (poly : Byte) (n : Nat) (c : Byte) :
    bytePoly (crcShifts poly n c) = (bytePoly c * X ^ n) %ₘ generator poly := by
  induction n generalizing c with
  | zero => simp [crcShifts, bytePoly_mod_generator]
  | succ n ih => rw [crcShifts, ih, bytePoly_crcShift, mod_mul_mod_generator, mul_assoc, ← pow_succ']

/-- One byte: the remainder of `(c + b) x^8` (R90). -/
theorem bytePoly_crcStep (poly c b : Byte) :
    bytePoly (crcStep poly c b) = ((bytePoly c + bytePoly b) * X ^ 8) %ₘ generator poly := by
  rw [crcStep, bytePoly_crcShifts, bytePoly_xor]

/-- A remainder register that holds the remainder of `m x^8` holds, after a byte sequence, that of `m` continued by it. -/
theorem bytePoly_crcFrom {poly c : Byte} {m : (ZMod 2)[X]} (bs : List Byte)
    (h : bytePoly c = (m * X ^ 8) %ₘ generator poly) :
    bytePoly (crcFrom poly c bs) = (bs.foldl appendByte m * X ^ 8) %ₘ generator poly := by
  induction bs generalizing c m with
  | nil => exact h
  | cons b bs ih =>
    refine ih ?_
    calc bytePoly (crcStep poly c b)
        = ((m * X ^ 8 + bytePoly b) %ₘ generator poly * X ^ 8) %ₘ generator poly := by
          rw [bytePoly_crcStep, h, add_modByMonic, bytePoly_mod_generator]
      _ = (appendByte m b * X ^ 8) %ₘ generator poly := mod_mul_mod_generator poly _ _

/-- Settles O3: each turn of the loop is a multiplication by `x` modulo the generator, eight of them take in a byte, and a byte
sequence is taken in by induction. -/
theorem crcIsPolynomialDivision : Obligations.CrcIsPolynomialDivision :=
  ⟨bytePoly_crcStep, fun poly bs => bytePoly_crcFrom bs (by simp [crcInitial]), by decide, by decide⟩

end Sys2Proof.Machine
end

section
/-! SUPPORT. The checksum engine (40_crc.md): what each operation does to the whole state, and what a run of CRC.FEED leaves. -/

namespace Sys2Proof.Machine

/-! ### The checksum functions -/

@[simp] theorem crcRaw_nil (poly : Byte) : crcRaw poly [] = 0x00#8 := rfl

/-- The remainder of a concatenation, from the remainder of its first part (R97). -/
theorem crcRaw_append (poly : Byte) (p q : List Byte) : crcRaw poly (p ++ q) = crcFrom poly (crcRaw poly p) q :=
  crcFrom_append poly crcInitial p q

/-- A step depends on the exclusive-or of remainder and byte alone (R98). -/
theorem crcStep_eq_table (poly c b : Byte) : crcStep poly c b = crcStep poly 0x00#8 (c ^^^ b) := by simp [crcStep]

/-- A byte equal to the remainder clears it (R93). -/
@[simp] theorem crcStep_self (poly c : Byte) : crcStep poly c c = 0x00#8 := by simp [crcStep]

/-- Settles O4: `crc_raw` continues over a last byte, and the step is read off a table. -/
theorem crcRawIsTheFoldOfCrcStep : Obligations.CrcRawIsTheFoldOfCrcStep :=
  ⟨crcRaw_nil, fun poly bs b => crcRaw_append poly bs [b], fun _ _ => rfl, fun c => by simp [checksum], crcStep_eq_table⟩

/-! ### The four operations -/

@[simp] theorem exec_crcInit (s : State) : exec .crcInit s = .next ((s.setCrc 0x00#8).answer .empty) := rfl

@[simp] theorem exec_crcFeed (b : Byte) (s : State) :
    exec (.crcFeed b) s = .next ((s.setCrc (crcStep s.cfg.crcPoly s.crc b)).answer .empty) := rfl

@[simp] theorem exec_crcRead (s : State) : exec .crcRead s = .next (s.answer (.sum (s.crc ^^^ s.cfg.crcXorOut))) := rfl

@[simp] theorem exec_crcCheck (rx : Byte) (s : State) :
    exec (.crcCheck rx) s = .next (s.answer (.check (decide (s.crc ^^^ s.cfg.crcXorOut = rx)))) := rfl

/-- Settles O1: CRC.INIT writes the same remainder and the same outputs every time. -/
theorem crcInitClearsTheRemainder : Obligations.CrcInitClearsTheRemainder := by
  refine ⟨rfl, exec_crcInit, fun s t u ht hu => ?_, fun s t ht => ?_⟩
  · cases ht
    cases hu
    rfl
  · cases ht
    rfl

/-- Settles O2: the step of a zero byte from zero, and of the remainder itself, is the step of equal bytes. -/
theorem crcFeedAdvancesTheRemainder : Obligations.CrcFeedAdvancesTheRemainder := by
  have hself : ∀ s t : State, exec (.crcFeed s.crc) s = .next t → t.crc = 0x00#8 := fun s t ht =>
    (exec_crc ht).trans (crcStep_self _ _)
  exact ⟨fun _ => rfl, exec_crcFeed, fun s t h0 ht => hself s t (h0 ▸ ht), hself⟩

/-- Settles O10: the received byte is compared with the checksum byte, so that byte alone is accepted. -/
theorem crcCheckComparesTheReceivedByte : Obligations.CrcCheckComparesTheReceivedByte := by
  refine ⟨fun _ => rfl, fun rx s => ⟨_, decide_eq_true_iff, exec_crcCheck rx s⟩, fun s => ?_⟩
  refine ⟨s.crc ^^^ s.cfg.crcXorOut, by simp, fun rx h => ?_⟩
  simpa [State.answer, eq_comm] using h

/-! ### Runs of the engine's operations -/

/-- A run of two lists that both answer. -/
theorem runOps_append_next {is js : List Instr} {s t u : State} {rs rs' : List (Option Response)}
    (his : runOps is s = .next (rs, t)) (hjs : runOps js t = .next (rs', u)) :
    runOps (is ++ js) s = .next (rs ++ rs', u) := by
  rw [runOps_append js his, hjs]

/-- A run that begins with an operation that answers. -/
theorem runOps_cons_next {i : Instr} {is : List Instr} {s t u : State} {rs : List (Option Response)}
    (hi : exec i s = .next t) (his : runOps is t = .next (rs, u)) :
    runOps (i :: is) s = .next (t.response :: rs, u) := by
  simp only [runOps, hi, his]

/-- Feeding a byte sequence continues the remainder over it and keeps the configuration (R93). -/
theorem runOps_feeds (bs : List Byte) (s : State) : ∃ rs t, runOps (bs.map .crcFeed) s = .next (rs, t) ∧
    t.cfg = s.cfg ∧ t.crc = crcFrom s.cfg.crcPoly s.crc bs := by
  induction bs generalizing s with
  | nil => exact ⟨[], s, rfl, rfl, rfl⟩
  | cons b bs ih =>
    obtain ⟨rs, t, hrun, hcfg, hcrc⟩ := ih ((s.setCrc (crcStep s.cfg.crcPoly s.crc b)).answer .empty)
    exact ⟨_, t, runOps_cons_next (exec_crcFeed b s) hrun, hcfg, hcrc⟩

/-- CRC.INIT and feeding a byte sequence leave its `crc_raw` (R91, R92, R93). -/
theorem runOps_init_feeds (bs : List Byte) (s : State) : ∃ rs t, runOps (.crcInit :: bs.map .crcFeed) s = .next (rs, t) ∧
    t.cfg = s.cfg ∧ t.crc = crcRaw s.cfg.crcPoly bs := by
  obtain ⟨rs, t, hrun, hcfg, hcrc⟩ := runOps_feeds bs ((s.setCrc 0x00#8).answer .empty)
  exact ⟨_, t, runOps_cons_next (exec_crcInit s) hrun, hcfg, hcrc⟩

/-- Settles O5: feeding starts from whatever remainder it finds, and the remainder of `p ++ q` is that of `q` continued from `p`. -/
theorem feedingIsIncremental : Obligations.FeedingIsIncremental := by
  intro p q s
  obtain ⟨rs₁, t₁, hrun₁, hcfg₁, hcrc₁⟩ := runOps_init_feeds p s
  obtain ⟨rs₂, t₂, hrun₂, -, hcrc₂⟩ := runOps_feeds q t₁
  obtain ⟨rs₃, t₃, hrun₃, -, hcrc₃⟩ := runOps_init_feeds (p ++ q) s
  have hcont : t₂.crc = crcFrom s.cfg.crcPoly (crcRaw s.cfg.crcPoly p) q := by rw [hcrc₂, hcfg₁, hcrc₁]
  have hjoin : t₂.crc = t₃.crc := by rw [hcont, hcrc₃, crcRaw_append]
  exact ⟨rs₁, t₁, rs₂, t₂, rs₃, t₃, hrun₁, hrun₂, hrun₃, hcrc₁, hjoin, hcrc₃, hcont⟩

/-- CRC.READ in a state whose `crc` is the remainder of a byte sequence gives the checksum of the sequence (R94). -/
theorem exec_crcRead_of_raw {c : Config} {bs : List Byte} {t : State} (hcfg : t.cfg = c) (hcrc : t.crc = crcRaw c.crcPoly bs) :
    exec .crcRead t = .next (t.answer (.sum (checksum c bs))) := by
  rw [exec_crcRead, hcrc, hcfg, checksum]

/-- Settles O9: CRC.READ gives the checksum of what was fed, and it leaves the remainder, so that feeding may continue. -/
theorem crcReadGivesTheChecksum : Obligations.CrcReadGivesTheChecksum := by
  refine ⟨rfl, exec_crcRead, fun bs s => ?_, fun p q s => ?_, fun s => ?_, fun s t u ht hu => ?_⟩
  · obtain ⟨rs, t, hrun, hcfg, hcrc⟩ := runOps_init_feeds bs s
    exact ⟨rs, t, hrun, exec_crcRead_of_raw hcfg hcrc⟩
  · obtain ⟨rs₁, t₁, hrun₁, hcfg₁, hcrc₁⟩ := runOps_init_feeds p s
    obtain ⟨rs₂, t₂, hrun₂, hcfg₂, hcrc₂⟩ := runOps_feeds q (t₁.answer (.sum (t₁.crc ^^^ t₁.cfg.crcXorOut)))
    have hcrc : t₂.crc = crcRaw s.cfg.crcPoly (p ++ q) := by
      rw [hcrc₂, State.answer_cfg, State.answer_crc, hcfg₁, hcrc₁, crcRaw_append]
    exact ⟨_, t₂, runOps_append_next hrun₁ (runOps_cons_next (exec_crcRead t₁) hrun₂),
      exec_crcRead_of_raw (hcfg₂.trans hcfg₁) hcrc⟩
  · rw [exec_crcRead_of_raw (bs := []) rfl rfl]
    simp [checksum]
  · cases ht
    cases hu
    rfl

/-! ### CRC.SUM -/

/-- CRC.READ inside a pseudo-operation hands the checksum byte to the host. -/
theorem issueSum_crcRead (s : State) : (issueSum .crcRead).from s =
    (.ok (s.crc ^^^ s.cfg.crcXorOut), s.answer (.sum (s.crc ^^^ s.cfg.crcXorOut))) := by
  rw [issueSum, Pseudo.from_bind_ok (issue_ok (exec_crcRead s) rfl)]
  rfl

/-- Settles O11: CRC.SUM is CRC.INIT, the feeding of its bytes and CRC.READ. -/
theorem crcSumIsTheOneShotChecksum : Obligations.CrcSumIsTheOneShotChecksum := by
  intro bs s
  obtain ⟨t, hfeed, hcrc, hcfg, hinputs⟩ := feed_from bs ((s.setCrc 0x00#8).answer .empty)
  refine ⟨t.answer (.sum (t.crc ^^^ t.cfg.crcXorOut)), ?_, hcrc, hcfg, hinputs⟩
  rw [crcSum, Pseudo.from_bind_ok (issue_ok (exec_crcInit s) rfl), Pseudo.from_bind_ok hfeed, issueSum_crcRead, hcrc, hcfg]
  rfl

end Sys2Proof.Machine
end

section
/-! SUPPORT. The header operations (41_header.md): what HDR.ENC, HDR.ENCX and HDR.DEC do to the whole state, by the length class of
the length code (R7, R62). -/

namespace Sys2Proof.Machine

open Sys2Proof.Safety (standardLengthCodes)

/-! ### The length codes of R7 -/

/-- Of the four length codes, 0b11 alone has no length class (R7). -/
theorem lenClass?_eq_none_iff_of_standard {c : Config} (hc : standardLengthCodes c) (code : BitVec 2) :
    lenClass? c code = none ↔ code = 0b11#2 := by
  obtain ⟨h16, h32, h64⟩ := hc
  rw [lenClass?, h16, h32, h64]
  revert code
  decide

/-- Every length code but 0b11 names a length class (R7). -/
theorem exists_lenClass?_of_standard {c : Config} (hc : standardLengthCodes c) {code : BitVec 2} (h : code ≠ 0b11#2) :
    ∃ k, lenClass? c code = some k :=
  Option.ne_none_iff_exists'.mp (mt (lenClass?_eq_none_iff_of_standard hc code).mp h)

/-- `len_ok` under the length codes of R7. -/
theorem lenOk_iff_of_standard {c : Config} (hc : standardLengthCodes c) (code : BitVec 2) :
    lenOk c code = true ↔ code ≠ 0b11#2 := by
  rw [lenOk, Option.isSome_iff_ne_none, ne_eq, lenClass?_eq_none_iff_of_standard hc]

/-! ### The three operations -/

/-- HDR.ENC is HDR.ENCX with the section and page ids of the configuration (R112). -/
theorem exec_hdrEnc (op crcEn : BitVec 1) (len : BitVec 2) (addr : BitVec 12) (s : State) :
    exec (.hdrEnc op crcEn len addr) s = exec (.hdrEncx op crcEn len s.cfg.sectionId s.cfg.pageId addr) s := rfl

/-- HDR.ENCX replies what the encoder of a header gives (R113). -/
theorem exec_hdrEncx (h : CommandHeader) (s : State) :
    exec (.hdrEncx h.op h.crcEn h.len h.sectionId h.pageId h.addr) s = reply s (encodeHeader s.cfg h) := rfl

/-- HDR.ENCX of a length code without a class ends with IllegalOperand (R113). -/
theorem exec_hdrEncx_of_none {h : CommandHeader} {s : State} (hl : lenClass? s.cfg h.len = none) :
    exec (.hdrEncx h.op h.crcEn h.len h.sectionId h.pageId h.addr) s =
      .next (s.raise (.illegalOperand (.len h.len))) := by
  rw [exec_hdrEncx, encodeHeader_none hl, reply_error]

/-- HDR.ENCX of a length class's code packs the header (R113). -/
theorem exec_hdrEncx_of_some {h : CommandHeader} {s : State} {k : LengthClass} (hl : lenClass? s.cfg h.len = some k) :
    exec (.hdrEncx h.op h.crcEn h.len h.sectionId h.pageId h.addr) s =
      .next (s.answer (.header (hdrByte0 h) (hdrByte1 h) (hdrByte2 h))) := by
  rw [exec_hdrEncx, encodeHeader_some hl, reply_ok]

/-- HDR.DEC answers the unpacked header and `len_ok` (R116). -/
theorem exec_hdrDec (h0 h1 h2 : Byte) (s : State) : exec (.hdrDec h0 h1 h2) s =
    .next (s.answer (.fields (hdrUnpack h0 h1 h2) (lenOk s.cfg (hdrUnpack h0 h1 h2).len))) := rfl

/-! ### The operations under the length codes of R7 -/

/-- HDR.ENCX of a length code other than 0b11 gives the three bytes of the header (R7, R113). -/
theorem exec_hdrEncx_of_assigned {h : CommandHeader} {s : State} (hs : standardLengthCodes s.cfg) (hlen : h.len ≠ 0b11#2) :
    exec (.hdrEncx h.op h.crcEn h.len h.sectionId h.pageId h.addr) s =
      .next (s.answer (.header (hdrByte0 h) (hdrByte1 h) (hdrByte2 h))) := by
  obtain ⟨_, hk⟩ := exists_lenClass?_of_standard hs hlen
  exact exec_hdrEncx_of_some hk

/-- HDR.ENCX refuses the length code 0b11, and otherwise its three bytes are the 24 bits of the header (R7, R61, R113). -/
theorem exec_hdrEncx_refuses_or_packs {s : State} (hs : standardLengthCodes s.cfg) (h : CommandHeader) :
    (h.len = 0b11#2 → exec (.hdrEncx h.op h.crcEn h.len h.sectionId h.pageId h.addr) s =
      .next (s.raise (.illegalOperand (.len h.len)))) ∧
    (h.len ≠ 0b11#2 → ∃ h0 h1 h2 : Byte,
      (h0 ++ h1 ++ h2 : BitVec 24) =
        (h.op ++ h.crcEn ++ h.len ++ h.sectionId ++ h.pageId ++ h.addr : BitVec 24) ∧
      exec (.hdrEncx h.op h.crcEn h.len h.sectionId h.pageId h.addr) s = .next (s.answer (.header h0 h1 h2))) :=
  ⟨fun hlen => exec_hdrEncx_of_none ((lenClass?_eq_none_iff_of_standard hs _).mpr hlen),
    fun hlen => ⟨_, _, _, hdrBytes_eq_append h, exec_hdrEncx_of_assigned hs hlen⟩⟩

/-- HDR.DEC of three bytes with an assigned length code answers their fields with `len_ok = 1` (R7, R116). -/
theorem exec_hdrDec_of_assigned {h0 h1 h2 : Byte} {s : State} (hs : standardLengthCodes s.cfg)
    (hlen : (hdrUnpack h0 h1 h2).len ≠ 0b11#2) :
    exec (.hdrDec h0 h1 h2) s = .next (s.answer (.fields (hdrUnpack h0 h1 h2) true)) := by
  rw [exec_hdrDec, (lenOk_iff_of_standard hs _).mpr hlen]

/-! ### The statements -/

/-- Settles O13: HDR.ENCX decides by the length class of the code, its bytes are the fields in order, and HDR.ENC is HDR.ENCX on the
ids of the configuration. -/
theorem encodersPackTheHeader : Obligations.EncodersPackTheHeader :=
  ⟨fun op crcEn len addr s hs =>
      ⟨rfl, exec_hdrEncx_refuses_or_packs hs ⟨op, crcEn, len, s.cfg.sectionId, s.cfg.pageId, addr⟩⟩,
    fun op crcEn len sect page addr _ hs =>
      ⟨rfl, exec_hdrEncx_refuses_or_packs hs ⟨op, crcEn, len, sect, page, addr⟩⟩,
    exec_hdrEnc⟩

/-- The fields of three unpacked bytes are their 24 bits in order (R61, R111). -/
theorem hdrUnpack_fields_append (h0 h1 h2 : Byte) :
    ((hdrUnpack h0 h1 h2).op ++ (hdrUnpack h0 h1 h2).crcEn ++ (hdrUnpack h0 h1 h2).len ++
      (hdrUnpack h0 h1 h2).sectionId ++ (hdrUnpack h0 h1 h2).pageId ++ (hdrUnpack h0 h1 h2).addr : BitVec 24) =
    (h0 ++ h1 ++ h2 : BitVec 24) := by
  rw [← hdrBytes_eq_append, hdrByte0_hdrUnpack, hdrByte1_hdrUnpack, hdrByte2_hdrUnpack]

/-- Settles O15: the fields read are those whose packing is the three bytes, and `len_ok` is the test of the length code alone. -/
theorem hdrDecReadsTheFields : Obligations.HdrDecReadsTheFields :=
  fun h0 h1 h2 s hs => ⟨rfl, hdrUnpack h0 h1 h2, lenOk s.cfg (hdrUnpack h0 h1 h2).len, hdrUnpack_fields_append h0 h1 h2,
    lenOk_iff_of_standard hs _, exec_hdrDec h0 h1 h2 s⟩

/-- HDR.DEC of the bytes of a header with an assigned length code answers the header itself (R117). -/
theorem exec_hdrDec_hdrBytes {h : CommandHeader} {s : State} (hs : standardLengthCodes s.cfg) (hlen : h.len ≠ 0b11#2) :
    exec (.hdrDec (hdrByte0 h) (hdrByte1 h) (hdrByte2 h)) s = .next (s.answer (.fields h true)) := by
  rw [exec_hdrDec, hdrUnpack_hdrBytes, (lenOk_iff_of_standard hs _).mpr hlen]

/-- HDR.ENCX of the fields of three bytes with an assigned length code answers the bytes themselves (R117). -/
theorem exec_hdrEncx_hdrUnpack {h0 h1 h2 : Byte} {s : State} (hs : standardLengthCodes s.cfg)
    (hlen : (hdrUnpack h0 h1 h2).len ≠ 0b11#2) :
    exec (.hdrEncx (hdrUnpack h0 h1 h2).op (hdrUnpack h0 h1 h2).crcEn (hdrUnpack h0 h1 h2).len
      (hdrUnpack h0 h1 h2).sectionId (hdrUnpack h0 h1 h2).pageId (hdrUnpack h0 h1 h2).addr) s =
      .next (s.answer (.header h0 h1 h2)) := by
  rw [exec_hdrEncx_of_assigned hs hlen, hdrByte0_hdrUnpack, hdrByte1_hdrUnpack, hdrByte2_hdrUnpack]

/-- Settles O16: the second operation runs in a state of the same configuration, and packing and unpacking undo each other. -/
theorem headerCodecRoundTrips : Obligations.HeaderCodecRoundTrips :=
  ⟨fun h s hs hlen => ⟨hdrByte0 h, hdrByte1 h, hdrByte2 h, _, exec_hdrEncx_of_assigned hs hlen, rfl,
      exec_hdrDec_hdrBytes (s := s.answer _) hs hlen⟩,
    fun h0 h1 h2 s hs hlen => ⟨hdrUnpack h0 h1 h2, _, exec_hdrDec_of_assigned hs hlen, rfl,
      exec_hdrEncx_hdrUnpack (s := s.answer _) hs hlen⟩⟩

end Sys2Proof.Machine
end

section
/-! SUPPORT. Slices (42_field_codec.md section 2): what FLD.GET, FLD.SET, BIT.GET and BIT.SET do to the whole state, and the slice
laws bit by bit. -/

namespace Sys2Proof.Machine

/-! ### Slices as numbers and as bits -/

theorem badPosition_eq_false {lsb : BitVec 5} {width : BitVec 6} (hwidth : width ≠ 0#6)
    (hpos : lsb.toNat + width.toNat ≤ 32) : badPosition lsb width = false := by
  rw [← Bool.not_eq_true, badPosition_iff]
  rintro (rfl | h)
  · exact hwidth rfl
  · omega

theorem lowMask_toNat {w : Nat} (hw : w ≤ 32) : (lowMask w).toNat = 2 ^ w - 1 := by
  have hle : 2 ^ w ≤ 2 ^ 32 := Nat.pow_le_pow_right (by decide) hw
  have hpos : 0 < 2 ^ w := Nat.two_pow_pos w
  rw [lowMask, BitVec.toNat_ofNat, Nat.mod_eq_of_lt (by omega)]

/-- A slice is the unsigned value of its bits (R132). -/
theorem sliceGet_toNat {w : Nat} (hw : w ≤ 32) (l : Nat) (v : Reg32) :
    (sliceGet l w v).toNat = v.toNat / 2 ^ l % 2 ^ w := by
  rw [sliceGet, BitVec.toNat_and, lowMask_toNat hw, Nat.and_two_pow_sub_one_eq_mod, BitVec.toNat_ushiftRight,
    Nat.shiftRight_eq_div_pow]

/-- Values that agree on the bits of a field have the same slice. -/
theorem sliceGet_congr {l w : Nat} (hpos : l + w ≤ 32) {u v : Reg32}
    (h : ∀ k, l ≤ k → k < l + w → u.getLsbD k = v.getLsbD k) : sliceGet l w u = sliceGet l w v := by
  refine BitVec.eq_of_getLsbD_eq fun k _ => ?_
  rw [sliceGet_bit (by omega), sliceGet_bit (by omega)]
  by_cases hk : k < w
  · rw [h (l + k) (by omega) (by omega)]
  · simp [hk]

/-! ### The slice laws -/

section
variable {l w l' w' : Nat}

/-- Reading a field that was just written (R136). -/
theorem sliceGet_sliceSet_same (hpos : l + w ≤ 32) (v : Reg32) {f : Reg32} (hf : f.toNat < 2 ^ w) :
    sliceGet l w (sliceSet l w v f) = f := by
  refine BitVec.eq_of_getLsbD_eq fun k _ => ?_
  rw [sliceGet_bit (by omega)]
  by_cases hk : k < w
  · rw [sliceSet_bit hpos v hf (by omega)]
    simp [hk]
  · simp [hk, getLsbD_of_lt hf (Nat.le_of_not_lt hk)]

/-- Writing back what a field holds (R136). -/
theorem sliceSet_sliceGet (hpos : l + w ≤ 32) (v : Reg32) : sliceSet l w v (sliceGet l w v) = v := by
  refine BitVec.eq_of_getLsbD_eq fun k hk => ?_
  rw [sliceSet_bit hpos v (sliceGet_lt (by omega) l v) hk]
  split
  case isTrue hin =>
    obtain ⟨hlow, hhigh⟩ := hin
    rw [sliceGet_bit (by omega), Nat.add_sub_cancel' hlow]
    simp [show k - l < w by omega]
  case isFalse => rfl

/-- Writing a field does not change a disjoint one (R136). -/
theorem sliceGet_sliceSet_disjoint (hpos : l + w ≤ 32) (hpos' : l' + w' ≤ 32) (hdisj : l + w ≤ l' ∨ l' + w' ≤ l)
    (v : Reg32) {g : Reg32} (hg : g.toNat < 2 ^ w') : sliceGet l w (sliceSet l' w' v g) = sliceGet l w v := by
  refine sliceGet_congr hpos fun k hlow hhigh => ?_
  rw [sliceSet_bit hpos' v hg (by omega), if_neg (by omega)]

/-- Disjoint fields are written in either order (R136). -/
theorem sliceSet_sliceSet_comm (hpos : l + w ≤ 32) (hpos' : l' + w' ≤ 32) (hdisj : l + w ≤ l' ∨ l' + w' ≤ l) (v : Reg32)
    {f g : Reg32} (hf : f.toNat < 2 ^ w) (hg : g.toNat < 2 ^ w') :
    sliceSet l w (sliceSet l' w' v g) f = sliceSet l' w' (sliceSet l w v f) g := by
  refine BitVec.eq_of_getLsbD_eq fun k hk => ?_
  rw [sliceSet_bit hpos _ hf hk, sliceSet_bit hpos' _ hg hk, sliceSet_bit hpos' _ hg hk, sliceSet_bit hpos _ hf hk]
  by_cases hin : l ≤ k ∧ k < l + w
  · rw [if_pos hin, if_neg (by omega), if_pos hin]
  · rw [if_neg hin, if_neg hin]

end

/-- Settles O20: the bits inside and outside a field are compared one by one. -/
theorem sliceLaws : Obligations.SliceLaws :=
  fun _ _ _ hpos v _ hf => ⟨sliceGet_sliceSet_same hpos v hf, sliceSet_sliceGet hpos v,
    fun _ _ _ hpos' hdisj _ hg => ⟨sliceGet_sliceSet_disjoint hpos hpos' hdisj v hg,
      sliceSet_sliceSet_comm hpos hpos' hdisj v hf hg⟩⟩

/-! ### FLD.GET and FLD.SET -/

section
variable {lsb : BitVec 5} {width : BitVec 6} {f : Reg32}

/-- FLD.GET of an illegal position ends with IllegalOperand (R132). -/
theorem exec_fldGet_of_bad (h : badPosition lsb width = true) (v : Reg32) (s : State) :
    exec (.fldGet lsb width v) s = .next (s.raise (.illegalOperand (.position lsb width))) := by
  rw [exec, execFldGet, if_pos h, reply_error]

/-- FLD.GET of a legal position answers the slice (R132). -/
theorem exec_fldGet_of_legal (h : badPosition lsb width = false) (v : Reg32) (s : State) :
    exec (.fldGet lsb width v) s = .next (s.answer (.field (sliceGet lsb.toNat width.toNat v))) := by
  rw [exec, execFldGet, if_neg (ne_true_of_eq_false h), reply_ok]

/-- FLD.SET of an illegal position ends with IllegalOperand (R133). -/
theorem exec_fldSet_of_bad (h : badPosition lsb width = true) (v f : Reg32) (s : State) :
    exec (.fldSet lsb width v f) s = .next (s.raise (.illegalOperand (.position lsb width))) := by
  rw [exec, execFldSet, if_pos h, reply_error]

/-- FLD.SET of a value that does not fit its legal position ends with IllegalOperand (R133). -/
theorem exec_fldSet_of_tooWide (h : badPosition lsb width = false) (v : Reg32)
    (hf : 2 ^ width.toNat ≤ f.toNat) (s : State) :
    exec (.fldSet lsb width v f) s = .next (s.raise (.illegalOperand (.fieldValue f))) := by
  rw [exec, execFldSet, if_neg (ne_true_of_eq_false h), if_pos ((tooWide_iff _ f).mpr hf), reply_error]

/-- FLD.SET of a value that fits its legal position answers the value with the field replaced (R133). -/
theorem exec_fldSet_of_fits (h : badPosition lsb width = false) (v : Reg32)
    (hf : f.toNat < 2 ^ width.toNat) (s : State) :
    exec (.fldSet lsb width v f) s = .next (s.answer (.value (sliceSet lsb.toNat width.toNat v f))) := by
  rw [exec, execFldSet, if_neg (ne_true_of_eq_false h), (tooWide_eq_false _ f).mpr hf, if_neg Bool.false_ne_true,
    reply_ok]

end

/-- Settles O17: the test of the position decides, and the slice is a quotient and a remainder. -/
theorem fldGetSlices : Obligations.FldGetSlices :=
  fun lsb width v s => ⟨rfl, fun hbad => exec_fldGet_of_bad ((badPosition_iff lsb width).mpr hbad) v s,
    fun hwidth hpos => ⟨_, sliceGet_toNat (by omega) _ v, exec_fldGet_of_legal (badPosition_eq_false hwidth hpos) v s⟩⟩

/-- Settles O18: the tests of position and value decide, and the slice is replaced bit by bit. -/
theorem fldSetReplacesTheField : Obligations.FldSetReplacesTheField :=
  fun lsb width v f s => ⟨rfl, fun hbad => exec_fldSet_of_bad ((badPosition_iff lsb width).mpr hbad) v f s,
    fun hwidth hpos hf => exec_fldSet_of_tooWide (badPosition_eq_false hwidth hpos) v hf s,
    fun hwidth hpos hf => ⟨_, fun _ hk => sliceSet_bit hpos v hf hk,
      exec_fldSet_of_fits (badPosition_eq_false hwidth hpos) v hf s⟩⟩

/-! ### BIT.GET and BIT.SET -/

theorem bitAt_eq_one_iff (pos : Nat) (v : Reg32) : bitAt pos v = 1#1 ↔ v.getLsbD pos = true := by
  simp [bitAt, BitVec.getLsbD_eq_extractLsb']

/-- A bit, zero-extended, is the slice of width 1 at its place (R134). -/
theorem bitAt_setWidth_eq_sliceGet (pos : Nat) (v : Reg32) : (bitAt pos v).setWidth 32 = sliceGet pos 1 v := by
  refine BitVec.eq_of_getLsbD_eq fun k hk => ?_
  rw [sliceGet_bit (by decide), BitVec.getLsbD_setWidth, bitAt, BitVec.getLsbD_extractLsb', decide_eq_true hk,
    Bool.true_and]

/-- One bit fits the width 1. -/
theorem bit_fits (b : BitVec 1) : (b.setWidth 32 : Reg32).toNat < 2 ^ 1 := by
  rw [BitVec.toNat_setWidth_of_le (by decide)]
  exact b.isLt

/-- Every position of one bit is legal (R134, R135). -/
theorem badPosition_one (pos : BitVec 5) : badPosition pos 1#6 = false :=
  badPosition_eq_false (by decide) pos.isLt

theorem bitPut_bit (pos : BitVec 5) (v : Reg32) (b : BitVec 1) {k : Nat} (hk : k < 32) :
    (bitPut pos.toNat v b).getLsbD k = if k = pos.toNat then b.getLsbD 0 else v.getLsbD k := by
  rw [bitPut_eq_sliceSet, sliceSet_bit pos.isLt v (bit_fits b) hk]
  by_cases hpos : k = pos.toNat
  · simp [hpos]
  · rw [if_neg hpos, if_neg (by omega)]

/-- Settles O19: both operations are the slice operations at width 1, where every position is legal and every bit fits. -/
theorem bitOperationsAreOneBitSlices : Obligations.BitOperationsAreOneBitSlices := by
  refine ⟨fun pos v s => ⟨rfl, _, bitAt_eq_one_iff _ v, rfl, ?_⟩,
    fun pos v b s => ⟨rfl, ⟨_, fun _ hk => bitPut_bit pos v b hk, rfl⟩, ?_⟩⟩
  · rw [exec_fldGet_of_legal (badPosition_one pos), bitAt_setWidth_eq_sliceGet]
    rfl
  · rw [exec_fldSet_of_fits (badPosition_one pos) v (bit_fits b)]
    rfl

end Sys2Proof.Machine
end

section
/-! SUPPORT. Enumerations (42_field_codec.md section 3): what a well-formed table is, and what the four operations do to the whole
state. -/

namespace Sys2Proof.Machine

/-! ### Well-formed tables -/

theorem enumFits_iff {d : EnumDesc} {code : Byte} : enumFits d code = true ↔ code.toNat < 2 ^ d.width := by simp [enumFits]

/-- The law of `rep` for a class: its representative is a code of the field, has the class, and is valid if any code of the class
is (R138). -/
theorem enumRepLaw_iff {d : EnumDesc} {cls : Byte} : enumRepLaw d cls = true ↔
    ∃ rep, d.rep.lookup cls = some rep ∧ rep.toNat < 2 ^ d.width ∧ enumClass d rep = cls ∧
      ∀ code : Byte, code.toNat < 2 ^ d.width → enumValid d code = true → enumClass d code = cls →
        enumValid d rep = true := by
  unfold enumRepLaw
  cases d.rep.lookup cls with
  | none => simp
  | some rep =>
    cases hvalid : enumValid d rep <;> simp [mem_enumCodes, enumFits_iff, hvalid, and_assoc, imp_iff_not_or]

/-- The laws of a well-formed table (R138, R161). -/
theorem enumWf_iff {d : EnumDesc} : enumWf d = true ↔
    1 ≤ d.width ∧ d.width ≤ 8 ∧ d.rows.length = 2 ^ d.width ∧
      (d.exhaustive = true ↔ ∀ code : Byte, code.toNat < 2 ^ d.width → enumValid d code = true) ∧
      ∀ cls ∈ enumClasses d, enumRepLaw d cls = true := by
  have hexh : (d.exhaustive == (enumCodes d).all (enumValid d)) = true ↔
      (d.exhaustive = true ↔ ∀ code : Byte, code.toNat < 2 ^ d.width → enumValid d code = true) := by
    rw [beq_iff_eq, Bool.eq_iff_iff, List.all_eq_true]
    simp only [mem_enumCodes]
  simp only [enumWf, Bool.and_eq_true, decide_eq_true_eq, hexh, List.all_eq_true, and_assoc]

/-- The row of a code of a well-formed table, as `valid` and `canon` read it (R161). -/
theorem rows_getElem?_of_fits {d : EnumDesc} {code : Byte} (hlen : d.rows.length = 2 ^ d.width)
    (hfits : code.toNat < 2 ^ d.width) : d.rows[code.toNat]? = some ⟨enumValid d code, enumClass d code⟩ := by
  have hlt : code.toNat < d.rows.length := hlen ▸ hfits
  simp [enumValid, enumClass, enumRow, hlt]

/-- The representative of a class that `rep` lists. -/
theorem enumRep_of_lookup {d : EnumDesc} {cls rep : Byte} (h : d.rep.lookup cls = some rep) : enumRep d cls = rep := by
  rw [enumRep, h, Option.getD_some]

/-- Settles O25: the laws of a well-formed table, read off its test, with `rep` taken at the class of a code. -/
theorem wellFormedTablesAreTotal : Obligations.WellFormedTablesAreTotal := by
  intro c t d hwf ht
  obtain ⟨hone, height, hlen, hexh, hrep⟩ := enumWf_iff.mp (configWf_enum hwf ht)
  refine ⟨hone, height, hlen, fun code hfits => rows_getElem?_of_fits hlen hfits, hexh, fun code hfits => ?_⟩
  obtain ⟨rep, hlookup, hrepFits, hcls, hvalid⟩ := enumRepLaw_iff.mp (hrep _ (mem_enumClasses.mpr ⟨code, hfits, rfl⟩))
  rw [enumRep_of_lookup hlookup]
  exact ⟨hrepFits, hcls, fun hv => hvalid code hfits hv rfl⟩

/-! ### The test of a table and a code -/

/-- An unknown table is found first (R139 to R141). -/
theorem findEnumCode_of_unknown {c : Config} {t : Byte} (ht : enumTable? c t = none) (code : Byte) :
    findEnumCode c t code = .error (.table t) := by
  rw [findEnumCode, ht]

/-- A code wider than the field of a known table is refused (R139 to R141). -/
theorem findEnumCode_of_tooWide {c : Config} {t code : Byte} {d : EnumDesc} (ht : enumTable? c t = some d)
    (hcode : 2 ^ d.width ≤ code.toNat) : findEnumCode c t code = .error (.code code) := by
  simp only [findEnumCode, ht, if_neg (mt enumFits_iff.mp (Nat.not_lt.mpr hcode))]

/-- A code of a known table passes (R139 to R141). -/
theorem findEnumCode_of_fits {c : Config} {t code : Byte} {d : EnumDesc} (ht : enumTable? c t = some d)
    (hcode : code.toNat < 2 ^ d.width) : findEnumCode c t code = .ok d :=
  findEnumCode_ok.mpr ⟨ht, enumFits_iff.mpr hcode⟩

/-! ### The operations -/

section
variable {t code : Byte} {s : State} {o : BadOperand} {d : EnumDesc}

theorem exec_enumDec_of_error (h : findEnumCode s.cfg t code = .error o) :
    exec (.enumDec t code) s = .next (s.raise (.illegalOperand o)) := by
  rw [exec, execEnumDec, enumDecode, h, reply_error]

/-- ENUM.DEC of a code of the table answers the code and its validity (R139). -/
theorem exec_enumDec_of_ok (h : findEnumCode s.cfg t code = .ok d) :
    exec (.enumDec t code) s = .next (s.answer (.decoded (enumValid d code) code)) := by
  rw [exec, execEnumDec, enumDecode, h, reply_ok]

theorem exec_enumEnc_of_error (h : findEnumCode s.cfg t code = .error o) (known : Bool) :
    exec (.enumEnc t known code) s = .next (s.raise (.illegalOperand o)) := by
  rw [exec, execEnumEnc, enumEncode, h, reply_error]

/-- ENUM.ENC of a code of the table with another tag than the table's ends with IllegalOperand (R140). -/
theorem exec_enumEnc_of_ne (h : findEnumCode s.cfg t code = .ok d) {known : Bool} (hk : known ≠ enumValid d code) :
    exec (.enumEnc t known code) s = .next (s.raise (.illegalOperand (.known known))) := by
  simp only [exec, execEnumEnc, enumEncode, h, if_neg hk, reply_error]

/-- ENUM.ENC of a code of the table with the table's tag answers the code (R140). -/
theorem exec_enumEnc_of_eq (h : findEnumCode s.cfg t code = .ok d) :
    exec (.enumEnc t (enumValid d code) code) s = .next (s.answer (.code code)) := by
  simp only [exec, execEnumEnc, enumEncode, h, if_true, reply_ok]

theorem exec_enumCanon_of_error (h : findEnumCode s.cfg t code = .error o) :
    exec (.enumCanon t code) s = .next (s.raise (.illegalOperand o)) := by
  rw [exec, execEnumCanon, enumCanonical, h, reply_error]

/-- ENUM.CANON of a code of the table answers its class (R141). -/
theorem exec_enumCanon_of_ok (h : findEnumCode s.cfg t code = .ok d) :
    exec (.enumCanon t code) s = .next (s.answer (.cls (enumClass d code))) := by
  rw [exec, execEnumCanon, enumCanonical, h, reply_ok]

/-- ENUM.REP of an unknown table ends with IllegalOperand (R162). -/
theorem exec_enumRep_of_unknown (ht : enumTable? s.cfg t = none) (cls : Byte) :
    exec (.enumRep t cls) s = .next (s.raise (.illegalOperand (.table t))) := by
  simp only [exec, execEnumRep, enumRepresentative, findEnum, ht, reply_error]

/-- ENUM.REP of no class of the table ends with IllegalOperand (R162). -/
theorem exec_enumRep_of_notMem (ht : enumTable? s.cfg t = some d) {cls : Byte} (hcls : cls ∉ enumClasses d) :
    exec (.enumRep t cls) s = .next (s.raise (.illegalOperand (.cls cls))) := by
  simp only [exec, execEnumRep, enumRepresentative, findEnum, ht, if_neg hcls, reply_error]

/-- ENUM.REP of a class of the table answers its representative (R162). -/
theorem exec_enumRep_of_mem (ht : enumTable? s.cfg t = some d) {cls : Byte} (hcls : cls ∈ enumClasses d) :
    exec (.enumRep t cls) s = .next (s.answer (.code (enumRep d cls))) := by
  simp only [exec, execEnumRep, enumRepresentative, findEnum, ht, if_pos hcls, reply_ok]

end

/-! ### The statements -/

/-- Settles O21: the test of table and code decides; in a well-formed exhaustive table every code is valid. -/
theorem enumDecTagsEveryCode : Obligations.EnumDecTagsEveryCode :=
  fun _ code _ => ⟨rfl, fun ht => exec_enumDec_of_error (findEnumCode_of_unknown ht code),
    fun _ ht => ⟨fun hwide => exec_enumDec_of_error (findEnumCode_of_tooWide ht hwide),
      fun hfits => exec_enumDec_of_ok (findEnumCode_of_fits ht hfits),
      fun hwf hexh hfits =>
        let ⟨_, _, _, hall, _⟩ := enumWf_iff.mp (configWf_enum hwf ht)
        hall.mp hexh code hfits⟩⟩

/-- Settles O22: the tests of table, code and tag decide in this order, and ENUM.DEC answers the table's own tag. -/
theorem enumEncUndoesEnumDec : Obligations.EnumEncUndoesEnumDec := by
  refine fun t known code s => ⟨rfl, fun ht => exec_enumEnc_of_error (findEnumCode_of_unknown ht code) known,
    fun d ht => ⟨fun hwide => exec_enumEnc_of_error (findEnumCode_of_tooWide ht hwide) known,
      fun hfits hne => exec_enumEnc_of_ne (findEnumCode_of_fits ht hfits) hne, fun hfits heq => ?_, fun hfits => ?_⟩⟩
  · subst heq
    exact exec_enumEnc_of_eq (findEnumCode_of_fits ht hfits)
  · have hfind := findEnumCode_of_fits ht hfits
    exact ⟨_, _, _, exec_enumDec_of_ok hfind, rfl, exec_enumEnc_of_eq (s := s.answer _) hfind⟩

/-- Settles O23: the test of table and code decides. -/
theorem enumCanonGivesTheClass : Obligations.EnumCanonGivesTheClass :=
  fun _ code _ => ⟨rfl, fun ht => exec_enumCanon_of_error (findEnumCode_of_unknown ht code),
    fun _ ht => ⟨fun hwide => exec_enumCanon_of_error (findEnumCode_of_tooWide ht hwide),
      fun hfits => exec_enumCanon_of_ok (findEnumCode_of_fits ht hfits)⟩⟩

/-- Settles O24: the range of `canon` decides, and by the law of `rep` a representative is a code of its class. -/
theorem enumRepIsARepresentative : Obligations.EnumRepIsARepresentative := by
  refine fun t cls s => ⟨rfl, fun ht => exec_enumRep_of_unknown ht cls,
    fun d ht => ⟨fun hno => exec_enumRep_of_notMem ht (mt mem_enumClasses.mp hno), fun hcls hwf => ?_⟩⟩
  have hmem : cls ∈ enumClasses d := mem_enumClasses.mpr hcls
  obtain ⟨-, -, -, -, hrep⟩ := enumWf_iff.mp (configWf_enum hwf ht)
  obtain ⟨rep, hlookup, hrepFits, hrepCls, -⟩ := enumRepLaw_iff.mp (hrep cls hmem)
  have hexec : exec (.enumRep t cls) s = .next (s.answer (.code rep)) := by
    rw [exec_enumRep_of_mem ht hmem, enumRep_of_lookup hlookup]
  refine ⟨rep, _, hlookup, hexec, hexec, ?_⟩
  rw [exec_enumCanon_of_ok (s := s.answer _) (findEnumCode_of_fits ht hrepFits), hrepCls]

end Sys2Proof.Machine
end

section
/-! SUPPORT. Scaled magnitudes and split fields (42_field_codec.md sections 4 and 5): the two parts of a pattern and of a logical
value as numbers, and what SCL.DEC, SPL.COMB and SPL.SPLIT do to the whole state. -/

namespace Sys2Proof.Machine

/-! ### Scaled magnitudes -/

/-- With the exponent in the high bits the mantissa is the low byte (R70, R143). -/
theorem scaledMantissa_toNat {c : Config} (hc : c.sclExpHigh = true) (f : BitVec 10) :
    (scaledMantissa c f).toNat = f.toNat % 256 := by
  rw [scaledMantissa, if_pos hc, BitVec.extractLsb'_toNat, Nat.shiftRight_zero]

/-- With the exponent in the high bits it is what stands above the low byte (R70, R143). -/
theorem scaledExponent_toNat {c : Config} (hc : c.sclExpHigh = true) (f : BitVec 10) :
    (scaledExponent c f).toNat = f.toNat / 256 := by
  have hf := f.isLt
  rw [scaledExponent, if_pos hc, BitVec.extractLsb'_toNat, Nat.shiftRight_eq_div_pow]
  omega

/-- SCL.DEC answers the test of Auto and the two parts of the pattern (R143). -/
theorem exec_sclDec (f : BitVec 10) (s : State) : exec (.sclDec f) s =
    .next (s.answer (.scaled (decide (f = 0#10)) (scaledMantissa s.cfg f) (scaledExponent s.cfg f))) := rfl

/-- Settles O27: the two parts of a pattern are its remainder and its quotient by 256. -/
theorem sclDecSplitsThePattern : Obligations.SclDecSplitsThePattern :=
  fun f s hc => ⟨rfl, _, _, _, decide_eq_true_iff, scaledMantissa_toNat hc f, scaledExponent_toNat hc f, exec_sclDec f s⟩

/-! ### The parts of a logical value -/

theorem badSplit_eq_false {lw hw : BitVec 5} (hlw : lw ≠ 0#5) (hhw : hw ≠ 0#5) (hsum : lw.toNat + hw.toNat ≤ 32) :
    badSplit lw hw = false := by
  rw [← Bool.not_eq_true, badSplit_iff]
  rintro (h | h | h)
  · exact hlw h
  · exact hhw h
  · omega

/-- A high part of `h` bits above a low part of `l` bits takes `l + h` bits. -/
theorem join_lt {high low l h : Nat} (hhigh : high < 2 ^ h) (hlow : low < 2 ^ l) : high * 2 ^ l + low < 2 ^ (l + h) := by
  calc high * 2 ^ l + low < (high + 1) * 2 ^ l := by rw [Nat.succ_mul]; omega
    _ ≤ 2 ^ h * 2 ^ l := Nat.mul_le_mul_right _ hhigh
    _ = 2 ^ (l + h) := by rw [Nat.add_comm, Nat.pow_add]

/-- Joining two parts that fit is `high * 2 ^ lw + low` (R147). -/
theorem splitCombine_toNat {l h : Nat} (hsum : l + h ≤ 32) {high low : Reg32} (hhigh : high.toNat < 2 ^ h)
    (hlow : low.toNat < 2 ^ l) : (splitCombine l high low).toNat = high.toNat * 2 ^ l + low.toNat := by
  have hlt : high.toNat * 2 ^ l + low.toNat < 2 ^ 32 :=
    (join_lt hhigh hlow).trans_le (Nat.pow_le_pow_right (by decide) hsum)
  rw [splitCombine, BitVec.toNat_or, BitVec.toNat_shiftLeft, Nat.shiftLeft_eq, Nat.mod_eq_of_lt (by omega),
    Nat.mul_comm, Nat.two_pow_add_eq_or_of_lt hlow]

theorem splitHighPart_toNat (l : Nat) (x : Reg32) : (splitHighPart l x).toNat = x.toNat / 2 ^ l := by
  rw [splitHighPart, BitVec.toNat_ushiftRight, Nat.shiftRight_eq_div_pow]

theorem splitLowPart_toNat {l : Nat} (hl : l ≤ 32) (x : Reg32) : (splitLowPart l x).toNat = x.toNat % 2 ^ l := by
  rw [splitLowPart, BitVec.toNat_and, lowMask_toNat hl, Nat.and_two_pow_sub_one_eq_mod]

/-- The high part of a value of `l + h` bits fits `h` bits. -/
theorem splitHighPart_lt {l h : Nat} {x : Reg32} (hx : x.toNat < 2 ^ (l + h)) : (splitHighPart l x).toNat < 2 ^ h := by
  rw [splitHighPart_toNat]
  exact Nat.div_lt_of_lt_mul (Nat.pow_add 2 l h ▸ hx)

theorem splitLowPart_lt {l : Nat} (hl : l ≤ 32) (x : Reg32) : (splitLowPart l x).toNat < 2 ^ l := by
  rw [splitLowPart_toNat hl]
  exact Nat.mod_lt _ (Nat.two_pow_pos l)

/-- Joining the two parts of a value gives it back (R149). -/
theorem splitCombine_parts {l h : Nat} (hsum : l + h ≤ 32) {x : Reg32} (hx : x.toNat < 2 ^ (l + h)) :
    splitCombine l (splitHighPart l x) (splitLowPart l x) = x := by
  have hl : l ≤ 32 := by omega
  apply BitVec.eq_of_toNat_eq
  rw [splitCombine_toNat hsum (splitHighPart_lt hx) (splitLowPart_lt hl x), splitHighPart_toNat, splitLowPart_toNat hl,
    Nat.div_add_mod']

section
variable {l h : Nat} (hsum : l + h ≤ 32) {high low : Reg32} (hhigh : high.toNat < 2 ^ h) (hlow : low.toNat < 2 ^ l)
include hsum hhigh hlow

/-- The value of two joined parts takes the bits of both. -/
theorem splitCombine_lt : (splitCombine l high low).toNat < 2 ^ (l + h) := by
  rw [splitCombine_toNat hsum hhigh hlow]
  exact join_lt hhigh hlow

/-- The high part of two joined parts (R149). -/
theorem splitHighPart_splitCombine : splitHighPart l (splitCombine l high low) = high := by
  apply BitVec.eq_of_toNat_eq
  rw [splitHighPart_toNat, splitCombine_toNat hsum hhigh hlow, Nat.mul_comm,
    Nat.mul_add_div (Nat.two_pow_pos l), Nat.div_eq_of_lt hlow, Nat.add_zero]

/-- The low part of two joined parts (R149). -/
theorem splitLowPart_splitCombine : splitLowPart l (splitCombine l high low) = low := by
  apply BitVec.eq_of_toNat_eq
  rw [splitLowPart_toNat (by omega), splitCombine_toNat hsum hhigh hlow, Nat.mul_add_mod_self_right, Nat.mod_eq_of_lt hlow]

end

/-! ### SPL.COMB and SPL.SPLIT -/

section
variable {lw hw : BitVec 5} {high low logical : Reg32}

/-- SPL.COMB of illegal widths ends with IllegalOperand (R147). -/
theorem exec_splComb_of_bad (h : badSplit lw hw = true) (high low : Reg32) (s : State) :
    exec (.splComb lw hw high low) s = .next (s.raise (.illegalOperand (.splitWidths lw hw))) := by
  rw [exec, execSplComb, if_pos h, reply_error]

/-- SPL.COMB of a part that does not fit ends with IllegalOperand (R147). -/
theorem exec_splComb_of_tooWide (h : badSplit lw hw = false)
    (hwide : 2 ^ hw.toNat ≤ high.toNat ∨ 2 ^ lw.toNat ≤ low.toNat) (s : State) :
    exec (.splComb lw hw high low) s = .next (s.raise (.illegalOperand (.splitParts high low))) := by
  rw [exec, execSplComb, if_neg (ne_true_of_eq_false h), if_pos, reply_error]
  rwa [Bool.or_eq_true, tooWide_iff, tooWide_iff]

/-- SPL.COMB of two parts that fit answers the joined value (R147). -/
theorem exec_splComb_of_fits (h : badSplit lw hw = false) (hhigh : high.toNat < 2 ^ hw.toNat)
    (hlow : low.toNat < 2 ^ lw.toNat) (s : State) :
    exec (.splComb lw hw high low) s = .next (s.answer (.logical (splitCombine lw.toNat high low))) := by
  rw [exec, execSplComb, if_neg (ne_true_of_eq_false h), (tooWide_eq_false _ _).mpr hhigh,
    (tooWide_eq_false _ _).mpr hlow, Bool.or_self, if_neg Bool.false_ne_true, reply_ok]

/-- SPL.SPLIT of illegal widths ends with IllegalOperand (R148). -/
theorem exec_splSplit_of_bad (h : badSplit lw hw = true) (logical : Reg32) (s : State) :
    exec (.splSplit lw hw logical) s = .next (s.raise (.illegalOperand (.splitWidths lw hw))) := by
  rw [exec, execSplSplit, if_pos h, reply_error]

/-- SPL.SPLIT of a value that does not fit ends with IllegalOperand (R148). -/
theorem exec_splSplit_of_tooWide (h : badSplit lw hw = false) (hwide : 2 ^ (lw.toNat + hw.toNat) ≤ logical.toNat)
    (s : State) : exec (.splSplit lw hw logical) s = .next (s.raise (.illegalOperand (.logical logical))) := by
  rw [exec, execSplSplit, if_neg (ne_true_of_eq_false h), if_pos ((tooWide_iff _ _).mpr hwide), reply_error]

/-- SPL.SPLIT of a value that fits answers its two parts (R148). -/
theorem exec_splSplit_of_fits (h : badSplit lw hw = false) (hfits : logical.toNat < 2 ^ (lw.toNat + hw.toNat))
    (s : State) : exec (.splSplit lw hw logical) s =
      .next (s.answer (.parts (splitHighPart lw.toNat logical) (splitLowPart lw.toNat logical))) := by
  rw [exec, execSplSplit, if_neg (ne_true_of_eq_false h), (tooWide_eq_false _ _).mpr hfits, if_neg Bool.false_ne_true,
    reply_ok]

end

/-- Settles O29: the tests of widths and values decide, and the parts are quotient and remainder. -/
theorem splitOperationsJoinAndCut : Obligations.SplitOperationsJoinAndCut :=
  ⟨fun lw hw high low s => ⟨rfl, fun hbad => exec_splComb_of_bad ((badSplit_iff lw hw).mpr hbad) high low s,
      fun hlw hhw hsum hwide => exec_splComb_of_tooWide (badSplit_eq_false hlw hhw hsum) hwide s,
      fun hlw hhw hsum hhigh hlow => ⟨_, splitCombine_toNat hsum hhigh hlow,
        exec_splComb_of_fits (badSplit_eq_false hlw hhw hsum) hhigh hlow s⟩⟩,
    fun lw hw l s => ⟨rfl, fun hbad => exec_splSplit_of_bad ((badSplit_iff lw hw).mpr hbad) l s,
      fun hlw hhw hsum hwide => exec_splSplit_of_tooWide (badSplit_eq_false hlw hhw hsum) hwide s,
      fun hlw hhw hsum hfits => ⟨_, _, splitHighPart_toNat _ l, splitLowPart_toNat (by omega) l,
        exec_splSplit_of_fits (badSplit_eq_false hlw hhw hsum) hfits s⟩⟩⟩

/-- Settles O30: what one operation answers fits the other, and joining and cutting undo each other. -/
theorem splitLaws : Obligations.SplitLaws := by
  intro lw hw s hlw hhw hsum
  have hlegal : badSplit lw hw = false := badSplit_eq_false hlw hhw hsum
  refine ⟨fun l hl => ⟨_, _, _, exec_splSplit_of_fits hlegal hl s, rfl, ?_⟩,
    fun high low hhigh hlow => ⟨_, _, exec_splComb_of_fits hlegal hhigh hlow s, rfl, ?_⟩⟩
  · rw [exec_splComb_of_fits hlegal (splitHighPart_lt hl) (splitLowPart_lt (by omega) l), splitCombine_parts hsum hl]
  · rw [exec_splSplit_of_fits hlegal (splitCombine_lt hsum hhigh hlow), splitHighPart_splitCombine hsum hhigh hlow,
      splitLowPart_splitCombine hsum hhigh hlow]

end Sys2Proof.Machine
end

section
/-! SUPPORT. Equality by meaning (42_field_codec.md sections 6 and 7): under each policy EQ.FLD accepts patterns one by one and
compares the accepted ones by an equivalence relation; EQ.REG does so field by field. -/

namespace Sys2Proof.Machine

/-! ### The relation of a policy -/

/-- EQ.FLD accepts the pattern under the policy (R151): under canon the table is known and the pattern is one of its
codes, under value it has 10 bits. -/
def accepts (c : Config) (t : Byte) (a : Reg32) : Policy → Prop
  | .raw => True
  | .canon => ∃ d, enumTable? c t = some d ∧ a.toNat < 2 ^ d.width
  | .value => a.toNat < 2 ^ 10
  | .ignore => True

/-- Two patterns mean the same under the policy (R150): the same pattern, the same class, the same number, or anything. -/
def sameMeaning (c : Config) (t : Byte) (a b : Reg32) : Policy → Prop
  | .raw => a = b
  | .canon => ∀ d, enumTable? c t = some d → enumClass d (a.setWidth 8) = enumClass d (b.setWidth 8)
  | .value => scaledEqual c (a.setWidth 10) (b.setWidth 10) = true
  | .ignore => True

/-- Under the policy value two numbers are compared by cross-multiplication (R151). -/
theorem scaledEqual_of_ne {c : Config} {a b : BitVec 10} (ha : a ≠ 0#10) (hb : b ≠ 0#10) :
    scaledEqual c a b = true ↔ (scaledMantissa c a).toNat * 10 ^ (scaledExponent c b).toNat =
      (scaledMantissa c b).toNat * 10 ^ (scaledExponent c a).toNat := by
  rw [scaledEqual, if_neg (not_or.mpr ⟨ha, hb⟩), scaledCross, decide_eq_true_iff]

/-- Under the policy value Auto equals Auto alone (R151). -/
theorem scaledEqual_of_zero {c : Config} {a b : BitVec 10} (h : a = 0#10 ∨ b = 0#10) :
    scaledEqual c a b = true ↔ a = b := by
  rw [scaledEqual, if_pos h, decide_eq_true_iff]

/-- Cross-multiplied numbers `m / 10 ^ e` compare transitively. -/
theorem cross_trans {m₁ m₂ m₃ e₁ e₂ e₃ : Nat} (h₁₂ : m₁ * 10 ^ e₂ = m₂ * 10 ^ e₁) (h₂₃ : m₂ * 10 ^ e₃ = m₃ * 10 ^ e₂) :
    m₁ * 10 ^ e₃ = m₃ * 10 ^ e₁ := by
  refine Nat.eq_of_mul_eq_mul_right (show 0 < 10 ^ e₂ by positivity) ?_
  calc m₁ * 10 ^ e₃ * 10 ^ e₂ = m₁ * 10 ^ e₂ * 10 ^ e₃ := by ring
    _ = m₂ * 10 ^ e₃ * 10 ^ e₁ := by rw [h₁₂]; ring
    _ = m₃ * 10 ^ e₁ * 10 ^ e₂ := by rw [h₂₃]; ring

/-- Auto is equal to itself alone, so numbers and Auto never mix along a chain of equalities. -/
theorem scaledEqual_zero_iff {c : Config} {a b : BitVec 10} (h : scaledEqual c a b = true) : a = 0#10 ↔ b = 0#10 := by
  constructor <;> rintro rfl
  · exact ((scaledEqual_of_zero (.inl rfl)).mp h).symm
  · exact (scaledEqual_of_zero (.inr rfl)).mp h

theorem scaledEqual_refl (c : Config) (a : BitVec 10) : scaledEqual c a a = true := by
  by_cases ha : a = 0#10
  · exact (scaledEqual_of_zero (.inl ha)).mpr rfl
  · exact (scaledEqual_of_ne ha ha).mpr rfl

theorem scaledEqual_symm {c : Config} {a b : BitVec 10} (h : scaledEqual c a b = true) : scaledEqual c b a = true := by
  by_cases ha : a = 0#10
  · rw [ha, (scaledEqual_zero_iff h).mp ha]
    exact scaledEqual_refl c _
  · have hb : b ≠ 0#10 := mt (scaledEqual_zero_iff h).mpr ha
    exact (scaledEqual_of_ne hb ha).mpr ((scaledEqual_of_ne ha hb).mp h).symm

theorem scaledEqual_trans {c : Config} {a b x : BitVec 10} (hab : scaledEqual c a b = true)
    (hbx : scaledEqual c b x = true) : scaledEqual c a x = true := by
  by_cases ha : a = 0#10
  · rw [ha, (scaledEqual_zero_iff hbx).mp ((scaledEqual_zero_iff hab).mp ha)]
    exact scaledEqual_refl c _
  · have hb : b ≠ 0#10 := mt (scaledEqual_zero_iff hab).mpr ha
    have hx : x ≠ 0#10 := mt (scaledEqual_zero_iff hbx).mpr hb
    exact (scaledEqual_of_ne ha hx).mpr (cross_trans ((scaledEqual_of_ne ha hb).mp hab) ((scaledEqual_of_ne hb hx).mp hbx))

/-- Equality under every policy is reflexive, symmetric and transitive (R151). -/
theorem sameMeaning_equivalence (c : Config) (t : Byte) (p : Policy) :
    Equivalence fun a b => sameMeaning c t a b p := by
  cases p with
  | raw => exact eq_equivalence
  | canon => exact ⟨fun _ _ _ => rfl, fun h d ht => (h d ht).symm, fun h h' d ht => (h d ht).trans (h' d ht)⟩
  | value => exact ⟨fun _ => scaledEqual_refl c _, scaledEqual_symm, scaledEqual_trans⟩
  | ignore => exact ⟨fun _ => trivial, fun _ => trivial, fun _ _ => trivial⟩

/-! ### EQ.FLD -/

/-- EQ.FLD under the policy canon and a known table, whose every code has a class. -/
theorem fieldEqual_canon {c : Config} {t : Byte} {d : EnumDesc} (ht : enumTable? c t = some d) (a b : Reg32) :
    fieldEqual c .canon t a b = if tooWide d.width a || tooWide d.width b then .error (.patterns a b)
      else .ok (decide (enumClass d (a.setWidth 8) = enumClass d (b.setWidth 8))) := by
  simp only [fieldEqual, ht]

/-- A comparison behind a test answers exactly when the test passes, and then as the comparison decides. -/
theorem ite_error_ok_iff {bad : Bool} {o : BadOperand} {P : Prop} [Decidable P] {e : Bool} :
    (if bad then Except.error o else .ok (decide P)) = .ok e ↔ bad = false ∧ (e = true ↔ P) := by
  cases bad <;> cases e <;> simp

/-- EQ.FLD answers exactly when the policy accepts both patterns, and then whether they mean the same. -/
theorem fieldEqual_ok_iff {c : Config} {t : Byte} {a b : Reg32} {p : Policy} {e : Bool} :
    fieldEqual c p t a b = .ok e ↔ accepts c t a p ∧ accepts c t b p ∧ (e = true ↔ sameMeaning c t a b p) := by
  cases p with
  | raw => cases e <;> simp [fieldEqual, accepts, sameMeaning]
  | canon =>
    cases ht : enumTable? c t with
    | none => simp [fieldEqual, accepts, ht]
    | some d =>
      rw [fieldEqual_canon ht, ite_error_ok_iff, Bool.or_eq_false_iff, tooWide_eq_false, tooWide_eq_false]
      simp [accepts, sameMeaning, ht, and_assoc]
  | value =>
    rw [fieldEqual, ← Bool.decide_eq_true (b := scaledEqual c _ _), ite_error_ok_iff, Bool.or_eq_false_iff,
      tooWide_eq_false, tooWide_eq_false, and_assoc]
    rfl
  | ignore => cases e <;> simp [fieldEqual, accepts, sameMeaning]

section
variable {p : Policy} {t : Byte} {a b : Reg32} {s : State}

theorem exec_eqFld_of_error {o : BadOperand} (h : fieldEqual s.cfg p t a b = .error o) :
    exec (.eqFld p t a b) s = .next (s.raise (.illegalOperand o)) := by
  rw [exec, execEqFld, h]
  rfl

theorem exec_eqFld_of_ok {e : Bool} (h : fieldEqual s.cfg p t a b = .ok e) :
    exec (.eqFld p t a b) s = .next (s.answer (.equal e)) := by
  rw [exec, execEqFld, h]
  rfl

/-- EQ.FLD ends OK with what `fieldEqual` answers (R151). -/
theorem exec_eqFld_answer_iff {e : Bool} :
    exec (.eqFld p t a b) s = .next (s.answer (.equal e)) ↔ fieldEqual s.cfg p t a b = .ok e := by
  refine ⟨fun h => ?_, exec_eqFld_of_ok⟩
  cases hf : fieldEqual s.cfg p t a b with
  | error o =>
    rw [exec_eqFld_of_error hf] at h
    exact absurd h (by simp [State.answer, State.raise])
  | ok e' =>
    rw [exec_eqFld_of_ok hf] at h
    simpa [State.answer] using h

/-- EQ.FLD under the policy canon of a pattern wider than the table ends with IllegalOperand (R151). -/
theorem exec_eqFld_canon_of_tooWide {d : EnumDesc} (ht : enumTable? s.cfg t = some d)
    (h : 2 ^ d.width ≤ a.toNat ∨ 2 ^ d.width ≤ b.toNat) :
    exec (.eqFld .canon t a b) s = .next (s.raise (.illegalOperand (.patterns a b))) := by
  refine exec_eqFld_of_error ?_
  rw [fieldEqual_canon ht, if_pos]
  rwa [Bool.or_eq_true, tooWide_iff, tooWide_iff]

/-- EQ.FLD under the policy value of a pattern of more than 10 bits ends with IllegalOperand (R151). -/
theorem exec_eqFld_value_of_tooWide (h : 2 ^ 10 ≤ a.toNat ∨ 2 ^ 10 ≤ b.toNat) :
    exec (.eqFld .value t a b) s = .next (s.raise (.illegalOperand (.patterns a b))) := by
  refine exec_eqFld_of_error ?_
  rw [fieldEqual, if_pos]
  rwa [Bool.or_eq_true, tooWide_iff, tooWide_iff]

/-- EQ.FLD under the policy value of two 10-bit patterns answers whether they are the same number (R151). -/
theorem exec_eqFld_value_of_fits (ha : a.toNat < 2 ^ 10) (hb : b.toNat < 2 ^ 10) :
    exec (.eqFld .value t a b) s =
      .next (s.answer (.equal (scaledEqual s.cfg (a.setWidth 10) (b.setWidth 10)))) :=
  exec_eqFld_of_ok (fieldEqual_ok_iff.mpr ⟨ha, hb, Iff.rfl⟩)

end

/-- A pattern of 10 bits keeps its value in a 10-bit word. -/
theorem setWidth_ten_toNat {a : Reg32} (ha : a.toNat < 2 ^ 10) : (a.setWidth 10).toNat = a.toNat := by
  rw [BitVec.toNat_setWidth, Nat.mod_eq_of_lt ha]

/-- Patterns of 10 bits are equal when their 10-bit words are. -/
theorem setWidth_ten_inj {a b : Reg32} (ha : a.toNat < 2 ^ 10) (hb : b.toNat < 2 ^ 10) :
    a.setWidth 10 = b.setWidth 10 ↔ a = b := by
  rw [← BitVec.toNat_inj, setWidth_ten_toNat ha, setWidth_ten_toNat hb, BitVec.toNat_inj]

/-- A pattern of 10 bits is Auto when its 10-bit word is. -/
theorem setWidth_ten_eq_zero {a : Reg32} (ha : a.toNat < 2 ^ 10) : a.setWidth 10 = 0#10 ↔ a = 0#32 :=
  setWidth_ten_inj ha (b := 0#32) (by decide)

/-- Settles O31: the accepted patterns are compared by the relation of the policy, which is an equivalence. -/
theorem eqFldComparesUnderItsPolicy : Obligations.EqFldComparesUnderItsPolicy := by
  refine ⟨fun t a b s => ⟨fun _ => rfl, ⟨_, decide_eq_true_iff, rfl⟩, fun ht => ?_, fun d ht => ⟨?_, fun ha hb => ?_⟩,
    exec_eqFld_value_of_tooWide, fun hc ha hb => ?_, rfl⟩, fun p t s => ⟨fun a b e h => ?_, fun a b x hab hbx => ?_⟩⟩
  · exact exec_eqFld_of_error (by rw [fieldEqual, ht])
  · exact exec_eqFld_canon_of_tooWide ht
  · refine ⟨_, decide_eq_true_iff, exec_eqFld_of_ok (fieldEqual_ok_iff.mpr ⟨⟨d, ht, ha⟩, ⟨d, ht, hb⟩, ?_⟩)⟩
    simp [sameMeaning, ht]
  · refine ⟨_, fun hzero => ?_, fun hna hnb => ?_, exec_eqFld_value_of_fits ha hb⟩
    · rw [← setWidth_ten_eq_zero ha, ← setWidth_ten_eq_zero hb] at hzero
      rw [scaledEqual_of_zero hzero, setWidth_ten_inj ha hb]
    · rw [scaledEqual_of_ne (mt (setWidth_ten_eq_zero ha).mp hna) (mt (setWidth_ten_eq_zero hb).mp hnb),
        scaledMantissa_toNat hc, scaledMantissa_toNat hc, scaledExponent_toNat hc, scaledExponent_toNat hc,
        setWidth_ten_toNat ha, setWidth_ten_toNat hb]
  · have hequiv := sameMeaning_equivalence s.cfg t p
    rw [exec_eqFld_answer_iff, fieldEqual_ok_iff] at h ⊢
    rw [exec_eqFld_answer_iff, fieldEqual_ok_iff]
    obtain ⟨ha, hb, he⟩ := h
    exact ⟨⟨ha, ha, iff_of_true rfl (hequiv.refl a)⟩, hb, ha, he.trans ⟨hequiv.symm, hequiv.symm⟩⟩
  · rw [exec_eqFld_answer_iff, fieldEqual_ok_iff] at hab hbx ⊢
    obtain ⟨ha, -, hab⟩ := hab
    obtain ⟨-, hx, hbx⟩ := hbx
    exact ⟨ha, hx, iff_of_true rfl ((sameMeaning_equivalence s.cfg t p).trans (hab.mp rfl) (hbx.mp rfl))⟩

/-! ### The fields of a well-formed register -/

/-- A well-formed field that names a table names a known one of the field's width (R131). -/
theorem kindWf_table {c : Config} {width : BitVec 6} {kind : FieldKind} {t : Byte} (h : kindWf c width kind = true)
    (ht : kindTable kind = some t) : ∃ d, enumTable? c t = some d ∧ width.toNat = d.width := by
  cases kind with
  | enumExhaustive t' | enumPartial t' =>
    cases ht
    unfold kindWf at h
    cases hd : enumTable? c t with
    | none => simp [hd] at h
    | some d => exact ⟨d, rfl, by simp_all⟩
  | _ => cases ht

/-- A field whose policy is value is a scaled magnitude (R150), so it has 10 bits (R131). -/
theorem width_of_policy_value {c : Config} {width : BitVec 6} {kind : FieldKind} (h : kindWf c width kind = true)
    (hp : policyWf kind .value = true) : width.toNat = 10 := by
  cases kind with
  | scaled shift => exact of_decide_eq_true h
  | _ => cases hp

/-- A well-formed field's policy accepts every slice of the field (R152). -/
theorem accepts_slice {c : Config} {F : FieldDesc} (h : fieldWf c F = true) (v : Reg32) :
    accepts c (fieldTable F) (sliceGet F.lsb.toNat F.width.toNat v) F.policy := by
  obtain ⟨-, hpos⟩ := fieldWf_position h
  have hlt := sliceGet_lt (w := F.width.toNat) (by omega) F.lsb.toNat v
  simp only [fieldWf, Bool.and_eq_true] at h
  obtain ⟨⟨-, hkind⟩, hpolicy⟩ := h
  cases hp : F.policy with
  | raw | ignore => trivial
  | canon =>
    rw [hp] at hpolicy
    obtain ⟨t, ht⟩ := Option.isSome_iff_exists.mp hpolicy
    obtain ⟨d, hd, hwidth⟩ := kindWf_table hkind ht
    exact ⟨d, by rw [fieldTable, ht, Option.getD_some, hd], hwidth ▸ hlt⟩
  | value =>
    rw [hp] at hpolicy
    exact width_of_policy_value hkind hpolicy ▸ hlt

/-! ### EQ.REG -/

/-- The two values mean the same in a field, under the field's policy. -/
def sameField (c : Config) (a b : Reg32) (F : FieldDesc) : Prop :=
  sameMeaning c (fieldTable F) (sliceGet F.lsb.toNat F.width.toNat a) (sliceGet F.lsb.toNat F.width.toNat b) F.policy

/-- EQ.FLD compares the slices of a well-formed field. -/
theorem fieldEqual_slices_iff {c : Config} {F : FieldDesc} (h : fieldWf c F = true) (a b : Reg32) (e : Bool) :
    fieldEqual c F.policy (fieldTable F) (sliceGet F.lsb.toNat F.width.toNat a) (sliceGet F.lsb.toNat F.width.toNat b)
      = .ok e ↔ (e = true ↔ sameField c a b F) := by
  rw [fieldEqual_ok_iff]
  exact ⟨fun ⟨_, _, he⟩ => he, fun he => ⟨accepts_slice h a, accepts_slice h b, he⟩⟩

/-- The loop of EQ.REG over well-formed fields finds no illegal operand, and answers whether every field is the same. -/
theorem fieldsEqual_of_wf {c : Config} (a b : Reg32) {Fs : List FieldDesc} (h : ∀ F ∈ Fs, fieldWf c F = true) :
    ∃ e, fieldsEqual c a b Fs = .ok e ∧ (e = true ↔ ∀ F ∈ Fs, sameField c a b F) := by
  induction Fs with
  | nil => exact ⟨true, rfl, by simp⟩
  | cons F Fs ih =>
    rw [List.forall_mem_cons] at h
    obtain ⟨hF, hFs⟩ := h
    obtain ⟨es, hes, hiff⟩ := ih hFs
    obtain ⟨e, he⟩ : ∃ e : Bool, e = true ↔ sameField c a b F := by
      classical exact ⟨decide (sameField c a b F), decide_eq_true_iff⟩
    refine ⟨e && es, ?_, by rw [Bool.and_eq_true, he, hiff, List.forall_mem_cons]⟩
    simp only [fieldsEqual, (fieldEqual_slices_iff hF a b e).mpr he, hes]

section
variable {s : State} {r : Byte} {d : RegDesc} (hwf : configWf s.cfg = true) (hr : regTemplate? s.cfg r = some d)
  (hlen : d.len = .l32)
include hwf hr hlen

/-- EQ.REG of a known L32 register ends OK, equal exactly when every field is the same after the Invert hooks (R156). -/
theorem exec_eqReg_of_wf (a b : Reg32) : ∃ e, exec (.eqReg r a b) s = .next (s.answer (.equal e)) ∧
    (e = true ↔ ∀ F ∈ d.fields, sameField s.cfg (undoHooks d.hooks a) (undoHooks d.hooks b) F) := by
  obtain ⟨e, hfields, he⟩ := fieldsEqual_of_wf (undoHooks d.hooks a) (undoHooks d.hooks b)
    fun F hF => regWf_field (configWf_reg hwf hr) hF
  refine ⟨e, ?_, he⟩
  have hreg : registerEqual s.cfg r a b = .ok e := by rw [registerEqual, hr, ← hfields]
  rw [exec, execEqReg_of_l32 hr hlen, hreg]
  rfl

/-- EQ.REG of values whose fields are all the same after the Invert hooks. -/
theorem exec_eqReg_of_same {a b : Reg32}
    (h : ∀ F ∈ d.fields, sameField s.cfg (undoHooks d.hooks a) (undoHooks d.hooks b) F) :
    exec (.eqReg r a b) s = .next (s.answer (.equal true)) := by
  obtain ⟨e, hexec, he⟩ := exec_eqReg_of_wf hwf hr hlen a b
  rw [hexec, he.mpr h]

end

/-- EQ.REG of an unknown register ends with IllegalOperand (R156). -/
theorem exec_eqReg_of_unknown {s : State} {r : Byte} (hr : regTemplate? s.cfg r = none) (a b : Reg32) :
    exec (.eqReg r a b) s = .next (s.raise (.illegalOperand (.register r))) := by
  have hin : outsideCodec s.cfg r = false := by rw [outsideCodec, hr]
  have hreg : registerEqual s.cfg r a b = .error (.register r) := by rw [registerEqual, hr]
  rw [exec, execEqReg, if_neg (ne_true_of_eq_false hin), hreg]
  rfl

/-- The pre-decode hooks work bit by bit: values that agree in a bit agree in it afterwards. -/
theorem undoHooks_bit_congr (hs : List Hook) {a b : Reg32} {k : Nat} (h : a.getLsbD k = b.getLsbD k) :
    (undoHooks hs a).getLsbD k = (undoHooks hs b).getLsbD k := by
  obtain ⟨mask, hmask⟩ := undoHooks_eq_xor hs
  rw [hmask, hmask, BitVec.getLsbD_xor, BitVec.getLsbD_xor, h]

/-- A field is the same in values that agree in its bits, and under the policy ignore in all values. -/
theorem sameField_of_bits {c : Config} {F : FieldDesc} (hpos : F.lsb.toNat + F.width.toNat ≤ 32) {a b : Reg32}
    (h : F.policy ≠ .ignore → ∀ k, F.lsb.toNat ≤ k → k < F.lsb.toNat + F.width.toNat → a.getLsbD k = b.getLsbD k) :
    sameField c a b F := by
  by_cases hp : F.policy = .ignore
  · rw [sameField, hp]
    trivial
  · rw [sameField, sliceGet_congr hpos (h hp)]
    exact (sameMeaning_equivalence c _ _).refl _

/-- Settles O33: EQ.REG compares the same slices as EQ.FLD, and every policy finds equal slices equal. -/
theorem eqRegComparesFieldByField : Obligations.EqRegComparesFieldByField := by
  refine fun r a b s hwf => ⟨rfl, fun hr => exec_eqReg_of_unknown hr a b, fun d hr hlen => ?_⟩
  have hfield : ∀ F ∈ d.fields, fieldWf s.cfg F = true := fun F hF => regWf_field (configWf_reg hwf hr) hF
  refine ⟨?_, ?_, fun hbits => ?_⟩
  · obtain ⟨e, hexec, he⟩ := exec_eqReg_of_wf hwf hr hlen a b
    refine ⟨e, hexec, he.trans (forall₂_congr fun F hF => ?_)⟩
    rw [exec_eqFld_answer_iff, fieldEqual_slices_iff (hfield F hF), iff_true_left rfl]
  · exact exec_eqReg_of_same hwf hr hlen fun F _ => (sameMeaning_equivalence _ _ _).refl _
  · refine exec_eqReg_of_same hwf hr hlen fun F hF => ?_
    obtain ⟨-, hpos⟩ := fieldWf_position (hfield F hF)
    refine sameField_of_bits hpos fun hp k hlow hhigh => undoHooks_bit_congr d.hooks ?_
    exact hbits k (by omega) ⟨F, hF, hp, hlow, hhigh⟩

end Sys2Proof.Machine
end

section
/-! SUPPORT. The hooks (42_field_codec.md section 8): the bits POST.INV and POST.PAR write, and the number of ones a parity bit
completes. -/

namespace Sys2Proof.Machine

/-! ### POST.INV -/

/-- Each bit of the mask inverts its bit (R158). -/
theorem invertBits_bit (mask v : Reg32) (k : Nat) :
    (invertBits mask v).getLsbD k = if mask.getLsbD k then !v.getLsbD k else v.getLsbD k := by
  rw [invertBits, BitVec.getLsbD_xor]
  cases mask.getLsbD k <;> simp

/-- POST.INV answers the inverted value (R158). -/
theorem exec_postInv (mask v : Reg32) (s : State) : exec (.postInv mask v) s = .next (s.answer (.value (invertBits mask v))) := rfl

/-! ### POST.PAR -/

/-- The exclusive-or of the low bits is the parity of the number of ones among them. -/
theorem sum_bits_mod_two (x : Reg32) (n : Nat) :
    (∑ k ∈ Finset.range n, (x.getLsbD k).toNat) % 2 = (parityBits x n).toNat := by
  induction n with
  | zero => rfl
  | succ n ih =>
    rw [Finset.sum_range_succ, Nat.add_mod, ih, parityBits]
    cases x.getLsbD n <;> cases parityBits x n <;> rfl

/-- POST.PAR of a parity bit inside its own cover ends with IllegalOperand (R159). -/
theorem exec_postPar_of_covered {pos : BitVec 5} {cover : Reg32} (h : cover.getLsbD pos.toNat = true) (odd : Bool)
    (v : Reg32) (s : State) :
    exec (.postPar pos cover odd v) s = .next (s.raise (.illegalOperand (.parity pos cover))) := by
  rw [exec, execPostPar, if_pos h, reply_error]

/-- POST.PAR of a parity bit outside its cover answers the value with the parity bit written (R159). -/
theorem exec_postPar_of_uncovered {pos : BitVec 5} {cover : Reg32} (h : cover.getLsbD pos.toNat = false) (odd : Bool)
    (v : Reg32) (s : State) :
    exec (.postPar pos cover odd v) s = .next (s.answer (.value (writeParity pos.toNat cover odd v))) := by
  rw [exec, execPostPar, if_neg (ne_true_of_eq_false h), reply_ok]

/-- The parity bit alone is written (R159). -/
theorem writeParity_bit (pos : BitVec 5) (cover : Reg32) (odd : Bool) (v : Reg32) {k : Nat} (hk : k < 32) :
    (writeParity pos.toNat cover odd v).getLsbD k =
      if k = pos.toNat then xor (parityBits (v &&& cover) 32) odd else v.getLsbD k := by
  rw [writeParity, bitPut_bit pos v _ hk]
  simp

/-- The ones among the covered bits and bit `pos` of a value are counted by those two parts. -/
theorem card_covered_or_pos {pos : BitVec 5} {cover : Reg32} (h : cover.getLsbD pos.toNat = false) (v : Reg32) :
    ((Finset.range 32).filter fun k => v.getLsbD k = true ∧ (cover.getLsbD k = true ∨ k = pos.toNat)).card =
      ∑ k ∈ Finset.range 32, ((v &&& cover).getLsbD k).toNat + (v.getLsbD pos.toNat).toNat := by
  have hpos : pos.toNat ∈ Finset.range 32 := Finset.mem_range.mpr pos.isLt
  calc ((Finset.range 32).filter fun k => v.getLsbD k = true ∧ (cover.getLsbD k = true ∨ k = pos.toNat)).card
      = ∑ k ∈ Finset.range 32, (((v &&& cover).getLsbD k).toNat + if k = pos.toNat then (v.getLsbD k).toNat else 0) := by
        rw [Finset.card_filter]
        refine Finset.sum_congr rfl fun k _ => ?_
        rw [BitVec.getLsbD_and]
        by_cases hk : k = pos.toNat
        · rw [hk, h]
          cases v.getLsbD pos.toNat <;> simp
        · cases v.getLsbD k <;> cases cover.getLsbD k <;> simp [hk]
    _ = _ := by rw [Finset.sum_add_distrib, Finset.sum_ite_eq' (Finset.range 32), if_pos hpos]

/-- The covered bits are those of the value before: the parity bit is outside its cover. -/
theorem writeParity_and_cover {pos : BitVec 5} {cover : Reg32} (h : cover.getLsbD pos.toNat = false) (odd : Bool) (v : Reg32) :
    writeParity pos.toNat cover odd v &&& cover = v &&& cover := by
  refine BitVec.eq_of_getLsbD_eq fun k hk => ?_
  rw [BitVec.getLsbD_and, BitVec.getLsbD_and, writeParity_bit pos cover odd v hk]
  by_cases hpos : k = pos.toNat
  · rw [hpos, h, Bool.and_false, Bool.and_false]
  · rw [if_neg hpos]

/-- The number of ones among the covered bits and the parity bit has the parity asked for (R159). -/
theorem card_writeParity_mod_two {pos : BitVec 5} {cover : Reg32} (h : cover.getLsbD pos.toNat = false) (odd : Bool)
    (v : Reg32) :
    ((Finset.range 32).filter fun k => (writeParity pos.toNat cover odd v).getLsbD k = true ∧
      (cover.getLsbD k = true ∨ k = pos.toNat)).card % 2 = odd.toNat := by
  rw [card_covered_or_pos h, writeParity_and_cover h, writeParity_bit pos cover odd v pos.isLt, if_pos rfl, Nat.add_mod,
    sum_bits_mod_two]
  cases parityBits (v &&& cover) 32 <;> cases odd <;> rfl

/-- Settles O34: an inversion bit by bit undoes itself, and the parity bit completes the parity of the bits it covers. -/
theorem hooksInvertAndWriteParity : Obligations.HooksInvertAndWriteParity := by
  refine ⟨fun mask v s => ⟨rfl, _, fun k _ => invertBits_bit mask v k, exec_postInv mask v s, ?_⟩,
    fun pos cover odd v s => ⟨rfl, fun h => exec_postPar_of_covered h odd v s, fun h =>
      ⟨_, fun k hk hne => (writeParity_bit pos cover odd v hk).trans (if_neg hne), card_writeParity_mod_two h odd v,
        exec_postPar_of_uncovered h odd v s⟩⟩⟩
  rw [exec_postInv, invertBits_invertBits]

end Sys2Proof.Machine
end

section
/-! SUPPORT. Whole registers (R153, R154 of 42_field_codec.md): the loops of REG.PACK and REG.UNPACK as functions of the register
value, over a state in which they write the outputs alone. -/

namespace Sys2Proof.Machine

/-! ### Writing the outputs alone -/

/-- The two states differ in their outputs at most. -/
def onlyOutputs (s t : State) : Prop := t.crc = s.crc ∧ t.cfg = s.cfg ∧ t.inputs = s.inputs

theorem onlyOutputs_refl (s : State) : onlyOutputs s s := ⟨rfl, rfl, rfl⟩

theorem onlyOutputs_answer (s : State) (r : Results) : onlyOutputs s (s.answer r) := ⟨rfl, rfl, rfl⟩

theorem onlyOutputs_raise (s : State) (e : Raise) : onlyOutputs s (s.raise e) := ⟨rfl, rfl, rfl⟩

theorem onlyOutputs_trans {s t u : State} (hst : onlyOutputs s t) (htu : onlyOutputs t u) : onlyOutputs s u := by
  obtain ⟨hcrc, hcfg, hinputs⟩ := hst
  obtain ⟨hcrc', hcfg', hinputs'⟩ := htu
  exact ⟨hcrc'.trans hcrc, hcfg'.trans hcfg, hinputs'.trans hinputs⟩

/-! ### Operations inside a pseudo-operation -/

theorem issueValue_ok {i : Instr} {s : State} {v : Reg32} (h : exec i s = .next (s.answer (.value v))) :
    (issueValue i).from s = (.ok v, s.answer (.value v)) := by
  rw [issueValue, Pseudo.from_bind_ok (issue_ok h rfl)]
  rfl

theorem issueValue_raised {i : Instr} {s : State} {e : Raise} (h : exec i s = .next (s.raise e)) :
    (issueValue i).from s = (.error (.raised e), s.raise e) := by
  rw [issueValue, Pseudo.from_bind_error (issue_raised h rfl)]

theorem issueField_ok {i : Instr} {s : State} {f : Reg32} (h : exec i s = .next (s.answer (.field f))) :
    (issueField i).from s = (.ok f, s.answer (.field f)) := by
  rw [issueField, Pseudo.from_bind_ok (issue_ok h rfl)]
  rfl

theorem findTemplate_of_l32 {r : Byte} {d : RegDesc} {s : State} (hr : regTemplate? s.cfg r = some d) (hlen : d.len = .l32) :
    (findTemplate r).from s = (.ok d, s) := by
  simp only [findTemplate_from, hr, if_pos hlen]

theorem findTemplate_of_unknown {r : Byte} {s : State} (hr : regTemplate? s.cfg r = none) :
    (findTemplate r).from s = (.error (.raised (.illegalOperand (.register r))), s) := by
  simp only [findTemplate_from, hr]

/-! ### REG.UNPACK -/

/-- The pre-decode hooks commute, so their order does not matter (R154). -/
theorem undoHooks_reverse (hs : List Hook) (v : Reg32) : undoHooks hs.reverse v = undoHooks hs v := by
  induction hs generalizing v with
  | nil => rfl
  | cons h hs ih =>
    rw [List.reverse_cons, undoHooks_append, ih]
    obtain ⟨mask, hmask⟩ := undoHooks_eq_xor hs
    cases h with
    | invert m => simp only [undoHooks, hmask, invertBits, BitVec.xor_assoc, BitVec.xor_comm m mask]
    | parity pos cover odd => rfl

theorem decodeHooks_from (hs : List Hook) (v : Reg32) (s : State) :
    ∃ t, (decodeHooks hs v).from s = (.ok (undoHooks hs v), t) ∧ onlyOutputs s t := by
  induction hs generalizing v s with
  | nil => exact ⟨s, rfl, onlyOutputs_refl s⟩
  | cons h hs ih =>
    cases h with
    | invert mask =>
      obtain ⟨t, ht, hout⟩ := ih (invertBits mask v) (s.answer (.value (invertBits mask v)))
      refine ⟨t, ?_, onlyOutputs_trans (onlyOutputs_answer s _) hout⟩
      rw [decodeHooks, Pseudo.from_bind_ok (issueValue_ok (exec_postInv mask v s)), ht, undoHooks]
    | parity pos cover odd => exact ih v s

/-- The FLD.GETs of fields at legal positions give their slices (R154). -/
theorem getFields_from {Fs : List FieldDesc} (hpos : ∀ F ∈ Fs, badPosition F.lsb F.width = false) (v : Reg32) (s : State) :
    ∃ t, (getFields Fs v).from s = (.ok (Fs.map fun F => sliceGet F.lsb.toNat F.width.toNat v), t) ∧ onlyOutputs s t := by
  induction Fs generalizing s with
  | nil => exact ⟨s, rfl, onlyOutputs_refl s⟩
  | cons F Fs ih =>
    rw [List.forall_mem_cons] at hpos
    obtain ⟨hF, hFs⟩ := hpos
    obtain ⟨t, ht, hout⟩ := ih hFs (s.answer (.field (sliceGet F.lsb.toNat F.width.toNat v)))
    refine ⟨t, ?_, onlyOutputs_trans (onlyOutputs_answer s _) hout⟩
    rw [getFields, Pseudo.from_bind_ok (issueField_ok (exec_fldGet_of_legal hF v s)), Pseudo.from_bind_ok ht]
    rfl

/-- Settles O35: REG.UNPACK is the loop of the hooks and the loop of the fields, whose positions are all legal. -/
theorem regUnpackIsTotal : Obligations.RegUnpackIsTotal := by
  intro r d x s hwf hr hlen
  obtain ⟨t, ht, hst⟩ := decodeHooks_from d.hooks.reverse x s
  rw [undoHooks_reverse] at ht
  obtain ⟨u, hu, htu⟩ := getFields_from
    (fun F hF => fieldWf_badPosition (regWf_field (configWf_reg hwf hr) hF)) (undoHooks d.hooks x) t
  refine ⟨u, ?_, onlyOutputs_trans hst htu⟩
  rw [regUnpack, Pseudo.from_bind_ok (findTemplate_of_l32 hr hlen), Pseudo.from_bind_ok ht, Pseudo.from_bind_ok hu]
  rfl

/-! ### Writing the fields of a register -/

/-- The value after one FLD.SET for each field, in order (R153). -/
def writeFields : List FieldDesc → List Reg32 → Reg32 → Reg32
  | [], _, v => v
  | _ :: _, [], v => v
  | F :: Fs, f :: fs, v => writeFields Fs fs (sliceSet F.lsb.toNat F.width.toNat v f)

/-- Every pattern fits its field. -/
def patternsFit (Fs : List FieldDesc) (fs : List Reg32) : Prop := ∀ p ∈ Fs.zip fs, p.2.toNat < 2 ^ p.1.width.toNat

theorem patternsFit_cons {F : FieldDesc} {Fs : List FieldDesc} {f : Reg32} {fs : List Reg32} :
    patternsFit (F :: Fs) (f :: fs) ↔ f.toNat < 2 ^ F.width.toNat ∧ patternsFit Fs fs := by
  rw [patternsFit, List.zip_cons_cons, List.forall_mem_cons]
  rfl

/-- Bit `k` lies in the field. -/
def inField (F : FieldDesc) (k : Nat) : Prop := F.lsb.toNat ≤ k ∧ k < F.lsb.toNat + F.width.toNat

/-- Writing the fields keeps the bits that lie in none of them (R153). -/
theorem writeFields_bit_outside {Fs : List FieldDesc} {fs : List Reg32}
    (hpos : ∀ F ∈ Fs, F.lsb.toNat + F.width.toNat ≤ 32) (hfit : patternsFit Fs fs) (v : Reg32) {k : Nat} (hk : k < 32)
    (hout : ∀ F ∈ Fs, ¬ inField F k) : (writeFields Fs fs v).getLsbD k = v.getLsbD k := by
  induction Fs generalizing fs v with
  | nil => rfl
  | cons F Fs ih =>
    cases fs with
    | nil => rfl
    | cons f fs =>
      rw [List.forall_mem_cons] at hpos hout
      rw [patternsFit_cons] at hfit
      rw [writeFields, ih hpos.2 hfit.2 _ hout.2, sliceSet_bit hpos.1 v hfit.1 hk]
      exact if_neg hout.1

/-- After writing disjoint fields each holds its pattern (R153). -/
theorem slices_writeFields {Fs : List FieldDesc} {fs : List Reg32} (hlen : fs.length = Fs.length)
    (hpos : ∀ F ∈ Fs, F.lsb.toNat + F.width.toNat ≤ 32) (hdisj : Fs.Pairwise fun F G => fieldsDisjoint F G = true)
    (hfit : patternsFit Fs fs) (v : Reg32) :
    Fs.map (fun F => sliceGet F.lsb.toNat F.width.toNat (writeFields Fs fs v)) = fs := by
  induction Fs generalizing fs v with
  | nil => exact (List.length_eq_zero_iff.mp hlen).symm
  | cons F Fs ih =>
    cases fs with
    | nil => cases hlen
    | cons f fs =>
      rw [List.forall_mem_cons] at hpos
      rw [List.pairwise_cons] at hdisj
      rw [patternsFit_cons] at hfit
      obtain ⟨hposF, hposFs⟩ := hpos
      obtain ⟨hdisjF, hdisjFs⟩ := hdisj
      obtain ⟨hf, hfs⟩ := hfit
      have hhead : sliceGet F.lsb.toNat F.width.toNat (writeFields (F :: Fs) (f :: fs) v) = f := by
        refine Eq.trans (sliceGet_congr hposF fun k hlow hhigh => ?_) (sliceGet_sliceSet_same hposF v hf)
        refine writeFields_bit_outside hposFs hfs _ (by omega) fun G hG => ?_
        have hFG := hdisjF G hG
        simp only [fieldsDisjoint, Bool.or_eq_true, decide_eq_true_eq] at hFG
        rw [inField]
        omega
      rw [List.map_cons, hhead]
      exact congrArg (f :: ·) (ih (Nat.succ.inj hlen) hposFs hdisjFs hfs _)

/-! ### REG.PACK -/

/-- The FLD.SETs of patterns that fit fields at legal positions write the fields (R153). -/
theorem setFields_from {Fs : List FieldDesc} {fs : List Reg32} (hpos : ∀ F ∈ Fs, badPosition F.lsb F.width = false)
    (hfit : patternsFit Fs fs) (v : Reg32) (s : State) :
    ∃ t, (setFields Fs fs v).from s = (.ok (writeFields Fs fs v), t) ∧ onlyOutputs s t := by
  induction Fs generalizing fs v s with
  | nil => exact ⟨s, rfl, onlyOutputs_refl s⟩
  | cons F Fs ih =>
    cases fs with
    | nil => exact ⟨s, rfl, onlyOutputs_refl s⟩
    | cons f fs =>
      rw [List.forall_mem_cons] at hpos
      rw [patternsFit_cons] at hfit
      obtain ⟨t, ht, hout⟩ := ih hpos.2 hfit.2 (sliceSet F.lsb.toNat F.width.toNat v f) (s.answer (.value _))
      refine ⟨t, ?_, onlyOutputs_trans (onlyOutputs_answer s _) hout⟩
      rw [setFields, Pseudo.from_bind_ok (issueValue_ok (exec_fldSet_of_fits hpos.1 v hfit.1 s)), ht, writeFields]

/-- The FLD.SETs end at the first pattern that does not fit (R153). -/
theorem setFields_from_tooWide {Fs : List FieldDesc} {fs : List Reg32} {pre post : List (FieldDesc × Reg32)} {F : FieldDesc}
    {f : Reg32} (hpos : ∀ F ∈ Fs, badPosition F.lsb F.width = false) (hzip : Fs.zip fs = pre ++ (F, f) :: post)
    (hpre : ∀ p ∈ pre, p.2.toNat < 2 ^ p.1.width.toNat) (hwide : 2 ^ F.width.toNat ≤ f.toNat) (v : Reg32) (s : State) :
    ∃ t, (setFields Fs fs v).from s = (.error (.raised (.illegalOperand (.fieldValue f))), t) ∧ onlyOutputs s t := by
  induction pre generalizing Fs fs v s with
  | nil =>
    obtain ⟨Fs, fs, rfl, rfl, -⟩ := List.zip_eq_cons_iff.mp hzip
    refine ⟨s.raise (.illegalOperand (.fieldValue f)), ?_, onlyOutputs_raise s _⟩
    rw [setFields, Pseudo.from_bind_error (issueValue_raised (exec_fldSet_of_tooWide (hpos F List.mem_cons_self) v hwide s))]
  | cons p pre ih =>
    obtain ⟨G, g⟩ := p
    obtain ⟨Fs, fs, rfl, rfl, hrest⟩ := List.zip_eq_cons_iff.mp hzip
    rw [List.forall_mem_cons] at hpos hpre
    obtain ⟨t, ht, hout⟩ := ih hpos.2 hrest.symm hpre.2 (sliceSet G.lsb.toNat G.width.toNat v g) (s.answer (.value _))
    refine ⟨t, ?_, onlyOutputs_trans (onlyOutputs_answer s _) hout⟩
    rw [setFields, Pseudo.from_bind_ok (issueValue_ok (exec_fldSet_of_fits hpos.1 v hpre.1 s)), ht]

/-- The post-encode hooks of a well-formed register give their value (R153). -/
theorem encodeHooks_from {hs : List Hook} (hwf : ∀ h ∈ hs, hookWf h = true) (v : Reg32) (s : State) :
    ∃ t, (encodeHooks hs v).from s = (.ok (applyHooks hs v), t) ∧ onlyOutputs s t := by
  induction hs generalizing v s with
  | nil => exact ⟨s, rfl, onlyOutputs_refl s⟩
  | cons h hs ih =>
    rw [List.forall_mem_cons] at hwf
    obtain ⟨hh, hhs⟩ := hwf
    cases h with
    | invert mask =>
      obtain ⟨t, ht, hout⟩ := ih hhs (invertBits mask v) (s.answer (.value _))
      refine ⟨t, ?_, onlyOutputs_trans (onlyOutputs_answer s _) hout⟩
      rw [encodeHooks, Pseudo.from_bind_ok (issueValue_ok (exec_postInv mask v s)), ht, applyHooks]
    | parity pos cover odd =>
      have hcover : cover.getLsbD pos.toNat = false := by simpa [hookWf] using hh
      obtain ⟨t, ht, hout⟩ := ih hhs (writeParity pos.toNat cover odd v) (s.answer (.value _))
      refine ⟨t, ?_, onlyOutputs_trans (onlyOutputs_answer s _) hout⟩
      rw [encodeHooks, Pseudo.from_bind_ok (issueValue_ok (exec_postPar_of_uncovered hcover odd v s)), ht, applyHooks]

/-- REG.PACK of a known L32 register and one pattern for each field runs the FLD.SETs and then the hooks (R153). -/
theorem regPack_from {r : Byte} {d : RegDesc} {s : State} (hr : regTemplate? s.cfg r = some d) (hlen : d.len = .l32)
    {fs : List Reg32} (hfs : fs.length = d.fields.length) (base : Reg32) :
    (regPack r base fs).from s = (setFields d.fields fs base >>= encodeHooks d.hooks).from s := by
  rw [regPack, Pseudo.from_bind_ok (findTemplate_of_l32 hr hlen), if_pos hfs]

/-- REG.PACK of patterns that fit gives the value after the hooks of the written fields (R153). -/
theorem regPack_of_fits {r : Byte} {d : RegDesc} {s : State} (hwf : configWf s.cfg = true)
    (hr : regTemplate? s.cfg r = some d) (hlen : d.len = .l32) {fs : List Reg32} (hfs : fs.length = d.fields.length)
    (hfit : patternsFit d.fields fs) (base : Reg32) :
    ∃ t, (regPack r base fs).from s = (.ok (applyHooks d.hooks (writeFields d.fields fs base)), t) ∧ onlyOutputs s t := by
  have hreg : regWf s.cfg d = true := configWf_reg hwf hr
  obtain ⟨t, ht, hst⟩ := setFields_from (fun F hF => fieldWf_badPosition (regWf_field hreg hF)) hfit base s
  obtain ⟨u, hu, htu⟩ := encodeHooks_from (fun h hh => regWf_hook hreg hh) (writeFields d.fields fs base) t
  exact ⟨u, by rw [regPack_from hr hlen hfs, Pseudo.from_bind_ok ht, hu], onlyOutputs_trans hst htu⟩

/-- The fields of a well-formed register are disjoint (R152). -/
theorem regWf_disjoint {c : Config} {d : RegDesc} (h : regWf c d = true) :
    d.fields.Pairwise fun F G => fieldsDisjoint F G = true := by
  simp only [regWf, Bool.and_eq_true] at h
  obtain ⟨⟨⟨-, hdisj⟩, -⟩, -⟩ := h
  exact pairwiseAll_iff.mp hdisj

/-- Settles O36: REG.PACK is the loop of the fields, which ends at the first misfit, and the loop of the hooks; the fields are
disjoint, so each keeps its pattern. -/
theorem regPackWritesEveryField : Obligations.RegPackWritesEveryField := by
  refine fun r base fs s hwf => ⟨fun hr => ?_, fun d hr hlen hfs => ⟨fun hfit => ?_, fun pre F f post hzip hpre hwide => ?_⟩⟩
  · rw [regPack, Pseudo.from_bind_error (findTemplate_of_unknown hr)]
  · have hreg : regWf s.cfg d = true := configWf_reg hwf hr
    have hpos : ∀ F ∈ d.fields, F.lsb.toNat + F.width.toNat ≤ 32 := fun F hF =>
      (fieldWf_position (regWf_field hreg hF)).2
    obtain ⟨t, ht, hcrc, -⟩ := regPack_of_fits hwf hr hlen hfs hfit base
    refine ⟨writeFields d.fields fs base, t, ht, hcrc, slices_writeFields hfs hpos (regWf_disjoint hreg) hfit base,
      fun k hk hnone => writeFields_bit_outside hpos hfit base hk fun F hF hin => hnone ⟨F, hF, hin⟩⟩
  · obtain ⟨t, ht, hcrc, -⟩ := setFields_from_tooWide
      (fun F hF => fieldWf_badPosition (regWf_field (configWf_reg hwf hr) hF)) hzip hpre hwide base s
    exact ⟨t, by rw [regPack_from hr hlen hfs, Pseudo.from_bind_error ht], hcrc⟩

end Sys2Proof.Machine
end

section
/-! SUPPORT. Frames (43_frame_sequences.md): a frame's header, the feeding of its context into the checksum engine, and the
check of a received byte, each as one rule; the pseudo-operations of a frame are their compositions. -/

namespace Sys2Proof.Machine

open Sys2Proof.Safety (inCodec)

/-! ### Operations inside a pseudo-operation -/

theorem issueHeader_ok {i : Instr} {s : State} {h0 h1 h2 : Byte} (h : exec i s = .next (s.answer (.header h0 h1 h2))) :
    (issueHeader i).from s = (.ok (h0, h1, h2), s.answer (.header h0 h1 h2)) := by
  rw [issueHeader, Pseudo.from_bind_ok (issue_ok h rfl)]
  rfl

theorem issueHeader_raised {i : Instr} {s : State} {e : Raise} (h : exec i s = .next (s.raise e)) :
    (issueHeader i).from s = (.error (.raised e), s.raise e) := by
  rw [issueHeader, Pseudo.from_bind_error (issue_raised h rfl)]

theorem issueCheck_ok {i : Instr} {s : State} {ok : Bool} (h : exec i s = .next (s.answer (.check ok))) :
    (issueCheck i).from s = (.ok ok, s.answer (.check ok)) := by
  rw [issueCheck, Pseudo.from_bind_ok (issue_ok h rfl)]
  rfl

theorem issueEqual_ok {i : Instr} {s : State} {e : Bool} (h : exec i s = .next (s.answer (.equal e))) :
    (issueEqual i).from s = (.ok e, s.answer (.equal e)) := by
  rw [issueEqual, Pseudo.from_bind_ok (issue_ok h rfl)]
  rfl

theorem issueEqual_raised {i : Instr} {s : State} {e : Raise} (h : exec i s = .next (s.raise e)) :
    (issueEqual i).from s = (.error (.raised e), s.raise e) := by
  rw [issueEqual, Pseudo.from_bind_error (issue_raised h rfl)]

/-! ### REG.VERIFY -/

/-- REG.VERIFY after an EQ.REG that ends OK (R177). -/
theorem regVerify_from_of_eqReg {r : Byte} {written readback : Reg32} {s : State} {e : Bool}
    (h : exec (.eqReg r written readback) s = .next (s.answer (.equal e))) :
    (regVerify r written readback).from s =
      (if e then .ok () else .error (.raised (.readbackMismatch written readback)), s.answer (.equal e)) := by
  rw [regVerify, Pseudo.from_bind_ok (issueEqual_ok h)]
  cases e <;> rfl

/-- Settles O45: REG.VERIFY is EQ.REG and the test of its answer. -/
theorem regVerifyFollowsEqReg : Obligations.RegVerifyFollowsEqReg :=
  fun _ _ _ _ => ⟨regVerify_from_of_eqReg, regVerify_from_of_eqReg, fun hr =>
    Pseudo.from_bind_error (issueEqual_raised (exec_eqReg_of_unknown hr _ _))⟩

/-! ### The parts of a frame -/

/-- The header HDR.ENC packs for a frame (R112): checksum enabled, section and page ids of the configuration. -/
def frameHeader (c : Config) (op : BitVec 1) (len : BitVec 2) (addr : BitVec 12) : CommandHeader :=
  ⟨op, 1#1, len, c.sectionId, c.pageId, addr⟩

/-- HDR.ENC of the code of a length class gives the three bytes of a frame's header (R61, R112). -/
theorem exec_hdrEnc_of_class {s : State} {len : BitVec 2} {k : LengthClass} (hl : lenClass? s.cfg len = some k)
    (op : BitVec 1) (addr : BitVec 12) : ∃ h0 h1 h2 : Byte,
    (h0 ++ h1 ++ h2 : BitVec 24) = (op ++ 1#1 ++ len ++ s.cfg.sectionId ++ s.cfg.pageId ++ addr : BitVec 24) ∧
    exec (.hdrEnc op 1#1 len addr) s = .next (s.answer (.header h0 h1 h2)) :=
  ⟨_, _, _, hdrBytes_eq_append (frameHeader s.cfg op len addr),
    exec_hdrEncx_of_some (h := frameHeader s.cfg op len addr) hl⟩

/-- The unassigned length code ends the header of a frame (R112). -/
theorem issueHeader_hdrEnc_of_none {s : State} {len : BitVec 2} (hl : lenClass? s.cfg len = none) (op : BitVec 1)
    (addr : BitVec 12) : (issueHeader (.hdrEnc op 1#1 len addr)).from s =
      (.error (.raised (.illegalOperand (.len len))), s.raise (.illegalOperand (.len len))) :=
  issueHeader_raised (exec_hdrEncx_of_none (h := frameHeader s.cfg op len addr) hl)

/-- CRC.INIT and the feeding of a context, before the rest of a pseudo-operation: the rest runs in a state whose `crc` is the
remainder of the context (R91). -/
theorem init_feed_from (context : List Byte) (s : State) : ∃ t, t.cfg = s.cfg ∧ t.crc = crcRaw s.cfg.crcPoly context ∧
    ∀ {α : Type} (rest : Pseudo α), (do let _ ← issue .crcInit; feed context; rest).from s = rest.from t := by
  obtain ⟨t, hfeed, hcrc, hcfg, -⟩ := feed_from context ((s.setCrc 0x00#8).answer .empty)
  refine ⟨t, hcfg, hcrc, fun rest => ?_⟩
  rw [Pseudo.from_bind_ok (issue_ok (exec_crcInit s) rfl), Pseudo.from_bind_ok hfeed]

/-- The end of a read by the received byte: the data, or ChecksumMismatch with the expected and the received byte (R175). -/
theorem checkReceived_from (data : List Byte) (rx : Byte) (s : State) : (checkReceived data rx).from s =
    (if s.crc ^^^ s.cfg.crcXorOut = rx then .ok (BitVec.ofNat 64 (leValue data))
      else .error (.raised (.checksumMismatch (s.crc ^^^ s.cfg.crcXorOut) rx)),
     s.answer (.check (decide (s.crc ^^^ s.cfg.crcXorOut = rx)))) := by
  rw [checkReceived, Pseudo.from_bind_ok (issueCheck_ok (exec_crcCheck rx s))]
  by_cases hrx : s.crc ^^^ s.cfg.crcXorOut = rx
  · simp [hrx]
  · simp only [hrx, decide_false, Bool.false_eq_true, if_false, Pseudo.from_bind_ok (Pseudo.from_get _), Pseudo.from_throw]
    rfl

/-- The end of a read reads `crc` and the configuration alone, and keeps `crc`. -/
theorem checkReceived_congr {s t : State} (hcrc : s.crc = t.crc) (hcfg : s.cfg = t.cfg) (data : List Byte) (rx : Byte) :
    ((checkReceived data rx).from s).1 = ((checkReceived data rx).from t).1 ∧
    ((checkReceived data rx).from s).2.crc = ((checkReceived data rx).from t).2.crc := by
  simp [checkReceived_from, hcrc, hcfg]

/-! ### FRM.WR and FRM.RDCMD -/

/-- FRM.WR of a length class, by the header HDR.ENC packs: header, data and the checksum of the write context (R172). -/
theorem frmWr_from_of_class {s : State} {len : BitVec 2} {k : LengthClass} {addr : BitVec 12} {h0 h1 h2 : Byte}
    (hl : lenClass? s.cfg len = some k)
    (hhdr : exec (.hdrEnc s.cfg.opBitWrite 1#1 len addr) s = .next (s.answer (.header h0 h1 h2))) (data : BitVec 64) :
    ∃ t, (frmWr addr len data).from s = (.ok ([h0, h1, h2] ++ leBytes data (nbytes k) ++
        [checksum s.cfg (writeContext s.cfg h0 h1 h2 (leBytes data (nbytes k)))]), t) ∧
      t.crc = crcRaw s.cfg.crcPoly (writeContext s.cfg h0 h1 h2 (leBytes data (nbytes k))) := by
  obtain ⟨t, hcfg, hcrc, hrest⟩ :=
    init_feed_from (writeContext s.cfg h0 h1 h2 (leBytes data (nbytes k))) (s.answer (.header h0 h1 h2))
  refine ⟨t.answer (.sum (t.crc ^^^ t.cfg.crcXorOut)), ?_, hcrc⟩
  rw [frmWr, Pseudo.from_bind_ok (config_from s), Pseudo.from_bind_ok (issueHeader_ok hhdr)]
  simp only [hl]
  rw [hrest, Pseudo.from_bind_ok (issueSum_crcRead t), hcrc, hcfg]
  rfl

/-- The unassigned length code ends FRM.WR (R172). -/
theorem frmWr_from_of_none {s : State} {len : BitVec 2} (hl : lenClass? s.cfg len = none) (addr : BitVec 12)
    (data : BitVec 64) : (frmWr addr len data).from s =
      (.error (.raised (.illegalOperand (.len len))), s.raise (.illegalOperand (.len len))) := by
  rw [frmWr, Pseudo.from_bind_ok (config_from s), Pseudo.from_bind_error (issueHeader_hdrEnc_of_none hl _ addr)]

/-- FRM.RDCMD is HDR.ENC of a read (R173). -/
theorem frmRdcmd_from (addr : BitVec 12) (len : BitVec 2) (s : State) :
    (frmRdcmd addr len).from s = (issueHeader (.hdrEnc s.cfg.opBitRead 1#1 len addr)).from s :=
  Pseudo.from_bind_ok (config_from s)

/-- A length code that is the code of no length class has none. -/
theorem lenClass?_of_unassigned {c : Config} {len : BitVec 2} (h : ¬ ∃ k, len = lenCode c k) : lenClass? c len = none :=
  lenClass?_eq_none.mpr (not_exists.mp h)

/-- Settles O41: both frames begin with HDR.ENC, and FRM.WR then computes the checksum of the write context. -/
theorem writeFramesAndReadCommands : Obligations.WriteFramesAndReadCommands := by
  refine ⟨fun addr k data s hwf => ⟨?_, ?_⟩, fun addr len data s hlen => ?_⟩
  · have hl := lenClass?_lenCode hwf k
    obtain ⟨h0, h1, h2, hbits, hhdr⟩ := exec_hdrEnc_of_class hl s.cfg.opBitWrite addr
    obtain ⟨t, ht, hcrc⟩ := frmWr_from_of_class hl hhdr data
    exact ⟨h0, h1, h2, t, hbits, ht, hcrc, leBytes_length data _⟩
  · obtain ⟨h0, h1, h2, hbits, hhdr⟩ := exec_hdrEnc_of_class (lenClass?_lenCode hwf k) s.cfg.opBitRead addr
    exact ⟨h0, h1, h2, _, hbits, (frmRdcmd_from _ _ s).trans (issueHeader_ok hhdr), rfl⟩
  · have hl := lenClass?_of_unassigned hlen
    exact ⟨frmWr_from_of_none hl addr data, (frmRdcmd_from _ _ s).trans (issueHeader_hdrEnc_of_none hl _ addr)⟩

/-! ### FRM.RDCHK -/

/-- FRM.RDCHK of a length class and a frame of its length, by the header HDR.ENC packs: the received byte is checked where `crc`
is the remainder of the read context (R175). -/
theorem frmRdchk_from_of_class {s : State} {len : BitVec 2} {k : LengthClass} {addr : BitVec 12} {h0 h1 h2 : Byte}
    (hl : lenClass? s.cfg len = some k)
    (hhdr : exec (.hdrEnc s.cfg.opBitRead 1#1 len addr) s = .next (s.answer (.header h0 h1 h2)))
    {data : List Byte} (hdata : data.length = nbytes k) (rx : Byte) :
    ∃ t, t.cfg = s.cfg ∧ t.crc = crcRaw s.cfg.crcPoly (readContext s.cfg h0 h1 h2 data) ∧
      (frmRdchk addr len (data ++ [rx])).from s = (checkReceived data rx).from t := by
  obtain ⟨t, hcfg, hcrc, hrest⟩ := init_feed_from (readContext s.cfg h0 h1 h2 data) (s.answer (.header h0 h1 h2))
  refine ⟨t, hcfg, hcrc, ?_⟩
  rw [frmRdchk, Pseudo.from_bind_ok (config_from s), Pseudo.from_bind_ok (issueHeader_ok hhdr)]
  simp only [hl, List.drop_left' hdata, List.take_left' hdata]
  exact hrest _

/-- The unassigned length code ends FRM.RDCHK (R175). -/
theorem frmRdchk_from_of_none {s : State} {len : BitVec 2} (hl : lenClass? s.cfg len = none) (addr : BitVec 12)
    (rx : List Byte) : (frmRdchk addr len rx).from s =
      (.error (.raised (.illegalOperand (.len len))), s.raise (.illegalOperand (.len len))) := by
  rw [frmRdchk, Pseudo.from_bind_ok (config_from s), Pseudo.from_bind_error (issueHeader_hdrEnc_of_none hl _ addr)]

/-- Settles O42: FRM.RDCHK is the check of the received byte where `crc` is the remainder of the read context. -/
theorem frmRdchkChecksTheReceivedFrame : Obligations.FrmRdchkChecksTheReceivedFrame := by
  refine ⟨fun addr k data rx s hwf hdata => ?_, fun addr len rx s hlen =>
    frmRdchk_from_of_none (lenClass?_of_unassigned hlen) addr rx⟩
  have hl := lenClass?_lenCode hwf k
  obtain ⟨h0, h1, h2, hbits, hhdr⟩ := exec_hdrEnc_of_class hl s.cfg.opBitRead addr
  obtain ⟨t, hcfg, hcrc, hrun⟩ := frmRdchk_from_of_class hl hhdr hdata rx
  rw [checkReceived_from, hcfg] at hrun
  refine ⟨h0, h1, h2, t.answer (.check (decide (t.crc ^^^ s.cfg.crcXorOut = rx))), hbits, hcrc, fun hrx => ?_, fun hrx => ?_⟩
  · exact hrun.trans (Prod.ext (if_pos hrx.symm) rfl)
  · exact hrun.trans (Prod.ext (if_neg hrx.symm) rfl)

/-! ### The split-phase read -/

/-- The first phase of a split read, by the header HDR.ENC packs: `crc` is the remainder of the read context without its data
(R176). -/
theorem readOpen_from {s : State} {len : BitVec 2} {addr : BitVec 12} {h0 h1 h2 : Byte}
    (hhdr : exec (.hdrEnc s.cfg.opBitRead 1#1 len addr) s = .next (s.answer (.header h0 h1 h2))) :
    ∃ t, (readOpen addr len).from s = (.ok (), t) ∧ t.cfg = s.cfg ∧
      t.crc = crcRaw s.cfg.crcPoly (readContext s.cfg h0 h1 h2 []) := by
  obtain ⟨t, hcfg, hcrc, hrest⟩ := init_feed_from (readContext s.cfg h0 h1 h2 []) (s.answer (.header h0 h1 h2))
  refine ⟨t, ?_, hcfg, hcrc⟩
  rw [readOpen, Pseudo.from_bind_ok (config_from s), Pseudo.from_bind_ok (issueHeader_ok hhdr)]
  exact hrest (pure ())

/-- The second phase of a split read of the data of a length class: the received byte is checked where `crc` is the remainder
continued over the data (R176). -/
theorem readClose_from_of_class {s : State} {len : BitVec 2} {k : LengthClass} (hl : lenClass? s.cfg len = some k)
    {data : List Byte} (hdata : data.length = nbytes k) (rx : Byte) :
    ∃ t, t.cfg = s.cfg ∧ t.crc = crcFrom s.cfg.crcPoly s.crc data ∧
      (readClose len data rx).from s = (checkReceived data rx).from t := by
  obtain ⟨t, hfeed, hcrc, hcfg, -⟩ := feed_from data s
  refine ⟨t, hcfg, hcrc, ?_⟩
  rw [readClose, Pseudo.from_bind_ok (config_from s), if_pos (by rw [hl, hdata]; rfl), Pseudo.from_bind_ok hfeed]

/-- An operation other than CRC.INIT and CRC.FEED writes the outputs alone (R20). -/
theorem exec_onlyOutputs {i : Instr} {s : State} (hi : inCodec s.cfg i) (hinit : i ≠ .crcInit)
    (hfeed : ∀ b, i ≠ .crcFeed b) : ∃ t, exec i s = .next t ∧ onlyOutputs s t := by
  have hcrc : crcAfter i s = s.crc := by
    by_contra hne
    obtain h | ⟨b, h⟩ := crcAfter_ne hne
    · exact hinit h
    · exact hfeed b h
  obtain ⟨x, hx⟩ := exec_eq_reply hi
  rw [hcrc] at hx
  cases x with
  | ok r => exact ⟨_, hx, onlyOutputs_answer s r⟩
  | error o => exact ⟨_, hx, onlyOutputs_raise s _⟩

/-- A run without CRC.INIT and CRC.FEED writes the outputs alone (R20). -/
theorem runOps_onlyOutputs {is : List Instr} {s : State}
    (h : ∀ i ∈ is, inCodec s.cfg i ∧ i ≠ .crcInit ∧ ∀ b, i ≠ .crcFeed b) :
    ∃ rs t, runOps is s = .next (rs, t) ∧ onlyOutputs s t := by
  induction is generalizing s with
  | nil => exact ⟨[], s, rfl, onlyOutputs_refl s⟩
  | cons i is ih =>
    rw [List.forall_mem_cons] at h
    obtain ⟨⟨hi, hinit, hfeed⟩, his⟩ := h
    obtain ⟨t, hexec, hst⟩ := exec_onlyOutputs hi hinit hfeed
    have ⟨_, hcfg, _⟩ := hst
    obtain ⟨rs, u, hrun, htu⟩ := ih (hcfg ▸ his)
    exact ⟨_, u, runOps_cons_next hexec hrun, onlyOutputs_trans hst htu⟩

/-- The read context is its first five bytes and the data (R174). -/
theorem readContext_eq_append (c : Config) (h0 h1 h2 : Byte) (data : List Byte) :
    readContext c h0 h1 h2 data = readContext c h0 h1 h2 [] ++ data := rfl

/-- Settles O44: the operations between keep `crc` and the configuration, and the remainder continues over the data (R97), so
both reads check the received byte against the same remainder. -/
theorem splitPhaseReadsAgree : Obligations.SplitPhaseReadsAgree := by
  intro addr k data rx is s hwf hdata his
  have hl := lenClass?_lenCode hwf k
  obtain ⟨h0, h1, h2, -, hhdr⟩ := exec_hdrEnc_of_class hl s.cfg.opBitRead addr
  obtain ⟨t, hopen, htcfg, htcrc⟩ := readOpen_from hhdr
  obtain ⟨rs, u, hrun, hucrc, hucfg, -⟩ := runOps_onlyOutputs (htcfg ▸ his)
  have hcfg : u.cfg = s.cfg := hucfg.trans htcfg
  obtain ⟨v, hvcfg, hvcrc, hclose⟩ := readClose_from_of_class (len := lenCode s.cfg k) (by rw [hcfg, hl]) hdata rx
  obtain ⟨w, hwcfg, hwcrc, hwhole⟩ := frmRdchk_from_of_class hl hhdr hdata rx
  have hcrc : v.crc = w.crc := by
    rw [hvcrc, hcfg, hucrc, htcrc, hwcrc, readContext_eq_append _ _ _ _ data, crcRaw_append]
  refine ⟨t, rs, u, hopen, hrun, ?_⟩
  rw [hclose, hwhole]
  exact checkReceived_congr hcrc (hvcfg.trans (hcfg.trans hwcfg.symm)) data rx

end Sys2Proof.Machine
end

section
/-! SUPPORT. The reset event (70_reset_and_hazards.md): the step that serves it. -/

namespace Sys2Proof.Machine

/-- A step of a machine with a well-formed configuration and the reset event presented next resets the block (R216). -/
theorem step_reset {s : State} {ins : List HostInput} (hwf : configWf s.cfg = true) (hin : s.inputs = .reset :: ins) :
    step s = .next (s.setInputs ins).resetEvent := by
  rw [step, if_pos hwf, serve, hin]

/-- Settles O51: the step is the reset event without the input it served, and CRC.INIT leaves the same `crc` and everything
else as it was, so with its answer put aside the two states are one. -/
theorem resetClearsTheRemainder : Obligations.ResetClearsTheRemainder := by
  intro s ins hwf hin
  have hstep := step_reset hwf hin
  refine ⟨hstep, fun t ht => ?_⟩
  have hinit : (s.setCrc 0x00#8).answer .empty = t := Host.Outcome.next.inj ((exec_crcInit s).symm.trans ht)
  subst hinit
  exact hstep

end Sys2Proof.Machine
end

section
/-! SUPPORT. The command interface (R73, R74 of 30_encoding.md): the decoder reads back each operand where the encoder bundled it, and
a step performs the operation a command decodes to. -/

namespace Sys2Proof

/-- Decoding undoes encoding. The code selects the decoder's line, and each port of that line is the operand bundled there: above the
operands before it (`port_high`), below those after it (`port_low`). -/
theorem decode_encode (i : Instr) : decode (encode i) = .ok i := by
  cases i with
  | crcInit | crcRead => rfl
  | eqFld policy t a b =>
    simp (disch := omega) only [decode, encode, BitVec.reduceToNat, Nat.reduceSub, port_high, port_low, port_all,
      policyOfCode_codeOfPolicy]
  | enumEnc t known code | sclEnc auto mantissa exponent | postPar pos cover odd v =>
    simp (disch := omega) only [decode, encode, BitVec.reduceToNat, Nat.reduceSub, port_high, port_low, port_all,
      portFlag_eq, BitVec.getLsbD_ofBool, decide_true, Bool.true_and]
  | _ => simp (disch := omega) only [decode, encode, BitVec.reduceToNat, Nat.reduceSub, port_high, port_low, port_all]

/-- Settles O56: operation by operation, each port the decoder reads is the operand the encoder put there. -/
theorem decodeUndoesEncode : Obligations.DecodeUndoesEncode := decode_encode

/-- Settles O57: each word is the encoding of its operation. -/
theorem commandsWrittenOutDecode : Obligations.CommandsWrittenOutDecode :=
  ⟨decode_encode (.crcFeed 0x31#8), decode_encode (.hdrEnc 1#1 1#1 0b01#2 0x088#12),
    decode_encode (.fldSet 26#5 3#6 0x03210595#32 5#32), decode_encode (.enumEnc 0x02#8 true 0x09#8),
    decode_encode (.sclEnc false 0x05#8 1#2), decode_encode (.splComb 5#5 3#5 0x5#32 0x6#32),
    decode_encode (.eqFld .value 0x00#8 0x105#32 0x232#32), decode_encode (.eqReg 0x0A#8 0x17210595#32 0xF72232FD#32),
    decode_encode (.postInv 0x0000FF00#32 0x00773C06#32), decode_encode (.postPar 31#5 0x7FFFFFFF#32 false 0x0077C306#32)⟩

namespace Machine

/-- A command that decodes is performed as its operation (R12). -/
theorem perform_of_decode {w : CmdWord} {i : Instr} (h : decode w = .ok i) (s : State) : perform w s = exec i s := by
  rw [perform, h]

/-- With nothing presented a step changes nothing (R12, R223). -/
theorem step_idle {s : State} (hwf : configWf s.cfg = true) (hin : s.inputs = []) : step s = .next s := by
  rw [step, if_pos hwf, serve, hin]

/-- Settles O54: a step serves the oldest input of a machine with a well-formed configuration. -/
theorem stepPerformsTheDecodedOperation : Obligations.StepPerformsTheDecodedOperation :=
  ⟨fun _ _ _ _ hwf hin hdec => (step_command hwf hin).trans (perform_of_decode hdec _), fun _ => step_idle,
    fun _ hill => if_neg (ne_true_of_eq_false hill)⟩

end Machine
end Sys2Proof
end

section
/-! SUPPORT. Scaled magnitudes (42_field_codec.md section 4): the pattern is the concatenation of its two parts, in the order SCL_EXP_HIGH
gives, so SCL.ENC and SCL.DEC undo each other; and the comparison of EQ.FLD is that of the numbers of R142. -/

namespace Sys2Proof.Machine

/-! ### The parts of a pattern -/

/-- A pattern is its exponent and its mantissa, the exponent at the end SCL_EXP_HIGH says (R70). -/
theorem scaledPattern_eq_append (c : Config) (m : Byte) (e : BitVec 2) :
    scaledPattern c m e = if c.sclExpHigh then (e ++ m : BitVec 10) else (m ++ e : BitVec 10) := by
  rw [scaledPattern, setWidth_shiftLeft_or_setWidth, setWidth_shiftLeft_or_setWidth, BitVec.setWidth_eq, BitVec.setWidth_eq]

/-- The mantissa of a built pattern (R143, R144). -/
theorem scaledMantissa_scaledPattern (c : Config) (m : Byte) (e : BitVec 2) : scaledMantissa c (scaledPattern c m e) = m := by
  rw [scaledMantissa, scaledPattern_eq_append]
  cases c.sclExpHigh
  · exact BitVec.extractLsb'_append_eq_left
  · exact BitVec.extractLsb'_append_eq_right

/-- The exponent of a built pattern (R143, R144). -/
theorem scaledExponent_scaledPattern (c : Config) (m : Byte) (e : BitVec 2) : scaledExponent c (scaledPattern c m e) = e := by
  rw [scaledExponent, scaledPattern_eq_append]
  cases c.sclExpHigh
  · exact BitVec.extractLsb'_append_eq_right
  · exact BitVec.extractLsb'_append_eq_left

/-- The pattern of the parts of a pattern (R143, R144). -/
theorem scaledPattern_parts (c : Config) (f : BitVec 10) : scaledPattern c (scaledMantissa c f) (scaledExponent c f) = f := by
  rw [scaledPattern_eq_append, scaledMantissa, scaledExponent]
  cases c.sclExpHigh
  · exact (BitVec.extractLsb'_append_extractLsb'_eq_extractLsb' rfl).trans BitVec.extractLsb'_eq_self
  · exact (BitVec.extractLsb'_append_extractLsb'_eq_extractLsb' rfl).trans BitVec.extractLsb'_eq_self

/-- The pattern of no mantissa and no exponent is the all-zero one, Auto (R143). -/
theorem scaledPattern_zero (c : Config) : scaledPattern c 0#8 0#2 = 0#10 := by
  rw [scaledPattern_eq_append]
  cases c.sclExpHigh <;> rfl

/-- A pattern is Auto exactly when both its parts are zero (R143). -/
theorem parts_eq_zero_iff (c : Config) (f : BitVec 10) :
    scaledMantissa c f = 0#8 ∧ scaledExponent c f = 0#2 ↔ f = 0#10 := by
  constructor
  · rintro ⟨hm, he⟩
    rw [← scaledPattern_parts c f, hm, he, scaledPattern_zero]
  · rintro rfl
    rw [← scaledPattern_zero c, scaledMantissa_scaledPattern, scaledExponent_scaledPattern]
    exact ⟨rfl, rfl⟩

/-- With the exponent in the high bits the pattern is `exponent * 256 + mantissa` (R144). -/
theorem scaledPattern_toNat {c : Config} (hc : c.sclExpHigh = true) (m : Byte) (e : BitVec 2) :
    (scaledPattern c m e).toNat = e.toNat * 256 + m.toNat := by
  have hm := scaledMantissa_toNat hc (scaledPattern c m e)
  have he := scaledExponent_toNat hc (scaledPattern c m e)
  rw [scaledMantissa_scaledPattern] at hm
  rw [scaledExponent_scaledPattern] at he
  omega

/-! ### SCL.ENC -/

/-- The operands of SCL.ENC are a decoded value exactly when the tag Auto goes with no number (R144). -/
theorem badScaled_eq_false_iff (auto : Bool) (m : Byte) (e : BitVec 2) :
    badScaled auto m e = false ↔ (auto = true ↔ m = 0#8 ∧ e = 0#2) := by
  cases auto <;> simp [badScaled, -not_and, not_and_or, imp_iff_not_or]

section
variable {auto : Bool} {m : Byte} {e : BitVec 2} {s : State}

/-- SCL.ENC of what is no decoded value ends with IllegalOperand (R144). -/
theorem exec_sclEnc_of_bad (h : ¬ (auto = true ↔ m = 0#8 ∧ e = 0#2)) :
    exec (.sclEnc auto m e) s = .next (s.raise (.illegalOperand (.scaled m e))) := by
  have hbad : badScaled auto m e = true := by rwa [← Bool.not_eq_false, badScaled_eq_false_iff]
  rw [exec, execSclEnc, if_pos hbad, reply_error]

/-- SCL.ENC of a decoded value answers its pattern, which for Auto is the all-zero one (R144). -/
theorem exec_sclEnc_of_value (h : auto = true ↔ m = 0#8 ∧ e = 0#2) :
    exec (.sclEnc auto m e) s = .next (s.answer (.pattern (scaledPattern s.cfg m e))) := by
  rw [exec, execSclEnc, if_neg (ne_true_of_eq_false ((badScaled_eq_false_iff auto m e).mpr h))]
  cases auto with
  | false => rfl
  | true =>
    obtain ⟨rfl, rfl⟩ := h.mp rfl
    rw [scaledPattern_zero]
    rfl

end

/-- SCL.ENC of what SCL.DEC answers gives the pattern back (R144). -/
theorem exec_sclEnc_parts (f : BitVec 10) (s : State) :
    exec (.sclEnc (decide (f = 0#10)) (scaledMantissa s.cfg f) (scaledExponent s.cfg f)) s =
      .next (s.answer (.pattern f)) := by
  rw [exec_sclEnc_of_value (by rw [decide_eq_true_iff, parts_eq_zero_iff]), scaledPattern_parts]

/-- SCL.DEC of the pattern of a decoded value answers the value (R144). -/
theorem exec_sclDec_scaledPattern {auto : Bool} {m : Byte} {e : BitVec 2} (h : auto = true ↔ m = 0#8 ∧ e = 0#2) (s : State) :
    exec (.sclDec (scaledPattern s.cfg m e)) s = .next (s.answer (.scaled auto m e)) := by
  have hauto : decide (scaledPattern s.cfg m e = 0#10) = auto := by
    rw [Bool.eq_iff_iff, decide_eq_true_iff, h, ← parts_eq_zero_iff s.cfg, scaledMantissa_scaledPattern,
      scaledExponent_scaledPattern]
  rw [exec_sclDec, hauto, scaledMantissa_scaledPattern, scaledExponent_scaledPattern]

/-- Settles O28: the tag decides, the pattern is the concatenation of its parts, and so its parts are what it was built of. -/
theorem sclEncBuildsThePattern : Obligations.SclEncBuildsThePattern := by
  refine ⟨fun auto m e s hc => ⟨rfl, fun hauto hnum => ?_, fun hauto hm he => ?_, fun hauto hm he => ?_, fun hauto hnum => ?_⟩,
    fun f s => ?_, fun auto m e s t f hexec hf => ?_⟩
  · exact exec_sclEnc_of_bad fun h => not_and_or.mpr hnum (h.mp hauto)
  · exact exec_sclEnc_of_bad fun h => Bool.false_ne_true (hauto ▸ h.mpr ⟨hm, he⟩)
  · rw [exec_sclEnc_of_value (iff_of_true hauto ⟨hm, he⟩), hm, he, scaledPattern_zero]
    rfl
  · exact ⟨_, scaledPattern_toNat hc m e,
      exec_sclEnc_of_value (iff_of_false (ne_true_of_eq_false hauto) (not_and_or.mpr hnum))⟩
  · exact ⟨_, _, _, _, exec_sclDec f s, rfl, exec_sclEnc_parts f (s.answer _)⟩
  · by_cases h : auto = true ↔ m = 0#8 ∧ e = 0#2
    · rw [exec_sclEnc_of_value h] at hexec
      cases hexec
      cases hf
      exact exec_sclDec_scaledPattern h (s.answer _)
    · rw [exec_sclEnc_of_bad h] at hexec
      cases hexec
      cases hf

/-! ### The numbers of R142 -/

/-- Two numbers are equal exactly when their cross products are, whatever the shift (R142, R151). -/
theorem scaledValue_eq_iff (m n : Byte) (e f : BitVec 2) (shift : Nat) :
    scaledValue m e shift = scaledValue n f shift ↔ m.toNat * 10 ^ f.toNat = n.toNat * 10 ^ e.toNat := by
  rw [scaledValue, scaledValue, div_eq_div_iff (by positivity) (by positivity), pow_add, pow_add, ← mul_assoc, ← mul_assoc,
    mul_left_inj' (by positivity)]
  exact_mod_cast Iff.rfl

/-- Settles O32: Auto equals Auto alone, and the cross products of two numbers compare their values under every shift. -/
theorem eqFldValueComparesTheNumbers : Obligations.EqFldValueComparesTheNumbers := by
  intro t a b s ha hb
  refine ⟨_, exec_eqFld_value_of_fits ha hb, fun shift => ?_⟩
  by_cases hzero : a = 0#32 ∨ b = 0#32
  · rw [scaledEqual_of_zero (by rwa [setWidth_ten_eq_zero ha, setWidth_ten_eq_zero hb]), setWidth_ten_inj ha hb]
    constructor
    · rintro rfl
      exact .inl ⟨or_self_iff.mp hzero, or_self_iff.mp hzero⟩
    · rintro (⟨rfl, rfl⟩ | ⟨hna, hnb, -⟩)
      · rfl
      · exact absurd hzero (not_or.mpr ⟨hna, hnb⟩)
  · obtain ⟨hna, hnb⟩ := not_or.mp hzero
    rw [scaledEqual_of_ne (mt (setWidth_ten_eq_zero ha).mp hna) (mt (setWidth_ten_eq_zero hb).mp hnb), scaledValue_eq_iff]
    simp [hna, hnb]

end Sys2Proof.Machine
end

section
/-! SUPPORT. Round trips of a whole register (R155 of 42_field_codec.md): writing back what the fields hold changes nothing, the Invert
hooks undo themselves, and a typed value encodes to the pattern it was decoded from. -/

namespace Sys2Proof.Machine

open Sys2Proof.Safety (noParity)

/-! ### The hooks undone and applied -/

/-- The pre-decode hooks are their own inverse (R158). -/
theorem undoHooks_undoHooks (hs : List Hook) (v : Reg32) : undoHooks hs (undoHooks hs v) = v := by
  obtain ⟨mask, hmask⟩ := undoHooks_eq_xor hs
  rw [hmask, hmask, BitVec.xor_assoc, BitVec.xor_self, BitVec.xor_zero]

theorem applyHooks_append (hs ks : List Hook) (v : Reg32) : applyHooks (hs ++ ks) v = applyHooks ks (applyHooks hs v) := by
  induction hs generalizing v with
  | nil => rfl
  | cons h hs ih => cases h <;> exact ih _

/-- Without a Parity hook the post-encode hooks do what the pre-decode hooks do. -/
theorem applyHooks_of_inverts {hs : List Hook} (h : ∀ k ∈ hs, ∃ mask, k = .invert mask) (v : Reg32) :
    applyHooks hs v = undoHooks hs v := by
  induction hs generalizing v with
  | nil => rfl
  | cons k hs ih =>
    rw [List.forall_mem_cons] at h
    obtain ⟨⟨mask, rfl⟩, hhs⟩ := h
    exact ih hhs _

/-! ### The fields read and written back -/

/-- The patterns REG.UNPACK reads (R154). -/
def slices (Fs : List FieldDesc) (v : Reg32) : List Reg32 := Fs.map fun F => sliceGet F.lsb.toNat F.width.toNat v

theorem slices_length (Fs : List FieldDesc) (v : Reg32) : (slices Fs v).length = Fs.length := List.length_map _

/-- The slices of fields inside the register fit their fields. -/
theorem patternsFit_slices {Fs : List FieldDesc} (hpos : ∀ F ∈ Fs, F.lsb.toNat + F.width.toNat ≤ 32) (v : Reg32) :
    patternsFit Fs (slices Fs v) := by
  induction Fs with
  | nil => exact nofun
  | cons F Fs ih =>
    rw [List.forall_mem_cons] at hpos
    exact patternsFit_cons.mpr ⟨sliceGet_lt (by omega) _ v, ih hpos.2⟩

/-- Writing back what the fields hold changes nothing (R136). -/
theorem writeFields_slices {Fs : List FieldDesc} (hpos : ∀ F ∈ Fs, F.lsb.toNat + F.width.toNat ≤ 32) (v : Reg32) :
    writeFields Fs (slices Fs v) v = v := by
  induction Fs with
  | nil => rfl
  | cons F Fs ih =>
    rw [List.forall_mem_cons] at hpos
    rw [slices, List.map_cons, writeFields, sliceSet_sliceGet hpos.1]
    exact ih hpos.2

section
variable {r : Byte} {d : RegDesc} {s : State} (hwf : configWf s.cfg = true) (hr : regTemplate? s.cfg r = some d)
  (hlen : d.len = .l32)
include hwf hr

/-- The fields of a well-formed register lie inside it (R131). -/
theorem fields_inside : ∀ F ∈ d.fields, F.lsb.toNat + F.width.toNat ≤ 32 := fun _ hF =>
  (fieldWf_position (regWf_field (configWf_reg hwf hr) hF)).2

include hlen

/-- REG.UNPACK gives the value after the Invert hooks and its slices (R154). -/
theorem regUnpack_slices (x : Reg32) : ∃ t, (regUnpack r x).from s =
    (.ok (undoHooks d.hooks x, slices d.fields (undoHooks d.hooks x)), t) ∧ onlyOutputs s t :=
  regUnpackIsTotal r d x s hwf hr hlen

/-- REG.PACK of the slices of its base value runs the hooks alone (R153). -/
theorem regPack_slices (v : Reg32) : ∃ t, (regPack r v (slices d.fields v)).from s = (.ok (applyHooks d.hooks v), t) ∧
    onlyOutputs s t := by
  have hpos := fields_inside hwf hr
  obtain ⟨t, ht, hout⟩ := regPack_of_fits hwf hr hlen (slices_length d.fields v) (patternsFit_slices hpos v) v
  rw [writeFields_slices hpos] at ht
  exact ⟨t, ht, hout⟩

end

/-- REG.PACK of what REG.UNPACK gives is the post-encode hooks after the pre-decode hooks (R155). -/
theorem regPack_regUnpack {r : Byte} {d : RegDesc} {s : State} (hwf : configWf s.cfg = true)
    (hr : regTemplate? s.cfg r = some d) (hlen : d.len = .l32) (x : Reg32) :
    ∃ v0 fs t u, (regUnpack r x).from s = (.ok (v0, fs), t) ∧
      (regPack r v0 fs).from t = (.ok (applyHooks d.hooks (undoHooks d.hooks x)), u) := by
  obtain ⟨t, ht, -, hcfg, -⟩ := regUnpack_slices hwf hr hlen x
  obtain ⟨u, hu, -⟩ := regPack_slices (s := t) (hcfg ▸ hwf) (hcfg ▸ hr) hlen (undoHooks d.hooks x)
  exact ⟨_, _, t, u, ht, hu⟩

/-- Settles O37: writing back the slices changes nothing, and the Invert hooks undo themselves. -/
theorem packUndoesUnpack : Obligations.PackUndoesUnpack := by
  intro r d x s hwf hr hlen hinv
  obtain ⟨v0, fs, t, u, ht, hu⟩ := regPack_regUnpack hwf hr hlen x
  rw [applyHooks_of_inverts hinv, undoHooks_undoHooks] at hu
  exact ⟨v0, fs, t, u, ht, hu⟩

/-! ### One Parity hook -/

/-- POST.PAR changes nothing exactly when the value already carries the parity asked for (R159). -/
theorem writeParity_eq_self_iff {pos : BitVec 5} {cover : Reg32} (h : cover.getLsbD pos.toNat = false) (odd : Bool)
    (v : Reg32) : writeParity pos.toNat cover odd v = v ↔
      ((Finset.range 32).filter fun k =>
        v.getLsbD k = true ∧ (cover.getLsbD k = true ∨ k = pos.toNat)).card % 2 = odd.toNat := by
  constructor
  · intro heq
    have hcard := card_writeParity_mod_two h odd v
    rwa [heq] at hcard
  · intro hcard
    rw [card_covered_or_pos h, Nat.add_mod, sum_bits_mod_two] at hcard
    refine BitVec.eq_of_getLsbD_eq fun k hk => ?_
    rw [writeParity_bit pos cover odd v hk]
    split
    case isTrue hpos =>
      rw [hpos]
      revert hcard
      cases parityBits (v &&& cover) 32 <;> cases v.getLsbD pos.toNat <;> cases odd <;> decide
    case isFalse => rfl

/-- With one Parity hook among Invert hooks, the hooks undone and applied again write the parity between the inversions (R155). -/
theorem applyHooks_undoHooks_of_parity {pre post : List Hook} (hinv : ∀ h ∈ pre ++ post, ∃ mask, h = .invert mask)
    (pos : BitVec 5) (cover : Reg32) (odd : Bool) (x : Reg32) :
    applyHooks (pre ++ .parity pos cover odd :: post) (undoHooks (pre ++ .parity pos cover odd :: post) x) =
      undoHooks post (writeParity pos.toNat cover odd (undoHooks post x)) := by
  rw [List.forall_mem_append] at hinv
  obtain ⟨hpre, hpost⟩ := hinv
  have hcomm : undoHooks pre (undoHooks post (undoHooks pre x)) = undoHooks post x := by
    obtain ⟨mask, hmask⟩ := undoHooks_eq_xor pre
    obtain ⟨mask', hmask'⟩ := undoHooks_eq_xor post
    simp only [hmask, hmask']
    rw [BitVec.xor_assoc x mask, BitVec.xor_comm mask, ← BitVec.xor_assoc x, BitVec.xor_assoc _ mask, BitVec.xor_self,
      BitVec.xor_zero]
  rw [undoHooks_append, undoHooks, applyHooks_append, applyHooks, applyHooks_of_inverts hpre, applyHooks_of_inverts hpost, hcomm]

/-- Settles O38: the round trip writes the parity between the inversions, so it returns the pattern exactly when that write
changes nothing. -/
theorem parityRoundTripNeedsTheParity : Obligations.ParityRoundTripNeedsTheParity := by
  intro r d pre post pos cover odd x s hwf hr hlen hhooks hinv
  have hcover : cover.getLsbD pos.toNat = false := by
    simpa [hookWf] using regWf_hook (configWf_reg hwf hr) (k := .parity pos cover odd) (by simp [hhooks])
  obtain ⟨v0, fs, t, u, ht, hu⟩ := regPack_regUnpack hwf hr hlen x
  rw [hhooks, applyHooks_undoHooks_of_parity hinv] at hu
  refine ⟨v0, fs, t, _, u, ht, hu, ?_, ?_⟩
  · exact (Function.Involutive.eq_iff (undoHooks_undoHooks post)).trans (writeParity_eq_self_iff hcover odd _)
  · rintro rfl
    rfl

end Sys2Proof.Machine
end

section
/-! SUPPORT. Typed values (R13, R130, R155 of 42_field_codec.md): each pattern of a well-formed field has a typed value, by the kinds of
R131, which decoding finds and encoding turns back into the pattern. -/

namespace Sys2Proof.Machine

/-! ### One field -/

/-- Under the configuration the pattern of a field of the kind decodes to the value and the value encodes to the pattern, and
both write the outputs alone. -/
def codesFor (c : Config) (kind : FieldKind) (f : Reg32) (v : TypedValue) : Prop :=
  ∀ s : State, s.cfg = c →
    (∃ t, (decodeField kind f).from s = (.ok v, t) ∧ onlyOutputs s t) ∧
    (∃ t, (encodeField kind v).from s = (.ok f, t) ∧ onlyOutputs s t)

/-- A value that both directions hand over without an operation of the block. -/
theorem codesFor_of_pure {c : Config} {kind : FieldKind} {f : Reg32} {v : TypedValue} (hdec : decodeField kind f = pure v)
    (henc : encodeField kind v = pure f) : codesFor c kind f v := fun s _ =>
  ⟨⟨s, by rw [hdec, Pseudo.from_pure], onlyOutputs_refl s⟩, ⟨s, by rw [henc, Pseudo.from_pure], onlyOutputs_refl s⟩⟩

/-- A pattern of at most `n` bits comes back from an `n`-bit word. -/
theorem setWidth_setWidth_of_lt {n : Nat} (hn : n ≤ 32) {f : Reg32} (hf : f.toNat < 2 ^ n) :
    (f.setWidth n).setWidth 32 = f := by
  apply BitVec.eq_of_toNat_eq
  rw [BitVec.toNat_setWidth_of_le hn, BitVec.toNat_setWidth, Nat.mod_eq_of_lt hf]

/-- The tagged value of a code of a table (R13, R139). -/
def taggedCode (d : EnumDesc) (code : Byte) : EnumValue := if enumValid d code then .known code else .reserved code

/-- Decoding a code of a table gives it the table's tag (R139). -/
theorem decodeEnum_from {s : State} {t : Byte} {d : EnumDesc} {f : Reg32} (h : findEnumCode s.cfg t (f.setWidth 8) = .ok d) :
    (decodeEnum t f).from s = (.ok (.enum (taggedCode d (f.setWidth 8))),
      s.answer (.decoded (enumValid d (f.setWidth 8)) (f.setWidth 8))) := by
  rw [decodeEnum, Pseudo.from_bind_ok (issue_ok (exec_enumDec_of_ok h) rfl), taggedCode]
  cases enumValid d (f.setWidth 8) <;> rfl

/-- Encoding a code with the table's tag gives the code (R140). -/
theorem encodeEnum_from {s : State} {t : Byte} {d : EnumDesc} {code : Byte} (h : findEnumCode s.cfg t code = .ok d) :
    (encodeEnum t (taggedCode d code)).from s = (.ok (code.setWidth 32), s.answer (.code code)) := by
  have hexec := exec_enumEnc_of_eq h
  rw [taggedCode]
  cases hvalid : enumValid d code <;> rw [hvalid] at hexec <;> exact Pseudo.from_bind_ok (issue_ok hexec rfl)

/-- A pattern of an enumeration field has the tagged value of its code (R139, R140). -/
theorem codesFor_enum {c : Config} {kind : FieldKind} {t : Byte} {f : Reg32} {d : EnumDesc}
    (hdec : decodeField kind f = decodeEnum t f) (henc : ∀ e, encodeField kind (.enum e) = encodeEnum t e)
    (hd : enumTable? c t = some d) (hwidth : d.width ≤ 8) (hf : f.toNat < 2 ^ d.width) :
    codesFor c kind f (.enum (taggedCode d (f.setWidth 8))) := by
  have hf8 : f.toNat < 2 ^ 8 := hf.trans_le (Nat.pow_le_pow_right (by decide) hwidth)
  have hfind : findEnumCode c t (f.setWidth 8) = .ok d :=
    findEnumCode_of_fits hd (by rwa [BitVec.toNat_setWidth, Nat.mod_eq_of_lt hf8])
  have hback : ((f.setWidth 8).setWidth 32 : Reg32) = f := setWidth_setWidth_of_lt (by decide) hf8
  rintro s rfl
  have henum := encodeEnum_from hfind
  rw [hback] at henum
  exact ⟨⟨_, hdec ▸ decodeEnum_from hfind, onlyOutputs_answer s _⟩, ⟨_, (henc _).symm ▸ henum, onlyOutputs_answer s _⟩⟩

/-- The tagged value of a scaled pattern (R13, R143). -/
def taggedScaled (c : Config) (f : BitVec 10) : ScaledNumber :=
  if f = 0#10 then .auto else .num (scaledMantissa c f) (scaledExponent c f)

/-- Decoding a scaled pattern gives its tagged value (R143). -/
theorem decodeScaled_from (f : Reg32) (s : State) :
    (decodeScaled f).from s = (.ok (.scaled (taggedScaled s.cfg (f.setWidth 10))), s.answer
      (.scaled (decide (f.setWidth 10 = 0#10)) (scaledMantissa s.cfg (f.setWidth 10)) (scaledExponent s.cfg (f.setWidth 10)))) := by
  rw [decodeScaled, Pseudo.from_bind_ok (issue_ok (exec_sclDec (f.setWidth 10) s) rfl), taggedScaled]
  by_cases hzero : f.setWidth 10 = 0#10 <;> simp [hzero]

/-- Encoding the tagged value of a scaled pattern gives the pattern (R144). -/
theorem encodeScaled_from (f : BitVec 10) (s : State) :
    (encodeScaled (taggedScaled s.cfg f)).from s = (.ok (f.setWidth 32), s.answer (.pattern f)) := by
  have hexec := exec_sclEnc_parts f s
  rw [taggedScaled]
  by_cases hzero : f = 0#10
  · obtain ⟨hm, he⟩ := (parts_eq_zero_iff s.cfg f).mpr hzero
    rw [decide_eq_true hzero, hm, he] at hexec
    rw [if_pos hzero]
    exact Pseudo.from_bind_ok (issue_ok hexec rfl)
  · rw [decide_eq_false hzero] at hexec
    rw [if_neg hzero]
    exact Pseudo.from_bind_ok (issue_ok hexec rfl)

/-- A pattern of a scaled field has the tagged value of its parts (R143, R144). -/
theorem codesFor_scaled {c : Config} {shift : Nat} {f : Reg32} (hf : f.toNat < 2 ^ 10) :
    codesFor c (.scaled shift) f (.scaled (taggedScaled c (f.setWidth 10))) := by
  have hback : ((f.setWidth 10).setWidth 32 : Reg32) = f := setWidth_setWidth_of_lt (by decide) hf
  rintro s rfl
  have henc := encodeScaled_from (f.setWidth 10) s
  rw [hback] at henc
  exact ⟨⟨_, decodeScaled_from f s, onlyOutputs_answer s _⟩, ⟨_, henc, onlyOutputs_answer s _⟩⟩

/-- A one-bit pattern is its low bit. -/
theorem ofBool_setWidth_of_lt {f : Reg32} (hf : f.toNat < 2 ^ 1) : (BitVec.ofBool (f.getLsbD 0)).setWidth 32 = f := by
  refine BitVec.eq_of_getLsbD_eq fun k hk => ?_
  cases k with
  | zero => simp
  | succ k => simp [getLsbD_of_lt hf (show 1 ≤ k + 1 by omega)]

/-- Every pattern that fits a well-formed field has a typed value (R131, R155). -/
theorem exists_codesFor {c : Config} (hwf : configWf c = true) {F : FieldDesc} (hF : fieldWf c F = true) {f : Reg32}
    (hf : f.toNat < 2 ^ F.width.toNat) : ∃ v, codesFor c F.kind f v := by
  simp only [fieldWf, Bool.and_eq_true] at hF
  obtain ⟨⟨-, hkind⟩, -⟩ := hF
  cases hk : F.kind with
  | bool =>
    rw [hk, kindWf, decide_eq_true_iff] at hkind
    rw [hkind] at hf
    exact ⟨_, codesFor_of_pure rfl (by rw [encodeField, ofBool_setWidth_of_lt hf])⟩
  | uint | splitHigh lw hw | splitLow lw hw => exact ⟨_, codesFor_of_pure rfl rfl⟩
  | enumExhaustive t | enumPartial t =>
    rw [hk] at hkind
    obtain ⟨d, hd, hwidth⟩ := kindWf_table hkind rfl
    obtain ⟨-, height, -⟩ := enumWf_iff.mp (configWf_enum hwf hd)
    exact ⟨_, codesFor_enum rfl (fun _ => rfl) hd height (hwidth ▸ hf)⟩
  | scaled shift =>
    rw [hk, kindWf, decide_eq_true_iff] at hkind
    exact ⟨_, codesFor_scaled (hkind ▸ hf)⟩

/-! ### The fields of a register -/

/-- The slices of well-formed fields decode to a list of typed values, which encodes to the slices (R155). -/
theorem exists_typedValues {c : Config} (hwf : configWf c = true) {Fs : List FieldDesc} (hFs : ∀ F ∈ Fs, fieldWf c F = true)
    (v : Reg32) : ∃ vs : List TypedValue, vs.length = Fs.length ∧ ∀ s : State, s.cfg = c →
      (∃ t, (decodeFields Fs (slices Fs v)).from s = (.ok vs, t) ∧ onlyOutputs s t) ∧
      (∃ t, (encodeFields Fs vs).from s = (.ok (slices Fs v), t) ∧ onlyOutputs s t) := by
  induction Fs with
  | nil => exact ⟨[], rfl, fun s _ => ⟨⟨s, rfl, onlyOutputs_refl s⟩, ⟨s, rfl, onlyOutputs_refl s⟩⟩⟩
  | cons F Fs ih =>
    rw [List.forall_mem_cons] at hFs
    obtain ⟨hF, hFs⟩ := hFs
    obtain ⟨vs, hlen, hvs⟩ := ih hFs
    obtain ⟨-, hpos⟩ := fieldWf_position hF
    obtain ⟨x, hx⟩ := exists_codesFor hwf hF (sliceGet_lt (by omega) F.lsb.toNat v)
    refine ⟨x :: vs, congrArg Nat.succ hlen, fun s hs => ⟨?_, ?_⟩⟩
    · obtain ⟨⟨t, ht, hst⟩, -⟩ := hx s hs
      have ⟨_, hcfg, _⟩ := hst
      obtain ⟨⟨u, hu, htu⟩, -⟩ := hvs t (hcfg.trans hs)
      exact ⟨u, (Pseudo.from_bind_ok ht).trans (Pseudo.from_bind_ok hu), onlyOutputs_trans hst htu⟩
    · obtain ⟨-, ⟨t, ht, hst⟩⟩ := hx s hs
      have ⟨_, hcfg, _⟩ := hst
      obtain ⟨-, ⟨u, hu, htu⟩⟩ := hvs t (hcfg.trans hs)
      exact ⟨u, (Pseudo.from_bind_ok ht).trans (Pseudo.from_bind_ok hu), onlyOutputs_trans hst htu⟩

/-- Settles O39: REG.UNPACK reads the slices, their typed values encode to the slices again, and packing undoes unpacking. -/
theorem encodeUndoesDecode : Obligations.EncodeUndoesDecode := by
  intro r d x s hwf hr hlen hinv
  obtain ⟨t, ht, -, htcfg, -⟩ := regUnpack_slices hwf hr hlen x
  obtain ⟨vs, hvs, hround⟩ := exists_typedValues hwf (fun F hF => regWf_field (configWf_reg hwf hr) hF)
    (undoHooks d.hooks x)
  obtain ⟨⟨u, hu, -, hucfg, -⟩, -⟩ := hround t htcfg
  have hcfg : u.cfg = s.cfg := hucfg.trans htcfg
  obtain ⟨-, ⟨v, hv, -, hvcfg, -⟩⟩ := hround u hcfg
  obtain ⟨w, hw, -⟩ := regPack_slices (s := v) (by rw [hvcfg, hcfg, hwf]) (by rw [hvcfg, hcfg, hr]) hlen (undoHooks d.hooks x)
  rw [applyHooks_of_inverts hinv, undoHooks_undoHooks] at hw
  refine ⟨undoHooks d.hooks x, vs, u, w, ?_, ?_⟩
  · rw [regDecode, Pseudo.from_bind_ok (findTemplate_of_l32 hr hlen), Pseudo.from_bind_ok ht, Pseudo.from_bind_ok hu]
    rfl
  · rw [regEncode, Pseudo.from_bind_ok (findTemplate_of_l32 (by rw [hcfg, hr]) hlen), if_pos hvs, Pseudo.from_bind_ok hv, hw]

end Sys2Proof.Machine
end

section
/-! SUPPORT. Error detection (R99 of 40_crc.md): the checksum functions are linear over exclusive-or, so a sequence that ends with its
checksum stays one exactly when the error alone has remainder zero. A flipped bit is a power of `x`, and for CRC_POLY = 0x07
neither a power of `x` nor the difference of two near ones is divisible by the generator. -/

namespace Sys2Proof.Machine

open Sys2Proof.Safety

/-! ### Linearity -/

theorem crcStep_xor (poly c d b e : Byte) : crcStep poly (c ^^^ d) (b ^^^ e) = crcStep poly c b ^^^ crcStep poly d e := by
  have hsort : c ^^^ d ^^^ (b ^^^ e) = c ^^^ b ^^^ (d ^^^ e) := by ac_rfl
  rw [crcStep, crcStep, crcStep, hsort, crcShifts_xor]

/-- The remainder of an exclusive-or from an exclusive-or of two starts (R99). -/
theorem crcFrom_xorBytes (poly c d : Byte) {x e : List Byte} (hlen : x.length = e.length) :
    crcFrom poly (c ^^^ d) (xorBytes x e) = crcFrom poly c x ^^^ crcFrom poly d e := by
  induction x generalizing c d e with
  | nil =>
    obtain rfl := List.length_eq_zero_iff.mp hlen.symm
    rfl
  | cons b x ih =>
    cases e with
    | nil => cases hlen
    | cons f e =>
      rw [crcFrom_cons, crcFrom_cons, ← ih _ _ (Nat.succ.inj hlen), ← crcStep_xor]
      rfl

/-- Settles O6: both remainders start from zero, and every step is linear. -/
theorem crcIsLinear : Obligations.CrcIsLinear := fun poly _ _ hlen => crcFrom_xorBytes poly crcInitial crcInitial hlen

/-! ### Turns of the loop -/

theorem crcShifts_add (poly : Byte) (m n : Nat) (c : Byte) :
    crcShifts poly (m + n) c = crcShifts poly n (crcShifts poly m c) := by
  induction m generalizing c with
  | zero => rw [Nat.zero_add, crcShifts]
  | succ m ih => rw [Nat.succ_add, crcShifts, crcShifts, ih]

/-- A change of the start goes through eight turns for each byte. -/
theorem crcFrom_xor_start (poly c d : Byte) (bs : List Byte) :
    crcFrom poly (c ^^^ d) bs = crcFrom poly c bs ^^^ crcShifts poly (8 * bs.length) d := by
  induction bs generalizing c d with
  | nil => rfl
  | cons b bs ih =>
    have hstep : crcStep poly (c ^^^ d) b = crcStep poly c b ^^^ crcShifts poly 8 d := by
      rw [crcStep, crcStep, show c ^^^ d ^^^ b = c ^^^ b ^^^ d by ac_rfl, crcShifts_xor]
    rw [crcFrom_cons, hstep, ih, ← crcShifts_add, List.length_cons, Nat.mul_succ, Nat.add_comm 8]
    rfl

/-- Before a bit reaches the top, a turn of the loop shifts it. -/
theorem crcShifts_one (poly : Byte) {k : Nat} (hk : k < 8) : crcShifts poly k 1#8 = 1#8 <<< k := by
  interval_cases k <;> simp [crcShifts, crcShift, BitVec.msb]

/-! ### A flipped bit -/

theorem flipBit_cons_low {k : Nat} (hk : k < 8) (b : Byte) (bs : List Byte) :
    flipBit k (b :: bs) = (b ^^^ 1#8 <<< k) :: bs := by
  rw [flipBit, Nat.div_eq_of_lt hk, Nat.mod_eq_of_lt hk, List.modify_zero_cons]

theorem flipBit_cons_high (k : Nat) (b : Byte) (bs : List Byte) : flipBit (k + 8) (b :: bs) = b :: flipBit k bs := by
  rw [flipBit, Nat.add_div_right k (by decide), Nat.add_mod_right, List.modify_succ_cons, flipBit]

@[simp] theorem flipBit_length (k : Nat) (bs : List Byte) : (flipBit k bs).length = bs.length := by
  rw [flipBit, List.length_modify]

/-- A bit of the second part of a sequence. -/
theorem flipBit_append (p q : List Byte) (k : Nat) : flipBit (k + 8 * p.length) (p ++ q) = p ++ flipBit k q := by
  induction p with
  | nil => rfl
  | cons b p ih => rw [List.length_cons, Nat.mul_succ, ← Nat.add_assoc, List.cons_append, flipBit_cons_high, ih, List.cons_append]

/-- The turns of the loop that bit `k` of a sequence of `n` bytes goes through, counted from bit 0 of a remainder. -/
def turnsAfter (n k : Nat) : Nat := 8 * (n - k / 8) + k % 8

/-- A flipped bit adds its power of `x` to the remainder (R99). -/
theorem crcFrom_flipBit (poly c : Byte) {k : Nat} {bs : List Byte} (hk : k < 8 * bs.length) :
    crcFrom poly c (flipBit k bs) = crcFrom poly c bs ^^^ crcShifts poly (turnsAfter bs.length k) 1#8 := by
  induction bs generalizing c k with
  | nil => exact absurd hk (Nat.not_lt_zero k)
  | cons b bs ih =>
    by_cases hlow : k < 8
    · have hturns : turnsAfter (b :: bs).length k = k + 8 + 8 * bs.length := by
        rw [turnsAfter, List.length_cons]
        omega
      have hstep : crcStep poly c (b ^^^ 1#8 <<< k) = crcStep poly c b ^^^ crcShifts poly (k + 8) 1#8 := by
        rw [crcShifts_add, crcShifts_one poly hlow, crcStep, crcStep, ← BitVec.xor_assoc, crcShifts_xor]
      rw [flipBit_cons_low hlow, crcFrom_cons, hstep, crcFrom_xor_start, ← crcShifts_add, hturns]
      rfl
    · obtain ⟨j, rfl⟩ := Nat.exists_eq_add_of_le' (Nat.le_of_not_lt hlow)
      have hturns : turnsAfter (b :: bs).length (j + 8) = turnsAfter bs.length j := by
        rw [turnsAfter, turnsAfter, List.length_cons]
        omega
      rw [List.length_cons] at hk
      rw [flipBit_cons_high, crcFrom_cons, ih _ (by omega), hturns]
      rfl

/-! ### The generator 0x07 -/

/-- The constant term of the generator 0x07 keeps a remainder from vanishing. -/
theorem crcShift_eq_zero {c : Byte} (h : crcShift 0x07#8 c = 0#8) : c = 0#8 := by
  revert c
  decide

theorem crcShifts_eq_zero {n : Nat} {c : Byte} (h : crcShifts 0x07#8 n c = 0#8) : c = 0#8 := by
  induction n generalizing c with
  | zero => exact h
  | succ n ih => exact crcShift_eq_zero (ih h)

/-- Equal remainders were equal before. -/
theorem crcShifts_inj {n : Nat} {c d : Byte} (h : crcShifts 0x07#8 n c = crcShifts 0x07#8 n d) : c = d :=
  BitVec.xor_eq_zero_iff.mp (crcShifts_eq_zero (by rw [crcShifts_xor, h, BitVec.xor_self]))

/-- The order of `x` modulo the generator 0x07 is no less than 127. -/
theorem crcShifts_one_ne_one : ∀ n < 127, 0 < n → crcShifts 0x07#8 n 1#8 ≠ 1#8 := by
  decide

/-- Different powers of `x` less than 127 apart have different remainders. -/
theorem crcShifts_one_ne {m n : Nat} (hlt : m < n) (hnear : n < m + 127) :
    crcShifts 0x07#8 m 1#8 ≠ crcShifts 0x07#8 n 1#8 := by
  obtain ⟨d, rfl⟩ := Nat.exists_eq_add_of_lt hlt
  rw [show m + d + 1 = d + 1 + m by omega, crcShifts_add]
  exact fun h => crcShifts_one_ne_one (d + 1) (by omega) (Nat.succ_pos d) (crcShifts_inj h).symm

/-- A remainder that an error leaves as it is has met an error of remainder zero. -/
theorem xor_eq_self_iff {c e : Byte} : c ^^^ e = c ↔ e = 0#8 := by
  rw [← BitVec.xor_right_inj (x := e) c, BitVec.xor_zero]

/-! ### Sequences that end with their checksum -/

/-- A sequence ends with its checksum when its last byte is that of the bytes before it. -/
theorem validFrame_concat {c : Config} {ctx : List Byte} {b : Byte} : validFrame c (ctx ++ [b]) ↔ b = checksum c ctx := by
  constructor
  · rintro ⟨ctx', h⟩
    obtain ⟨rfl, hb⟩ := List.append_inj' h rfl
    exact List.singleton_inj.mp hb
  · rintro rfl
    exact ⟨ctx, rfl⟩

/-- Every sequence that ends with its checksum leaves one remainder, whatever it holds. -/
theorem crcRaw_of_validFrame {c : Config} {bs : List Byte} (h : validFrame c bs) :
    crcRaw c.crcPoly bs = crcStep c.crcPoly 0x00#8 c.crcXorOut := by
  obtain ⟨ctx, rfl⟩ := h
  rw [crcRaw_append, crcFrom_cons, crcFrom_nil, checksum, crcStep_eq_table, ← BitVec.xor_assoc, BitVec.xor_self,
    BitVec.zero_xor]

section
variable {c : Config} (hpoly : c.crcPoly = 0x07#8) {bs : List Byte} (hvalid : validFrame c bs)
include hpoly hvalid

/-- One flipped bit of a sequence that ends with its checksum is detected (R99). -/
theorem not_validFrame_flipBit {j : Nat} (hj : j < 8 * bs.length) : ¬ validFrame c (flipBit j bs) := by
  intro hflip
  have hraw := (crcRaw_of_validFrame hflip).trans (crcRaw_of_validFrame hvalid).symm
  rw [hpoly, crcRaw, crcRaw, crcFrom_flipBit _ _ hj, xor_eq_self_iff] at hraw
  exact absurd (crcShifts_eq_zero hraw) (by decide)

/-- Two flipped bits of a sequence of at most 14 bytes that ends with its checksum are detected (R99). -/
theorem not_validFrame_flipBit_flipBit (hlen : bs.length ≤ 14) {j k : Nat} (hjk : j < k) (hk : k < 8 * bs.length) :
    ¬ validFrame c (flipBit j (flipBit k bs)) := by
  intro hflip
  have hraw := (crcRaw_of_validFrame hflip).trans (crcRaw_of_validFrame hvalid).symm
  have hj : j < 8 * (flipBit k bs).length := by rw [flipBit_length]; omega
  rw [hpoly, crcRaw, crcRaw, crcFrom_flipBit _ _ hj, crcFrom_flipBit _ _ hk, flipBit_length, BitVec.xor_assoc,
    xor_eq_self_iff, BitVec.xor_eq_zero_iff] at hraw
  have hne : turnsAfter bs.length k ≠ turnsAfter bs.length j := by
    rw [turnsAfter, turnsAfter]
    omega
  have hbound : ∀ i, i < 8 * bs.length → 8 ≤ turnsAfter bs.length i ∧ turnsAfter bs.length i < 120 := fun i hi => by
    rw [turnsAfter]
    omega
  have hkb := hbound k hk
  have hjb := hbound j (by omega)
  rcases Nat.lt_or_gt_of_ne hne with hlt | hlt
  · exact crcShifts_one_ne hlt (by omega) hraw
  · exact crcShifts_one_ne hlt (by omega) hraw.symm

end

/-- Settles O7: the error of one or of two flipped bits alone has a remainder other than zero. -/
theorem oneOrTwoFlippedBitsAreDetected : Obligations.OneOrTwoFlippedBitsAreDetected :=
  fun _ _ hpoly hlen hvalid => ⟨fun _ => not_validFrame_flipBit hpoly hvalid,
    fun _ _ => not_validFrame_flipBit_flipBit hpoly hvalid hlen⟩

/-! ### The parity of ones -/

/-- The number of ones in a byte is odd. -/
def oddByte (b : Byte) : Bool := parityBits (b.setWidth 32) 8

theorem parityBits_xor (x y : Reg32) (n : Nat) : parityBits (x ^^^ y) n = xor (parityBits x n) (parityBits y n) := by
  induction n with
  | zero => rfl
  | succ n ih =>
    rw [parityBits, parityBits, parityBits, ih, BitVec.getLsbD_xor, Bool.xor_assoc, Bool.xor_assoc,
      Bool.xor_left_comm (y.getLsbD n)]

theorem oddByte_xor (a b : Byte) : oddByte (a ^^^ b) = xor (oddByte a) (oddByte b) := by
  rw [oddByte, BitVec.setWidth_xor, parityBits_xor]
  rfl

/-- The generator 0x07 has an even number of terms, so a turn of the loop keeps the parity. -/
theorem oddByte_crcShift (c : Byte) : oddByte (crcShift 0x07#8 c) = oddByte c := by
  revert c
  decide

theorem oddByte_crcShifts (n : Nat) (c : Byte) : oddByte (crcShifts 0x07#8 n c) = oddByte c := by
  induction n generalizing c with
  | zero => rfl
  | succ n ih => rw [crcShifts, ih, oddByte_crcShift]

/-- The remainder has the parity of the start and of the sequence together. -/
theorem oddByte_crcFrom (c : Byte) (bs : List Byte) :
    oddByte (crcFrom 0x07#8 c bs) = xor (oddByte c) (oddOnes bs) := by
  induction bs generalizing c with
  | nil => rw [crcFrom_nil, oddOnes, Bool.xor_false]
  | cons b bs ih =>
    rw [crcFrom_cons, ih, crcStep, oddByte_crcShifts, oddByte_xor, Bool.xor_assoc]
    rfl

/-- Settles O8: every sequence that ends with its checksum leaves the same remainder, which has the parity of its ones. -/
theorem oddErrorsAreDetected : Obligations.OddErrorsAreDetected := by
  intro c x y hpoly hx hy
  have hraw := (crcRaw_of_validFrame hx).trans (crcRaw_of_validFrame hy).symm
  have hparity := congrArg oddByte hraw
  rw [hpoly, crcRaw, crcRaw, oddByte_crcFrom, oddByte_crcFrom] at hparity
  exact Bool.xor_right_inj.mp hparity

end Sys2Proof.Machine
end

section
/-! SUPPORT. Every received frame (R175 of 43_frame_sequences.md): one of another length stops FRM.RDCHK, one of its length is decided by
its checksum, and so flipped bits are detected on the read path (R99 of 40_crc.md). -/

namespace Sys2Proof.Machine

open Sys2Proof.Safety

section
variable {s : State} {len : BitVec 2} {k : LengthClass} {addr : BitVec 12} {h0 h1 h2 : Byte}
  (hl : lenClass? s.cfg len = some k)
  (hhdr : exec (.hdrEnc s.cfg.opBitRead 1#1 len addr) s = .next (s.answer (.header h0 h1 h2)))
include hl hhdr

/-- FRM.RDCHK stops on a frame of another length, before its first CRC.INIT (log entry 12). -/
theorem frmRdchk_from_of_length_ne {rx : List Byte} (hrx : rx.length ≠ nbytes k + 1) :
    (frmRdchk addr len rx).from s = (.error (.stopped .malformedRequest), s.answer (.header h0 h1 h2)) := by
  rw [frmRdchk, Pseudo.from_bind_ok (config_from s), Pseudo.from_bind_ok (issueHeader_ok hhdr)]
  simp only [hl]
  split
  case h_1 received hdrop =>
    have hlength := congrArg List.length hdrop
    rw [List.length_drop, List.length_singleton] at hlength
    omega
  case h_2 => rfl

/-- FRM.RDCHK of a frame of its length accepts it when the read context and the frame together end with their checksum, and
ends with ChecksumMismatch otherwise (R175). -/
theorem frmRdchk_from_of_length {rx : List Byte} (hrx : rx.length = nbytes k + 1) :
    (validFrame s.cfg (readContext s.cfg h0 h1 h2 rx) ∧
      ∃ v t, t.cfg = s.cfg ∧ (frmRdchk addr len rx).from s = (.ok v, t)) ∨
    (¬ validFrame s.cfg (readContext s.cfg h0 h1 h2 rx) ∧
      ∃ e g t, (frmRdchk addr len rx).from s = (.error (.raised (.checksumMismatch e g)), t)) := by
  obtain rfl | ⟨data, b, rfl⟩ := rx.eq_nil_or_concat'
  · cases hrx
  · obtain ⟨t, hcfg, hcrc, hrun⟩ := frmRdchk_from_of_class hl hhdr (Nat.succ.inj (List.length_append.symm.trans hrx)) b
    have hvalid : validFrame s.cfg (readContext s.cfg h0 h1 h2 (data ++ [b])) ↔ t.crc ^^^ t.cfg.crcXorOut = b := by
      rw [readContext_eq_append _ _ _ _ (data ++ [b]), ← List.append_assoc, validFrame_concat, hcrc, hcfg]
      exact eq_comm
    rw [hvalid, hrun, checkReceived_from]
    by_cases hb : t.crc ^^^ t.cfg.crcXorOut = b
    · exact .inl ⟨hb, _, t.answer (.check _), hcfg, by rw [if_pos hb]⟩
    · exact .inr ⟨hb, _, _, _, by rw [if_neg hb]⟩

end

/-- FRM.RDCHK accepts only frames whose length code has a class and whose length is that of the class. -/
theorem length_of_frmRdchk_ok {addr : BitVec 12} {len : BitVec 2} {rx : List Byte} {s t : State} {v : BitVec 64}
    (h : (frmRdchk addr len rx).from s = (.ok v, t)) : ∃ k, lenClass? s.cfg len = some k ∧ rx.length = nbytes k + 1 := by
  cases hl : lenClass? s.cfg len with
  | none =>
    rw [frmRdchk_from_of_none hl] at h
    cases h
  | some k =>
    obtain ⟨h0, h1, h2, -, hhdr⟩ := exec_hdrEnc_of_class hl s.cfg.opBitRead addr
    by_cases hrx : rx.length = nbytes k + 1
    · exact ⟨k, rfl, hrx⟩
    · rw [frmRdchk_from_of_length_ne hl hhdr hrx] at h
      cases h

/-- A bit of a received frame is a bit of the read context and the frame, five bytes further on. -/
theorem readContext_flipBit (c : Config) (h0 h1 h2 : Byte) (j : Nat) (rx : List Byte) :
    readContext c h0 h1 h2 (flipBit j rx) = flipBit (j + 40) (readContext c h0 h1 h2 rx) :=
  (flipBit_append (readContext c h0 h1 h2 []) rx j).symm

theorem readContext_length (c : Config) (h0 h1 h2 : Byte) (rx : List Byte) :
    (readContext c h0 h1 h2 rx).length = rx.length + 5 := by
  simp [readContext]

/-- Settles O43: context and frame are together at most 14 bytes that end with their checksum, and a flipped bit of the frame is
one of theirs, so with one or two of them they end with it no more. -/
theorem frmRdchkDetectsOneOrTwoFlippedBits : Obligations.FrmRdchkDetectsOneOrTwoFlippedBits := by
  intro addr len rx s t v hpoly hok
  obtain ⟨k, hl, hrx⟩ := length_of_frmRdchk_ok hok
  obtain ⟨h0, h1, h2, -, hhdr⟩ := exec_hdrEnc_of_class hl s.cfg.opBitRead addr
  have hvalid : validFrame s.cfg (readContext s.cfg h0 h1 h2 rx) := by
    obtain ⟨hvalid, -⟩ | ⟨-, e, g, u, herr⟩ := frmRdchk_from_of_length hl hhdr hrx
    · exact hvalid
    · cases hok.symm.trans herr
  have hlen := readContext_length s.cfg h0 h1 h2 rx
  have hbytes := nbytes_le k
  have hdetect : ∀ rx' : List Byte, rx'.length = rx.length → ¬ validFrame s.cfg (readContext s.cfg h0 h1 h2 rx') →
      ∃ e g u, (frmRdchk addr len rx').from s = (.error (.raised (.checksumMismatch e g)), u) := fun rx' hrx' hnot => by
    obtain ⟨hvalid', -⟩ | ⟨-, herr⟩ := frmRdchk_from_of_length hl hhdr (hrx'.trans hrx)
    · exact absurd hvalid' hnot
    · exact herr
  refine ⟨fun j hj => hdetect _ (flipBit_length j rx) ?_, fun j k hjk hk => hdetect _ (by simp) ?_⟩
  · rw [readContext_flipBit]
    exact not_validFrame_flipBit hpoly hvalid (by omega)
  · rw [readContext_flipBit, readContext_flipBit]
    exact not_validFrame_flipBit_flipBit hpoly hvalid (by omega) (by omega) (by omega)

end Sys2Proof.Machine
end

section
/-! SUPPORT. The write-verify (R178, R193, R196 of 43_frame_sequences.md and 60_exceptions.md): its write frame, and after it the first
error in the order of R198. -/

namespace Sys2Proof.Machine

/-! ### The bus calls -/

@[simp] theorem busWrite_none_from (s : State) : (busWrite none).from s = (.ok (), s) := rfl

@[simp] theorem busWrite_some_from (e : TransportError) (s : State) : (busWrite (some e)).from s = (.error (.transport e), s) := rfl

@[simp] theorem busRead_inl_from (e : TransportError) (s : State) : (busRead (.inl e)).from s = (.error (.transport e), s) := rfl

@[simp] theorem busRead_inr_from (rx : List Byte) (s : State) : (busRead (.inr rx)).from s = (.ok rx, s) := rfl

/-- The first of the three bus calls that fails reports the error (R178, R198). -/
def firstBusError (bus : BusReplies) (e : TransportError) : Prop :=
  bus.write = some e ∨ bus.write = none ∧ bus.command = some e ∨
    bus.write = none ∧ bus.command = none ∧ bus.read = .inl e

/-- A bus call fails, or all three succeed (R196). -/
theorem busReplies_cases (bus : BusReplies) : (∃ e, firstBusError bus e) ∨ ∃ rx, bus = ⟨none, none, .inr rx⟩ := by
  obtain ⟨write, command, read⟩ := bus
  cases write with
  | some e => exact .inl ⟨e, .inl rfl⟩
  | none =>
    cases command with
    | some e => exact .inl ⟨e, .inr (.inl ⟨rfl, rfl⟩)⟩
    | none =>
      cases read with
      | inl e => exact .inl ⟨e, .inr (.inr ⟨rfl, rfl, rfl⟩)⟩
      | inr rx => exact .inr ⟨rx, rfl⟩

/-! ### After the write frame -/

/-- The write-verify from the end of its write frame on (R178). -/
def afterWrite (r : Byte) (d : RegDesc) (c : Config) (v : Reg32) (bus : BusReplies) : Pseudo Unit := do
  busWrite bus.write
  let _ ← frmRdcmd d.address (lenCode c d.len)
  busWrite bus.command
  let rx ← busRead bus.read
  let readback ← frmRdchk d.address (lenCode c d.len) rx
  regVerify r v (readback.setWidth 32)

/-- FRM.WR keeps the configuration (R24). -/
theorem frmWr_cfg {s t : State} {len : BitVec 2} {k : LengthClass} {addr : BitVec 12} {data : BitVec 64} {bs : List Byte}
    (hl : lenClass? s.cfg len = some k) (h : (frmWr addr len data).from s = (.ok bs, t)) : t.cfg = s.cfg := by
  obtain ⟨h0, h1, h2, -, hhdr⟩ := exec_hdrEnc_of_class hl s.cfg.opBitWrite addr
  obtain ⟨u, hcfg, -, hrest⟩ :=
    init_feed_from (writeContext s.cfg h0 h1 h2 (leBytes data (nbytes k))) (s.answer (.header h0 h1 h2))
  rw [frmWr, Pseudo.from_bind_ok (config_from s), Pseudo.from_bind_ok (issueHeader_ok hhdr)] at h
  simp only [hl] at h
  rw [hrest, Pseudo.from_bind_ok (issueSum_crcRead u)] at h
  cases h
  exact hcfg

section
variable {r : Byte} {d : RegDesc} {s : State} (hwf : configWf s.cfg = true) (hr : regTemplate? s.cfg r = some d)
  (hlen : d.len = .l32)
include hwf hr hlen

/-- The write-verify runs its write frame, and the rest in a state whose `crc` is the remainder of the write context (R178). -/
theorem writeVerify_from (v : Reg32) : ∃ (w0 w1 w2 : Byte) (t : State),
    (w0 ++ w1 ++ w2 : BitVec 24) =
      (s.cfg.opBitWrite ++ 1#1 ++ s.cfg.lenCode32 ++ s.cfg.sectionId ++ s.cfg.pageId ++ d.address : BitVec 24) ∧
    t.cfg = s.cfg ∧
    t.crc = crcRaw s.cfg.crcPoly ([addrByte s.cfg 0#1, w0, w1, w2] ++ leBytes (v.setWidth 64) 4) ∧
    ∀ bus, (writeVerify r v bus).from s = (afterWrite r d t.cfg v bus).from t := by
  have hl : lenClass? s.cfg (lenCode s.cfg d.len) = some .l32 := hlen ▸ lenClass?_lenCode hwf .l32
  obtain ⟨w0, w1, w2, hbits, hhdr⟩ := exec_hdrEnc_of_class hl s.cfg.opBitWrite d.address
  obtain ⟨t, ht, hcrc⟩ := frmWr_from_of_class hl hhdr (v.setWidth 64)
  rw [hlen] at hbits
  refine ⟨w0, w1, w2, t, hbits, frmWr_cfg hl ht, hcrc, fun bus => ?_⟩
  rw [writeVerify, Pseudo.from_bind_ok (findTemplate_of_l32 hr hlen), Pseudo.from_bind_ok (config_from s),
    Pseudo.from_bind_ok ht, frmWr_cfg hl ht, afterWrite]

end

section
variable {r : Byte} {d : RegDesc} {s : State} {h0 h1 h2 : Byte}
  (hhdr : exec (.hdrEnc s.cfg.opBitRead 1#1 (lenCode s.cfg d.len) d.address) s = .next (s.answer (.header h0 h1 h2)))
include hhdr

/-- The first transport error after the write frame ends the write-verify, and `crc` is as that frame left it (R196, R198). -/
theorem afterWrite_of_transport (v : Reg32) {bus : BusReplies} {e : TransportError}
    (hbus : firstBusError bus e) : ∃ t, (afterWrite r d s.cfg v bus).from s = (.error (.transport e), t) ∧ t.crc = s.crc := by
  have hcommand := (frmRdcmd_from d.address (lenCode s.cfg d.len) s).trans (issueHeader_ok hhdr)
  rw [afterWrite]
  obtain hw | ⟨hw, hc⟩ | ⟨hw, hc, hread⟩ := hbus
  · exact ⟨s, by rw [hw, Pseudo.from_bind_error (busWrite_some_from e s)], rfl⟩
  · refine ⟨s.answer (.header h0 h1 h2), ?_, rfl⟩
    rw [hw, hc, Pseudo.from_bind_ok (busWrite_none_from s), Pseudo.from_bind_ok hcommand,
      Pseudo.from_bind_error (busWrite_some_from e _)]
  · refine ⟨s.answer (.header h0 h1 h2), ?_, rfl⟩
    rw [hw, hc, hread, Pseudo.from_bind_ok (busWrite_none_from s), Pseudo.from_bind_ok hcommand,
      Pseudo.from_bind_ok (busWrite_none_from _), Pseudo.from_bind_error (busRead_inl_from e _)]

/-- Without a transport error the received frame is checked and then compared (R178). -/
theorem afterWrite_of_received (v : Reg32) (rx : List Byte) :
    (afterWrite r d s.cfg v ⟨none, none, .inr rx⟩).from s =
      (frmRdchk d.address (lenCode s.cfg d.len) rx >>= fun readback => regVerify r v (readback.setWidth 32)).from
        (s.answer (.header h0 h1 h2)) := by
  have hcommand := (frmRdcmd_from d.address (lenCode s.cfg d.len) s).trans (issueHeader_ok hhdr)
  rw [afterWrite, Pseudo.from_bind_ok (busWrite_none_from s), Pseudo.from_bind_ok hcommand,
    Pseudo.from_bind_ok (busWrite_none_from _), Pseudo.from_bind_ok (busRead_inr_from rx _)]

end

/-- FRM.RDCHK accepts and keeps the configuration, or ends in another way than with ReadbackMismatch (R193). -/
theorem frmRdchk_cases (addr : BitVec 12) (len : BitVec 2) (rx : List Byte) (s : State) :
    (∃ v t, t.cfg = s.cfg ∧ (frmRdchk addr len rx).from s = (.ok v, t)) ∨
    (∃ e t, (frmRdchk addr len rx).from s = (.error e, t) ∧ ∀ w rb, e ≠ .raised (.readbackMismatch w rb)) := by
  cases hl : lenClass? s.cfg len with
  | none => exact .inr ⟨_, _, frmRdchk_from_of_none hl addr rx, nofun⟩
  | some k =>
    obtain ⟨h0, h1, h2, -, hhdr⟩ := exec_hdrEnc_of_class hl s.cfg.opBitRead addr
    by_cases hrx : rx.length = nbytes k + 1
    · obtain ⟨-, hok⟩ | ⟨-, e, g, t, herr⟩ := frmRdchk_from_of_length hl hhdr hrx
      · exact .inl hok
      · exact .inr ⟨_, t, herr, nofun⟩
    · exact .inr ⟨_, _, frmRdchk_from_of_length_ne hl hhdr hrx, nofun⟩

/-- Outside the field codec a descriptor is not read (U19). -/
theorem findTemplate_of_outside {r : Byte} {d : RegDesc} {s : State} (hr : regTemplate? s.cfg r = some d)
    (hlen : d.len ≠ .l32) : (findTemplate r).from s = (.error (.stopped .notThirtyTwoBit), s) := by
  simp only [findTemplate_from, hr, if_neg hlen]

section
variable {r : Byte} {d : RegDesc} {s : State} (hwf : configWf s.cfg = true) (hr : regTemplate? s.cfg r = some d)
  (hlen : d.len = .l32)
include hwf hr hlen

/-- EQ.REG gives one answer in all states of a configuration (R156). -/
theorem exec_eqReg_of_cfg (a b : Reg32) : ∃ e, ∀ t : State, t.cfg = s.cfg →
    exec (.eqReg r a b) t = .next (t.answer (.equal e)) := by
  obtain ⟨e, -, he⟩ := exec_eqReg_of_wf hwf hr hlen a b
  refine ⟨e, fun t ht => ?_⟩
  obtain ⟨e', hexec, he'⟩ := exec_eqReg_of_wf (s := t) (ht ▸ hwf) (ht ▸ hr) hlen a b
  rw [ht, ← he, ← Bool.eq_iff_iff] at he'
  rw [hexec, he']

end

/-- Two pseudo-operations with the same result and state are continued alike. -/
theorem Pseudo.from_bind_congr {α β : Type} {p q : Pseudo α} {s t : State} (h : p.from s = q.from t) (f : α → Pseudo β) :
    (p >>= f).from s = (q >>= f).from t := by
  rw [Pseudo.from_bind, Pseudo.from_bind, h]

theorem answer_equal_inj {s : State} {e e' : Bool} (h : (.next (s.answer (.equal e)) : Result) = .next (s.answer (.equal e'))) :
    e = e' := by
  simpa [State.answer] using h

/-- The end of a read and comparison: the received byte against the remainder, then EQ.REG's answer `e` on the values written and read
(R175, R177). -/
def readOutcome (c : Config) (remainder rx : Byte) (written readback : Reg32) (e : Bool) : Except PseudoError Unit :=
  if remainder ^^^ c.crcXorOut = rx then
    if e then .ok () else .error (.raised (.readbackMismatch written readback))
  else .error (.raised (.checksumMismatch (remainder ^^^ c.crcXorOut) rx))

/-- The check of a received byte and then the comparison, which EQ.REG answers with `e` (R175, R177). -/
theorem checkReceived_regVerify_from {r : Byte} {v : Reg32} {data : List Byte} {s : State} {e : Bool}
    (he : ∀ t : State, t.cfg = s.cfg → exec (.eqReg r v (BitVec.ofNat 32 (leValue data))) t = .next (t.answer (.equal e)))
    (rx : Byte) : ∃ t, t.crc = s.crc ∧
      (checkReceived data rx >>= fun readback => regVerify r v (readback.setWidth 32)).from s =
        (readOutcome s.cfg s.crc rx v (BitVec.ofNat 32 (leValue data)) e, t) := by
  have hcheck := checkReceived_from data rx s
  rw [readOutcome]
  by_cases hrx : s.crc ^^^ s.cfg.crcXorOut = rx
  · rw [if_pos hrx] at hcheck ⊢
    rw [Pseudo.from_bind_ok hcheck, BitVec.setWidth_ofNat_of_le (by decide)]
    exact ⟨(s.answer (.check _)).answer (.equal e), rfl, regVerify_from_of_eqReg (he (s.answer _) rfl)⟩
  · rw [if_neg hrx] at hcheck ⊢
    exact ⟨s.answer (.check _), rfl, Pseudo.from_bind_error hcheck⟩

section
variable {r : Byte} {d : RegDesc} {s : State} (hwf : configWf s.cfg = true) (hlen : d.len = .l32)
  (hr : regTemplate? s.cfg r = some d)
include hwf hlen

/-- HDR.ENC packs the header of the read command and of the read (R178). -/
theorem exec_hdrEnc_of_register (op : BitVec 1) : ∃ h0 h1 h2 : Byte,
    (h0 ++ h1 ++ h2 : BitVec 24) =
      (op ++ 1#1 ++ s.cfg.lenCode32 ++ s.cfg.sectionId ++ s.cfg.pageId ++ d.address : BitVec 24) ∧
    exec (.hdrEnc op 1#1 (lenCode s.cfg d.len) d.address) s = .next (s.answer (.header h0 h1 h2)) := by
  rw [hlen]
  exact exec_hdrEnc_of_class (lenClass?_lenCode hwf .l32) op d.address

/-- After the write frame, a received frame of five bytes is checked against the read context, and its value is compared by EQ.REG
(R175, R177, R178). -/
theorem afterWrite_of_data : ∃ r0 r1 r2 : Byte,
    (r0 ++ r1 ++ r2 : BitVec 24) =
      (s.cfg.opBitRead ++ 1#1 ++ s.cfg.lenCode32 ++ s.cfg.sectionId ++ s.cfg.pageId ++ d.address : BitVec 24) ∧
    ∀ (v : Reg32) (data : List Byte) (rx : Byte) (e : Bool), data.length = 4 →
      (∀ t : State, t.cfg = s.cfg → exec (.eqReg r v (BitVec.ofNat 32 (leValue data))) t = .next (t.answer (.equal e))) →
      ∃ t, t.crc = crcRaw s.cfg.crcPoly ([addrByte s.cfg 0#1, r0, r1, r2, addrByte s.cfg 1#1] ++ data) ∧
        (afterWrite r d s.cfg v ⟨none, none, .inr (data ++ [rx])⟩).from s =
          (readOutcome s.cfg t.crc rx v (BitVec.ofNat 32 (leValue data)) e, t) := by
  obtain ⟨c0, c1, c2, -, hcommand⟩ := exec_hdrEnc_of_register hwf hlen s.cfg.opBitRead
  obtain ⟨r0, r1, r2, hbits, hread⟩ :=
    exec_hdrEnc_of_register (s := s.answer (.header c0 c1 c2)) hwf hlen s.cfg.opBitRead
  have hl : lenClass? s.cfg (lenCode s.cfg d.len) = some .l32 := hlen ▸ lenClass?_lenCode hwf .l32
  refine ⟨r0, r1, r2, hbits, fun v data rx e hdata he => ?_⟩
  obtain ⟨t, htcfg, htcrc, hrdchk⟩ := frmRdchk_from_of_class (s := s.answer (.header c0 c1 c2)) hl hread hdata rx
  obtain ⟨u, hucrc, hu⟩ := checkReceived_regVerify_from (s := t) (fun x hx => he x (hx.trans htcfg)) rx
  refine ⟨u, hucrc.trans htcrc, ?_⟩
  rw [afterWrite_of_received hcommand, Pseudo.from_bind_congr hrdchk, hu, hucrc, htcfg]
  rfl

include hr

/-- After the write frame ReadbackMismatch comes from EQ.REG alone, on the data of an accepted frame (R193). -/
theorem afterWrite_readbackMismatch {v w rb : Reg32} {bus : BusReplies} {t : State}
    (h : (afterWrite r d s.cfg v bus).from s = (.error (.raised (.readbackMismatch w rb)), t)) :
    w = v ∧ bus.write = none ∧ bus.command = none ∧ ∃ rx data u u', bus.read = .inr rx ∧ u.cfg = s.cfg ∧
      (frmRdchk d.address (lenCode s.cfg .l32) rx).from u = (.ok data, u') ∧ rb = data.setWidth 32 ∧
      exec (.eqReg r v rb) u' = .next (u'.answer (.equal false)) := by
  obtain ⟨c0, c1, c2, -, hcommand⟩ := exec_hdrEnc_of_register hwf hlen s.cfg.opBitRead
  obtain ⟨e, hbus⟩ | ⟨rx, rfl⟩ := busReplies_cases bus
  case inl =>
    obtain ⟨u, hu, -⟩ := afterWrite_of_transport hcommand v hbus
    cases h.symm.trans hu
  case inr =>
    rw [afterWrite_of_received hcommand, hlen] at h
    obtain ⟨data, u, hcfg, hok⟩ | ⟨e, u, hbad, hne⟩ :=
      frmRdchk_cases d.address (lenCode s.cfg .l32) rx (s.answer (.header c0 c1 c2))
    · obtain ⟨e, he⟩ := exec_eqReg_of_cfg hwf hr hlen v (data.setWidth 32)
      have hverify := he u hcfg
      rw [Pseudo.from_bind_ok hok, regVerify_from_of_eqReg hverify] at h
      cases e with
      | true => cases h
      | false =>
        cases h
        exact ⟨rfl, rfl, rfl, rx, data, s.answer _, u, rfl, rfl, hok, rfl, hverify⟩
    · rw [Pseudo.from_bind_error hbad] at h
      cases h
      exact absurd rfl (hne w rb)

end

/-- Settles O46: the write frame leaves its remainder, the first transport error after it ends the rest, and otherwise the received
byte and then EQ.REG decide; nothing but EQ.REG leads to ReadbackMismatch. -/
theorem writeVerifyReportsTheFirstError : Obligations.WriteVerifyReportsTheFirstError := by
  refine ⟨fun r d v bus s hwf hr hlen => ?_, fun r d v w rb bus s t hwf hr herr => ?_⟩
  · obtain ⟨w0, w1, w2, t, hwbits, hcfg, hcrc, hrest⟩ := writeVerify_from hwf hr hlen v
    have hwft : configWf t.cfg = true := hcfg ▸ hwf
    obtain ⟨c0, c1, c2, -, hcommand⟩ := exec_hdrEnc_of_register hwft hlen t.cfg.opBitRead
    obtain ⟨r0, r1, r2, hrbits, hdata⟩ := afterWrite_of_data (r := r) hwft hlen
    rw [hcfg] at hrbits hdata
    refine ⟨w0, w1, w2, r0, r1, r2, hwbits, hrbits, fun e hbus => ?_, ?_⟩
    · obtain ⟨u, hu, hucrc⟩ := afterWrite_of_transport hcommand v hbus
      exact ⟨u, (hrest bus).trans hu, hucrc.trans hcrc⟩
    · rintro data rx rfl hlength
      obtain ⟨e, he⟩ := exec_eqReg_of_cfg hwf hr hlen v (BitVec.ofNat 32 (leValue data))
      obtain ⟨u, hucrc, hu⟩ := hdata v data rx e hlength he
      rw [hrest, hcfg, hu, readOutcome]
      refine ⟨u, hucrc, fun hrx => ?_, fun hrx htrue => ?_, fun hrx hfalse => ?_⟩
      · rw [if_neg hrx.symm]
      · rw [if_pos hrx.symm, answer_equal_inj ((he s rfl).symm.trans htrue), if_pos rfl]
      · rw [if_pos hrx.symm, answer_equal_inj ((he s rfl).symm.trans hfalse), if_neg Bool.false_ne_true]
  · by_cases hlen : d.len = .l32
    case neg =>
      rw [writeVerify, Pseudo.from_bind_error (findTemplate_of_outside hr hlen)] at herr
      cases herr
    case pos =>
      obtain ⟨-, -, -, u, -, hcfg, -, hrest⟩ := writeVerify_from hwf hr hlen v
      rw [hrest] at herr
      have honly := afterWrite_readbackMismatch (s := u) (hcfg ▸ hwf) hlen (hcfg ▸ hr) herr
      rwa [hcfg] at honly

end Sys2Proof.Machine
end

section
/-! SUPPORT. Completion (R190, R224): every operation answers, and a pseudo-operation outside the field codec or on a malformed request
stops before it changes anything (log entries 11 and 12). -/

namespace Sys2Proof.Machine

open Sys2Proof.Safety (inCodec)

/-- EQ.REG outside the field codec is refused (R152, U19). -/
theorem exec_eqReg_of_outside {r : Byte} {d : RegDesc} {s : State} (hr : regTemplate? s.cfg r = some d) (hlen : d.len ≠ .l32)
    (a b : Reg32) : exec (.eqReg r a b) s = .refused .notThirtyTwoBit :=
  if_pos (outsideCodec_iff.mpr ⟨d, hr, hlen⟩)

/-- What reads a descriptor first stops outside the field codec (U19). -/
theorem findTemplate_bind_of_outside {α : Type} {r : Byte} {d : RegDesc} {s : State} (hr : regTemplate? s.cfg r = some d)
    (hlen : d.len ≠ .l32) (f : RegDesc → Pseudo α) :
    (findTemplate r >>= f).from s = (.error (.stopped .notThirtyTwoBit), s) :=
  Pseudo.from_bind_error (findTemplate_of_outside hr hlen)

/-- REG.VERIFY stops outside the field codec (U19). -/
theorem regVerify_of_outside {r : Byte} {d : RegDesc} {s : State} (hr : regTemplate? s.cfg r = some d) (hlen : d.len ≠ .l32)
    (a b : Reg32) : (regVerify r a b).from s = (.error (.stopped .notThirtyTwoBit), s) := by
  have hissue : (issueEqual (.eqReg r a b)).from s = (.error (.stopped .notThirtyTwoBit), s) :=
    Pseudo.from_bind_error (issue_refused (exec_eqReg_of_outside hr hlen a b))
  rw [regVerify, Pseudo.from_bind_error hissue]

/-- The second phase of a split read stops on data of another length, before it feeds any (log entry 12). -/
theorem readClose_of_length_ne {s : State} {len : BitVec 2} {k : LengthClass} (hl : lenClass? s.cfg len = some k)
    {data : List Byte} (hdata : data.length ≠ nbytes k) (rx : Byte) :
    (readClose len data rx).from s = (.error (.stopped .malformedRequest), s) := by
  have hne : (lenClass? s.cfg len).map nbytes ≠ some data.length := by
    rw [hl]
    exact fun h => hdata (Option.some.inj h).symm
  rw [readClose, Pseudo.from_bind_ok (config_from s), if_neg hne, Pseudo.from_throw]

section
variable {r : Byte} {d : RegDesc} {s : State} (hr : regTemplate? s.cfg r = some d) (hlen : d.len = .l32)
include hr hlen

/-- REG.PACK stops on another number of patterns than fields (log entry 12). -/
theorem regPack_of_length_ne {fs : List Reg32} (hfs : fs.length ≠ d.fields.length) (base : Reg32) :
    (regPack r base fs).from s = (.error (.stopped .malformedRequest), s) := by
  rw [regPack, Pseudo.from_bind_ok (findTemplate_of_l32 hr hlen), if_neg hfs, Pseudo.from_throw]

/-- The typed encode stops on another number of values than fields (log entry 12). -/
theorem regEncode_of_length_ne {vs : List TypedValue} (hvs : vs.length ≠ d.fields.length) (base : Reg32) :
    (regEncode r base vs).from s = (.error (.stopped .malformedRequest), s) := by
  rw [regEncode, Pseudo.from_bind_ok (findTemplate_of_l32 hr hlen), if_neg hvs, Pseudo.from_throw]

end

/-- Every operation the field codec does not refuse answers: with results, having written `crc` at most, or with a status, having
written the outputs alone (R190, R224). -/
theorem exec_completes {i : Instr} {s : State} (hi : inCodec s.cfg i) :
    (∃ r c, exec i s = .next ((s.setCrc c).answer r)) ∨ ∃ e, exec i s = .next (s.raise e) := by
  cases i with
  | crcInit | crcFeed | crcRead | crcCheck => exact .inl ⟨_, _, rfl⟩
  | _ =>
    obtain ⟨x, hx, -⟩ := exec_outsideEngine rfl hi
    cases x with
    | ok r => exact .inl ⟨r, s.crc, hx⟩
    | error o => exact .inr ⟨_, hx⟩

/-- Settles O47: outside the checksum engine an operation replies, what reads a descriptor stops outside the codec, and the tests of
a request's lengths come before its first write. -/
theorem everyOperationCompletes : Obligations.EveryOperationCompletes := by
  refine ⟨fun _ _ => exec_completes, fun r d s hr hlen => ?_, fun addr k rx s hwf hrx => ?_,
    fun k data rx s hwf hdata => readClose_of_length_ne (lenClass?_lenCode hwf k) hdata rx,
    fun r d base s hr hlen => ⟨fun _ hfs => regPack_of_length_ne hr hlen hfs base,
      fun _ hvs => regEncode_of_length_ne hr hlen hvs base⟩⟩
  · have hstop := fun {α : Type} (f : RegDesc → Pseudo α) => findTemplate_bind_of_outside hr hlen f
    exact ⟨exec_eqReg_of_outside hr hlen, fun _ _ => hstop _, fun _ => hstop _, fun _ _ => hstop _, fun _ => hstop _,
      regVerify_of_outside hr hlen, fun _ _ => hstop _⟩
  · obtain ⟨h0, h1, h2, -, hhdr⟩ := exec_hdrEnc_of_class (lenClass?_lenCode hwf k) s.cfg.opBitRead addr
    exact ⟨_, frmRdchk_from_of_length_ne (lenClass?_lenCode hwf k) hhdr hrx, rfl⟩

end Sys2Proof.Machine
end

section
/-! SUPPORT. What an operation reports (60_exceptions.md): which operations always end OK, which operands they refuse, and that a
reported status has its cause. -/

namespace Sys2Proof.Machine

open Sys2Proof.Safety

/-! ### The header encoders -/

/-- Settles O14: the encoders decide by the length class of the code, which a code has exactly when it is that of a class. -/
theorem encodersAcceptExactlyTheAssignedLengths : Obligations.EncodersAcceptExactlyTheAssignedLengths := by
  intro op crcEn len sect page addr s
  refine ⟨fun hk => ?_, fun hk => ?_⟩
  · obtain ⟨k, hl⟩ : ∃ k, lenClass? s.cfg len = some k := by
      rw [← Option.ne_none_iff_exists', ne_eq, lenClass?_eq_none]
      push Not
      exact hk
    exact ⟨⟨_, _, _, exec_hdrEncx_of_some (h := ⟨op, crcEn, len, s.cfg.sectionId, s.cfg.pageId, addr⟩) hl⟩,
      ⟨_, _, _, exec_hdrEncx_of_some (h := ⟨op, crcEn, len, sect, page, addr⟩) hl⟩⟩
  · have hl := lenClass?_of_unassigned hk
    exact ⟨exec_hdrEncx_of_none (h := ⟨op, crcEn, len, s.cfg.sectionId, s.cfg.pageId, addr⟩) hl,
      exec_hdrEncx_of_none (h := ⟨op, crcEn, len, sect, page, addr⟩) hl⟩

/-! ### Operands outside their legal sets -/

theorem fieldInReg_iff (lsb : BitVec 5) (width : BitVec 6) : fieldInReg lsb width = true ↔ badPosition lsb width = false := by
  simp [fieldInReg, badPosition, Nat.one_le_iff_ne_zero]

theorem fitsWidth_iff (w : Nat) (x : Reg32) : fitsWidth w x = true ↔ x.toNat < 2 ^ w := by simp [fitsWidth]

theorem splitWidths_iff (lw hw : BitVec 5) : splitWidths lw hw = true ↔ badSplit lw hw = false := by
  simp [splitWidths, badSplit, Nat.one_le_iff_ne_zero, and_assoc]

section
variable {lsb pos lw hw : BitVec 5} {width : BitVec 6} {v f high low logical cover a b : Reg32} {t m : Byte} {e : BitVec 2}
  {auto odd : Bool}

/-! The legal operands of an operation are those that pass the tests of its meaning (R75). -/

theorem wellFormed_fldGet : (Instr.fldGet lsb width v).wellFormed = true ↔ badPosition lsb width = false :=
  fieldInReg_iff lsb width

theorem wellFormed_fldSet : (Instr.fldSet lsb width v f).wellFormed = true ↔
    badPosition lsb width = false ∧ f.toNat < 2 ^ width.toNat := by
  rw [Instr.wellFormed, Bool.and_eq_true, fieldInReg_iff, fitsWidth_iff]

theorem wellFormed_sclEnc : (Instr.sclEnc auto m e).wellFormed = true ↔ (auto = true ↔ m = 0#8 ∧ e = 0#2) := by
  rw [Instr.wellFormed, scaledIsValue, beq_iff_eq, Bool.eq_iff_iff, Bool.and_eq_true, decide_eq_true_iff,
    decide_eq_true_iff]

theorem wellFormed_splComb : (Instr.splComb lw hw high low).wellFormed = true ↔
    badSplit lw hw = false ∧ high.toNat < 2 ^ hw.toNat ∧ low.toNat < 2 ^ lw.toNat := by
  rw [Instr.wellFormed, Bool.and_eq_true, Bool.and_eq_true, splitWidths_iff, fitsWidth_iff, fitsWidth_iff, and_assoc]

theorem wellFormed_splSplit : (Instr.splSplit lw hw logical).wellFormed = true ↔
    badSplit lw hw = false ∧ logical.toNat < 2 ^ (lw.toNat + hw.toNat) := by
  rw [Instr.wellFormed, Bool.and_eq_true, splitWidths_iff, fitsWidth_iff]

theorem wellFormed_eqFld_value : (Instr.eqFld .value t a b).wellFormed = true ↔ a.toNat < 2 ^ 10 ∧ b.toNat < 2 ^ 10 := by
  rw [Instr.wellFormed, Bool.and_eq_true, fitsWidth_iff, fitsWidth_iff]

theorem wellFormed_postPar : (Instr.postPar pos cover odd v).wellFormed = true ↔ cover.getLsbD pos.toNat = false := by
  rw [Instr.wellFormed, Bool.not_eq_true']

end

/-- The operations whose answer depends on the length codes or the tables of the configuration (R75). -/
def readsConfiguration (i : Instr) : Prop :=
  i.opc ∈ [0x20#8, 0x21#8, 0x40#8, 0x41#8, 0x42#8, 0x43#8, 0x70#8, 0x71#8]

/-- An operand outside its legal set ends the operation with IllegalOperand (R194). -/
theorem exec_of_illFormed {i : Instr} (h : ¬ i.wellFormed = true) (s : State) :
    ∃ o, exec i s = .next (s.raise (.illegalOperand o)) := by
  cases i with
  | fldGet lsb width v =>
    rw [wellFormed_fldGet, Bool.not_eq_false] at h
    exact ⟨_, exec_fldGet_of_bad h v s⟩
  | fldSet lsb width v f =>
    rw [wellFormed_fldSet] at h
    cases hbad : badPosition lsb width with
    | true => exact ⟨_, exec_fldSet_of_bad hbad v f s⟩
    | false => exact ⟨_, exec_fldSet_of_tooWide hbad v (Nat.le_of_not_lt fun hf => h ⟨hbad, hf⟩) s⟩
  | sclEnc auto m e =>
    rw [wellFormed_sclEnc] at h
    exact ⟨_, exec_sclEnc_of_bad h⟩
  | splComb lw hw high low =>
    rw [wellFormed_splComb, not_and] at h
    cases hbad : badSplit lw hw with
    | true => exact ⟨_, exec_splComb_of_bad hbad high low s⟩
    | false =>
      have hwide := not_and_or.mp (h hbad)
      rw [Nat.not_lt, Nat.not_lt] at hwide
      exact ⟨_, exec_splComb_of_tooWide hbad hwide s⟩
  | splSplit lw hw logical =>
    rw [wellFormed_splSplit] at h
    cases hbad : badSplit lw hw with
    | true => exact ⟨_, exec_splSplit_of_bad hbad logical s⟩
    | false => exact ⟨_, exec_splSplit_of_tooWide hbad (Nat.le_of_not_lt fun hl => h ⟨hbad, hl⟩) s⟩
  | eqFld policy t a b =>
    cases policy with
    | value =>
      rw [wellFormed_eqFld_value, not_and_or, Nat.not_lt, Nat.not_lt] at h
      exact ⟨_, exec_eqFld_value_of_tooWide h⟩
    | _ => exact absurd rfl h
  | postPar pos cover odd v =>
    rw [wellFormed_postPar, Bool.not_eq_false] at h
    exact ⟨_, exec_postPar_of_covered h odd v s⟩
  | _ => exact absurd rfl h

/-- Legal operands end an operation OK, if it does not read the length codes or the tables (R75, R194). -/
theorem exec_of_wellFormed {i : Instr} (h : i.wellFormed = true) (hcfg : ¬ readsConfiguration i) (s : State) :
    ∃ r c, exec i s = .next ((s.setCrc c).answer r) := by
  cases i with
  | hdrEnc | hdrEncx | enumDec | enumEnc | enumCanon | enumRep | eqFld | eqReg =>
    exact absurd (by simp [readsConfiguration, Instr.opc]) hcfg
  | crcInit | crcFeed | crcRead | crcCheck | hdrDec | bitGet | bitSet | sclDec | postInv => exact ⟨_, _, rfl⟩
  | fldGet lsb width v => exact ⟨_, s.crc, exec_fldGet_of_legal (wellFormed_fldGet.mp h) v s⟩
  | fldSet lsb width v f =>
    obtain ⟨hlegal, hf⟩ := wellFormed_fldSet.mp h
    exact ⟨_, s.crc, exec_fldSet_of_fits hlegal v hf s⟩
  | sclEnc auto m e => exact ⟨_, s.crc, exec_sclEnc_of_value (wellFormed_sclEnc.mp h)⟩
  | splComb lw hw high low =>
    obtain ⟨hlegal, hhigh, hlow⟩ := wellFormed_splComb.mp h
    exact ⟨_, s.crc, exec_splComb_of_fits hlegal hhigh hlow s⟩
  | splSplit lw hw logical =>
    obtain ⟨hlegal, hl⟩ := wellFormed_splSplit.mp h
    exact ⟨_, s.crc, exec_splSplit_of_fits hlegal hl s⟩
  | postPar pos cover odd v => exact ⟨_, s.crc, exec_postPar_of_uncovered (wellFormed_postPar.mp h) odd v s⟩

/-- Settles O50: the legal operands are those that pass the operation's own tests, after which nothing is left to refuse but what
the length codes or the tables say. -/
theorem illFormedOperandsAreRefused : Obligations.IllFormedOperandsAreRefused := by
  refine fun i s => ⟨fun h => exec_of_illFormed (ne_true_of_eq_false h) s, fun o h hraise => ?_⟩
  by_contra hcfg
  obtain ⟨r, c, hok⟩ := exec_of_wellFormed h hcfg s
  cases congrArg State.response (Host.Outcome.next.inj (hok.symm.trans hraise))

/-! ### Status codes -/

/-- The operations without an operand to refuse (R191). -/
def alwaysOk (i : Instr) : Prop :=
  i.opc ∈ [0x10#8, 0x11#8, 0x12#8, 0x13#8, 0x22#8, 0x32#8, 0x33#8, 0x50#8, 0x80#8]

theorem exec_of_alwaysOk {i : Instr} (h : alwaysOk i) (s : State) : ∃ r c, exec i s = .next ((s.setCrc c).answer r) := by
  cases i with
  | crcInit | crcFeed | crcRead | crcCheck | hdrDec | bitGet | bitSet | sclDec | postInv => exact ⟨_, _, rfl⟩
  | _ => simp [alwaysOk, Instr.opc] at h

/-- No operation writes the configuration (R24). -/
theorem exec_cfg {i : Instr} {s t : State} (h : exec i s = .next t) : t.cfg = s.cfg := by
  obtain ⟨x, hx⟩ := exec_eq_reply (inCodec_of_exec_next h)
  obtain ⟨r, -, rfl⟩ | ⟨o, -, rfl⟩ := reply_cases (hx.symm.trans h) <;> rfl

/-- An operation reports OK or IllegalOperand (R191). -/
theorem exec_response {i : Instr} {s t : State} (h : exec i s = .next t) :
    (∃ r, t.response = some (.ok r)) ∨ ∃ o, t.response = some (.raised (.illegalOperand o)) := by
  obtain ⟨x, hx⟩ := exec_eq_reply (inCodec_of_exec_next h)
  obtain ⟨r, -, rfl⟩ | ⟨o, -, rfl⟩ := reply_cases (hx.symm.trans h)
  · exact .inl ⟨r, rfl⟩
  · exact .inr ⟨o, rfl⟩

/-- A command that decodes to an operation reports OK or IllegalOperand, so not the status of an unassigned code. -/
theorem exec_status {i : Instr} {s t : State} {a : Response} (h : exec i s = .next t) (ha : t.response = some a) :
    a.status = 0#3 ∨ a.status = 3#3 := by
  obtain ⟨r, hr⟩ | ⟨o, ho⟩ := exec_response h
  · obtain rfl := Option.some.inj (ha.symm.trans hr)
    exact .inl rfl
  · obtain rfl := Option.some.inj (ha.symm.trans ho)
    exact .inr rfl

/-- Settles O49: an operation replies, with results or with IllegalOperand, and the command interface adds IllegalOp on a
rejection alone. -/
theorem statusCodesByOperation : Obligations.StatusCodesByOperation := by
  refine ⟨fun i s t a h ha => ⟨exec_status h ha, fun hok => ?_⟩, fun w s hw => ?_⟩
  · obtain ⟨r, c, hexec⟩ := exec_of_alwaysOk hok s
    obtain rfl := Host.Outcome.next.inj (hexec.symm.trans h)
    obtain rfl := Option.some.inj ha
    rfl
  · obtain ⟨i, hdec, hperf⟩ | ⟨opc, hdec, hperf⟩ := perform_cases w s
    · obtain ⟨t, ht⟩ := exec_next_of_inCodec (hw i hdec)
      obtain ⟨a, ha⟩ : ∃ a, t.response = some a := by
        obtain ⟨r, hr⟩ | ⟨o, ho⟩ := exec_response ht
        · exact ⟨_, hr⟩
        · exact ⟨_, ho⟩
      refine ⟨t, a, hperf.trans ht, ha, (exec_status ht ha).imp_right .inl, fun hfour => ?_, fun hnone => ?_⟩
      · obtain h | h := exec_status ht ha <;> rw [h] at hfour <;> exact absurd hfour (by decide)
      · exact absurd ⟨i, hdec⟩ hnone
    · refine ⟨_, _, hperf, rfl, .inr (.inr rfl), fun _ ⟨i, hi⟩ => ?_, fun _ => rfl⟩
      cases hdec.symm.trans hi

end Sys2Proof.Machine
end

section
/-! SUPPORT. The invariant of every step (R217 of 70_reset_and_hazards.md, R190, R191 of 60_exceptions.md): the reply of every operation is
sound under a well-formed configuration, which no step changes. -/

namespace Sys2Proof.Machine

open Sys2Proof.Safety

/-! ### The laws of a register -/

/-- A field of an exhaustive kind names a table marked exhaustive (R131, log entry 7). -/
theorem exhaustive_of_kindWf {c : Config} {width : BitVec 6} {t : Byte} {d : EnumDesc} (hd : enumTable? c t = some d)
    (h : kindWf c width (.enumExhaustive t) = true) : d.exhaustive = true := by
  simp only [kindWf, hd, Bool.and_eq_true] at h
  exact h.2

/-- A field of a partial kind names a table not marked exhaustive (R131, log entry 7). -/
theorem not_exhaustive_of_kindWf {c : Config} {width : BitVec 6} {t : Byte} {d : EnumDesc} (hd : enumTable? c t = some d)
    (h : kindWf c width (.enumPartial t) = true) : ¬ d.exhaustive = true := by
  simp only [kindWf, hd, Bool.and_eq_true, Bool.not_eq_true'] at h
  exact ne_true_of_eq_false h.2

/-- The widths of a split kind are legal by the test of SPL.COMB (R146, R147). -/
theorem splitKindWf_iff (lw hw : BitVec 5) :
    splitKindWf lw hw = true ↔ lw ≠ 0#5 ∧ hw ≠ 0#5 ∧ lw.toNat + hw.toNat ≤ 32 := by
  have hiff : splitKindWf lw hw = true ↔ badSplit lw hw = false := splitWidths_iff lw hw
  rw [hiff, ← Bool.not_eq_true, badSplit_iff, not_or, not_or, Nat.not_lt]

/-- Settles O26: the tests of a register and of its fields, read as propositions; whether a table is exhaustive is whether all its
codes are valid. -/
theorem wellFormedRegistersKeepTheirLaws : Obligations.WellFormedRegistersKeepTheirLaws := by
  intro c r d hwf hr
  have hreg := configWf_reg hwf hr
  refine ⟨fun F hF => ?_, ?_, ?_, fun pos cover odd hmem => ?_⟩
  · have hfield := regWf_field hreg hF
    obtain ⟨hone, hpos⟩ := fieldWf_position hfield
    simp only [fieldWf, Bool.and_eq_true] at hfield
    obtain ⟨⟨-, hkind⟩, -⟩ := hfield
    refine ⟨hone, hpos, fun hk => ?_, fun t hk => ?_, fun t hk => ?_, fun shift hk => ?_, fun lw hw hk => ?_, fun lw hw hk => ?_⟩
      <;> rw [hk] at hkind
    · exact of_decide_eq_true hkind
    · obtain ⟨e, he, hwidth⟩ := kindWf_table hkind rfl
      obtain ⟨-, -, -, hall, -⟩ := enumWf_iff.mp (configWf_enum hwf he)
      exact ⟨e, he, hwidth, hall.mp (exhaustive_of_kindWf he hkind)⟩
    · obtain ⟨e, he, hwidth⟩ := kindWf_table hkind rfl
      obtain ⟨-, -, -, hall, -⟩ := enumWf_iff.mp (configWf_enum hwf he)
      have hsome := mt hall.mpr (not_exhaustive_of_kindWf he hkind)
      push Not at hsome
      obtain ⟨code, hfits, hinvalid⟩ := hsome
      exact ⟨e, he, hwidth, code, hfits, Bool.eq_false_of_not_eq_true hinvalid⟩
    · exact of_decide_eq_true hkind
    · rw [kindWf, Bool.and_eq_true, splitKindWf_iff, decide_eq_true_iff] at hkind
      obtain ⟨⟨hlw, -, hsum⟩, hwidth⟩ := hkind
      exact ⟨hlw, hsum, hwidth⟩
    · rw [kindWf, Bool.and_eq_true, splitKindWf_iff, decide_eq_true_iff] at hkind
      obtain ⟨⟨-, hhw, hsum⟩, hwidth⟩ := hkind
      exact ⟨hhw, hsum, hwidth⟩
  · refine (regWf_disjoint hreg).imp fun hdisj => ?_
    simpa [fieldsDisjoint] using hdisj
  · simp only [regWf, Bool.and_eq_true] at hreg
    obtain ⟨⟨-, hnames⟩, -⟩ := hreg
    rw [List.Nodup, List.pairwise_map]
    exact (pairwiseAll_iff.mp hnames).imp fun hne => of_decide_eq_true hne
  · simpa [hookWf] using regWf_hook hreg hmem

/-! ### Sound replies -/

/-- What an operation replies is sound: its results agree among themselves, or its operand is illegal (R191). -/
def replySound (c : Config) : Except BadOperand Results → Prop
  | .ok r => resultsSound c r
  | .error o => operandIllegal c o

/-- A test that finds an illegal operand guards the rest of an operation. -/
theorem replySound_ite {c : Config} {bad : Bool} {o : BadOperand} {x : Except BadOperand Results}
    (hbad : bad = true → operandIllegal c o) (hrest : bad = false → replySound c x) :
    replySound c (if bad then .error o else x) := by
  cases bad with
  | true => exact hbad rfl
  | false => exact hrest rfl

/-- A value too wide for `w` bits is too wide for fewer. -/
theorem two_pow_le_of_tooWide {k w : Nat} (hkw : k ≤ w) {x : Reg32} (h : tooWide w x = true) : 2 ^ k ≤ x.toNat :=
  (Nat.pow_le_pow_right (by decide) hkw).trans ((tooWide_iff w x).mp h)

theorem badPosition_illegal (c : Config) {lsb : BitVec 5} {width : BitVec 6} (h : badPosition lsb width = true) :
    operandIllegal c (.position lsb width) := by
  simpa [badPosition, operandIllegal] using h

theorem one_le_width_of_legal {lsb : BitVec 5} {width : BitVec 6} (h : badPosition lsb width = false) : 1 ≤ width.toNat := by
  simp only [badPosition, Bool.or_eq_false_iff, decide_eq_false_iff_not] at h
  omega

theorem badSplit_illegal (c : Config) {lw hw : BitVec 5} (h : badSplit lw hw = true) :
    operandIllegal c (.splitWidths lw hw) := by
  simpa [badSplit, operandIllegal, or_assoc] using h

theorem one_le_widths_of_legal {lw hw : BitVec 5} (h : badSplit lw hw = false) : 1 ≤ lw.toNat ∧ 1 ≤ hw.toNat := by
  simp only [badSplit, Bool.or_eq_false_iff, decide_eq_false_iff_not] at h
  omega

/-- A header is packed with the length code that was tested (R112). -/
theorem encodeHeader_sound (c : Config) (h : CommandHeader) : replySound c (encodeHeader c h) := by
  cases hl : lenClass? c h.len with
  | none =>
    rw [encodeHeader_none hl]
    exact hl
  | some k =>
    rw [encodeHeader_some hl, replySound, resultsSound, hdrUnpack_len, hl]
    exact Option.some_ne_none k

/-- The table is unknown, or the code too wide for a field of at least one bit (R139 to R141). -/
theorem findEnumCode_illegal {c : Config} (hwf : configWf c = true) {t code : Byte} {o : BadOperand}
    (h : findEnumCode c t code = .error o) : operandIllegal c o := by
  obtain ⟨ht, rfl⟩ | ⟨d, ht, hfits, rfl⟩ := findEnumCode_error h
  · exact ht
  · obtain ⟨hone, -⟩ := enumWf_iff.mp (configWf_enum hwf ht)
    have hwide : 2 ^ d.width ≤ code.toNat := Nat.le_of_not_lt (mt enumFits_iff.mpr (ne_true_of_eq_false hfits))
    exact (Nat.pow_le_pow_right (by decide) hone : 2 ^ 1 ≤ 2 ^ d.width).trans hwide

theorem enumDecode_sound {c : Config} (hwf : configWf c = true) (t code : Byte) : replySound c (enumDecode c t code) := by
  rw [enumDecode]
  cases h : findEnumCode c t code with
  | error o => exact findEnumCode_illegal hwf h
  | ok d => trivial

theorem enumCanonical_sound {c : Config} (hwf : configWf c = true) (t code : Byte) : replySound c (enumCanonical c t code) := by
  rw [enumCanonical]
  cases h : findEnumCode c t code with
  | error o => exact findEnumCode_illegal hwf h
  | ok d => trivial

/-- A refused tag is the one the table does not give the code (R140). -/
theorem enumEncode_sound {c : Config} (hwf : configWf c = true) (t : Byte) (known : Bool) (code : Byte) :
    replySound c (enumEncode c t known code) := by
  rw [enumEncode]
  cases h : findEnumCode c t code with
  | error o => exact findEnumCode_illegal hwf h
  | ok d =>
    obtain ⟨ht, hfits⟩ := findEnumCode_ok.mp h
    by_cases hk : known = enumValid d code
    · simp only [if_pos hk]
      trivial
    · simp only [if_neg hk]
      exact ⟨t, d, code, ht, hfits, Ne.symm hk⟩

theorem enumRepresentative_sound (c : Config) (t cls : Byte) : replySound c (enumRepresentative c t cls) := by
  rw [enumRepresentative, findEnum]
  cases ht : enumTable? c t with
  | none => exact ht
  | some d =>
    by_cases hcls : cls ∈ enumClasses d
    · simp only [if_pos hcls]
      trivial
    · simp only [if_neg hcls]
      exact ⟨t, d, ht, hcls⟩

/-- A test of two patterns refuses one that is too wide for a field of at least one bit (R151). -/
theorem patterns_illegal (c : Config) {w : Nat} (hw : 1 ≤ w) {a b : Reg32} (h : (tooWide w a || tooWide w b) = true) :
    operandIllegal c (.patterns a b) :=
  (Bool.or_eq_true _ _ ▸ h).imp (two_pow_le_of_tooWide hw) (two_pow_le_of_tooWide hw)

/-- EQ.FLD refuses an unknown table and a pattern too wide (R151). -/
theorem fieldEqual_illegal {c : Config} (hwf : configWf c = true) {p : Policy} {t : Byte} {a b : Reg32} {o : BadOperand}
    (h : fieldEqual c p t a b = .error o) : operandIllegal c o := by
  cases p with
  | raw | ignore => cases h
  | canon =>
    cases ht : enumTable? c t with
    | none =>
      simp only [fieldEqual, ht] at h
      cases h
      exact ht
    | some d =>
      obtain ⟨hone, -⟩ := enumWf_iff.mp (configWf_enum hwf ht)
      rw [fieldEqual_canon ht] at h
      split at h
      case isTrue hwide =>
        cases h
        exact patterns_illegal c hone hwide
      case isFalse => cases h
  | value =>
    rw [fieldEqual] at h
    split at h
    case isTrue hwide =>
      cases h
      exact patterns_illegal c (by decide) hwide
    case isFalse => cases h

/-- In a well-formed configuration EQ.REG refuses an unknown register alone (R156). -/
theorem registerEqual_illegal {c : Config} (hwf : configWf c = true) {r : Byte} {a b : Reg32} {o : BadOperand}
    (h : registerEqual c r a b = .error o) : operandIllegal c o := by
  rw [registerEqual] at h
  cases hr : regTemplate? c r with
  | none =>
    simp only [hr] at h
    cases h
    exact hr
  | some d =>
    simp only [hr] at h
    obtain ⟨e, he, -⟩ := fieldsEqual_of_wf (undoHooks d.hooks a) (undoHooks d.hooks b)
      fun F hF => regWf_field (configWf_reg hwf hr) hF
    cases h.symm.trans he

/-- A comparison is sound when what it refuses is illegal. -/
theorem replySound_map_equal {c : Config} {x : Except BadOperand Bool} (h : ∀ o, x = .error o → operandIllegal c o) :
    replySound c (x.map .equal) := by
  cases x with
  | error o => exact h o rfl
  | ok e => trivial

/-- Every operation the field codec does not refuse replies soundly (R191, R194). -/
theorem exec_sound {i : Instr} {s : State} (hwf : configWf s.cfg = true) (hi : inCodec s.cfg i) :
    ∃ x, exec i s = reply (s.setCrc (crcAfter i s)) x ∧ replySound s.cfg x := by
  cases i with
  | crcInit | crcFeed | crcRead | crcCheck | bitGet | bitSet | postInv => exact ⟨.ok _, rfl, trivial⟩
  | hdrEnc | hdrEncx => exact ⟨_, rfl, encodeHeader_sound _ _⟩
  | hdrDec h0 h1 h2 => exact ⟨.ok _, rfl, rfl⟩
  | sclDec f => exact ⟨.ok _, rfl, by rw [replySound, resultsSound, scaledAuto, decide_eq_true_iff, parts_eq_zero_iff]⟩
  | fldGet lsb width v => exact ⟨_, rfl, replySound_ite (badPosition_illegal _) fun _ => trivial⟩
  | fldSet lsb width v f =>
    exact ⟨_, rfl, replySound_ite (badPosition_illegal _) fun hlegal =>
      replySound_ite (two_pow_le_of_tooWide (one_le_width_of_legal hlegal)) fun _ => trivial⟩
  | enumDec t code => exact ⟨_, rfl, enumDecode_sound hwf t code⟩
  | enumEnc t known code => exact ⟨_, rfl, enumEncode_sound hwf t known code⟩
  | enumCanon t code => exact ⟨_, rfl, enumCanonical_sound hwf t code⟩
  | enumRep t cls => exact ⟨_, rfl, enumRepresentative_sound s.cfg t cls⟩
  | sclEnc auto m e =>
    refine ⟨_, rfl, replySound_ite (fun _ => trivial) fun _ => ?_⟩
    cases auto <;> trivial
  | splComb lw hw high low =>
    refine ⟨_, rfl, replySound_ite (badSplit_illegal _) fun hlegal => replySound_ite (fun hwide => ?_) fun _ => trivial⟩
    obtain ⟨hlw, hhw⟩ := one_le_widths_of_legal hlegal
    exact (Bool.or_eq_true _ _ ▸ hwide).imp (two_pow_le_of_tooWide hhw) (two_pow_le_of_tooWide hlw)
  | splSplit lw hw logical =>
    refine ⟨_, rfl, replySound_ite (badSplit_illegal _) fun hlegal => replySound_ite (fun hwide => ?_) fun _ => trivial⟩
    obtain ⟨hlw, hhw⟩ := one_le_widths_of_legal hlegal
    exact two_pow_le_of_tooWide (k := 2) (by omega) hwide
  | eqFld policy t a b => exact ⟨_, rfl, replySound_map_equal fun _ => fieldEqual_illegal hwf⟩
  | eqReg r a b =>
    exact ⟨_, if_neg (ne_true_of_eq_false (inCodec_eqReg.mp hi)), replySound_map_equal fun _ => registerEqual_illegal hwf⟩
  | postPar pos cover odd v => exact ⟨_, rfl, replySound_ite id fun _ => trivial⟩

/-! ### The invariant -/

/-- What an operation leaves in the outputs is sound. -/
theorem exec_responseSound {i : Instr} {s t : State} (hwf : configWf s.cfg = true) (h : exec i s = .next t) :
    responseSound t.cfg t.response := by
  obtain ⟨x, hx, hsound⟩ := exec_sound hwf (inCodec_of_exec_next h)
  obtain ⟨r, rfl, rfl⟩ | ⟨o, rfl, rfl⟩ := reply_cases (hx.symm.trans h) <;> exact hsound

/-- Performing a command keeps the invariant: a rejected code belongs to no operation (R195). -/
theorem perform_keeps_inv {w : CmdWord} {s t : State} (hwf : configWf s.cfg = true) (h : perform w s = .next t) : Inv t := by
  obtain ⟨i, -, hperf⟩ | ⟨opc, hdec, hperf⟩ := perform_cases w s
  · have hexec := hperf.symm.trans h
    exact ⟨exec_cfg hexec ▸ hwf, exec_responseSound hwf hexec⟩
  · obtain rfl := Host.Outcome.next.inj (hperf.symm.trans h)
    refine ⟨hwf, fun i hopc => ?_⟩
    obtain ⟨j, hj, -⟩ | ⟨hun, herr⟩ := decode_cases w
    · cases hdec.symm.trans hj
    · cases hdec.symm.trans herr
      exact hun (hopc ▸ opc_mem_assignedCodes i)

/-- Settles O53: a step is idle, resets the block or performs a command, and each keeps the invariant. -/
theorem everyStepKeepsTheInvariant : Obligations.EveryStepKeepsTheInvariant := by
  intro s t hinv hstep
  obtain ⟨hwf, ⟨-, rfl⟩ | ⟨ins, -, rfl⟩ | ⟨w, ins, -, hperf⟩⟩ := step_cases hstep
  · exact hinv
  · exact ⟨hwf, trivial⟩
  · exact perform_keeps_inv (s := s.setInputs ins) hwf hperf

/-- Right after construction the invariant holds: no output is readable (R29). -/
theorem inv_constructed {c : Config} (h : configWf c = true) : Inv (State.constructed c) := ⟨h, trivial⟩

/-- Settles O52: the recommended configuration is well-formed, and with a well-formed configuration the invariant holds from the start. -/
theorem invariantHoldsAtReset : Obligations.InvariantHoldsAtReset :=
  ⟨inv_constructed (by decide), rfl, fun _ h => ⟨inv_constructed h, rfl⟩⟩

end Sys2Proof.Machine
end

section
/-! SUPPORT. Runs of operations (R225 of 70_reset_and_hazards.md): what a run depends on in the state it starts from, and the steps that
perform it. -/

namespace Sys2Proof.Machine

open Sys2Proof.Safety

/-! ### The remainder of a run -/

/-- The bytes in the current computation after one operation: CRC.INIT drops them, CRC.FEED adds one (R27). -/
theorem bytesSinceInit_cons (before : List Byte) (i : Instr) (is : List Instr) :
    bytesSinceInit before (i :: is) = bytesSinceInit (bytesSinceInit before [i]) is := by
  cases i <;> rfl

/-- An operation continues the remainder over the bytes it feeds (R27). -/
theorem crcAfter_eq_crcRaw {i : Instr} {s : State} {before : List Byte} (h : s.crc = crcRaw s.cfg.crcPoly before) :
    crcAfter i s = crcRaw s.cfg.crcPoly (bytesSinceInit before [i]) := by
  cases i with
  | crcFeed b => rw [crcAfter, h, bytesSinceInit, bytesSinceInit, crcRaw_append, crcFrom_cons, crcFrom_nil]
  | crcInit => rfl
  | _ => exact h

/-- Settles O59: operation by operation, `crc` stays the remainder of the bytes since the last CRC.INIT. -/
theorem crcDependsOnTheBytesSinceInit : Obligations.CrcDependsOnTheBytesSinceInit := by
  intro is
  induction is with
  | nil => exact fun before s h _ => ⟨[], s, rfl, h, rfl⟩
  | cons i is ih =>
    intro before s h hcodec
    rw [List.forall_mem_cons] at hcodec
    obtain ⟨hi, his⟩ := hcodec
    obtain ⟨t, hexec⟩ := exec_next_of_inCodec hi
    have hcfg := exec_cfg hexec
    have hcrc : t.crc = crcRaw t.cfg.crcPoly (bytesSinceInit before [i]) := by
      rw [exec_crc hexec, hcfg, crcAfter_eq_crcRaw h]
    obtain ⟨rs, u, hrun, hu, hlen⟩ := ih _ t hcrc (hcfg ▸ his)
    exact ⟨_, u, runOps_cons_next hexec hrun, by rw [hu, hcfg, ← bytesSinceInit_cons], congrArg Nat.succ hlen⟩

/-! ### Disciplined runs -/

theorem setCrc_crc_self (s : State) : s.setCrc s.crc = s := rfl

theorem eq_crcInit_of_starts {i : Instr} (h : crcUse i = .starts) : i = .crcInit := by
  cases i with
  | crcInit => rfl
  | _ => cases h

theorem crcAfter_of_outside {i : Instr} (h : crcUse i = .none) (s : State) : crcAfter i s = s.crc := by
  cases i with
  | crcInit | crcFeed => cases h
  | _ => rfl

/-- One operation of a disciplined run from two states that differ in `crc`, and agree in it while a computation is under way:
the same holds of the states it leaves (R21, R218). -/
theorem exec_of_discipline {started : Bool} {i : Instr} {is : List Instr} {s : State} {c : Byte}
    (hkeep : keepsDiscipline started (i :: is) = true) (hi : inCodec s.cfg i) (hc : started = true → c = s.crc) :
    ∃ started' t c', exec i s = .next t ∧ exec i (s.setCrc c) = .next (t.setCrc c') ∧
      keepsDiscipline started' is = true ∧ (started' = true → c' = t.crc) := by
  obtain ⟨t, hexec⟩ := exec_next_of_inCodec hi
  unfold keepsDiscipline at hkeep
  cases huse : crcUse i with
  | none =>
    rw [huse] at hkeep
    have hcrc : t.crc = s.crc := (exec_crc hexec).trans (crcAfter_of_outside huse s)
    exact ⟨started, t, c, hexec, exec_setCrc huse hexec c, hkeep, fun hs => (hc hs).trans hcrc.symm⟩
  | starts =>
    rw [huse] at hkeep
    obtain rfl := eq_crcInit_of_starts huse
    exact ⟨true, t, t.crc, hexec, hexec, hkeep, fun _ => rfl⟩
  | continues | takes =>
    rw [huse, Bool.and_eq_true] at hkeep
    obtain ⟨hs, hkeep⟩ := hkeep
    have hsame : s.setCrc c = s := by rw [hc hs, setCrc_crc_self]
    exact ⟨_, t, t.crc, hexec, by rw [hsame, hexec, setCrc_crc_self], hkeep, fun _ => rfl⟩

/-- A disciplined run from two states that differ in `crc` gives the same answers (R21, R218). -/
theorem runOps_of_discipline {started : Bool} {is : List Instr} {s : State} {c : Byte}
    (hkeep : keepsDiscipline started is = true) (hcodec : ∀ i ∈ is, inCodec s.cfg i) (hc : started = true → c = s.crc) :
    ∃ rs t c', runOps is s = .next (rs, t) ∧ runOps is (s.setCrc c) = .next (rs, t.setCrc c') := by
  induction is generalizing started s c with
  | nil => exact ⟨[], s, c, rfl, rfl⟩
  | cons i is ih =>
    rw [List.forall_mem_cons] at hcodec
    obtain ⟨hi, his⟩ := hcodec
    obtain ⟨started', t, c', hexec, hexec', hkeep', hc'⟩ := exec_of_discipline hkeep hi hc
    obtain ⟨rs, u, c'', hrun, hrun'⟩ := ih hkeep' (exec_cfg hexec ▸ his) hc'
    exact ⟨t.response :: rs, u, c'', runOps_cons_next hexec hrun, runOps_cons_next (t := t.setCrc c') hexec' hrun'⟩

/-- Settles O58: before a computation the two remainders may differ, and no operation there reads them. -/
theorem disciplinedRunsForgetTheOldRemainder : Obligations.DisciplinedRunsForgetTheOldRemainder := by
  intro is s c hadmits hcodec
  obtain ⟨rs, t, c', hrun, hrun'⟩ := runOps_of_discipline (started := false) (c := c) hadmits hcodec nofun
  exact ⟨rs, t, t.setCrc c', hrun, hrun', rfl, rfl⟩

/-! ### Stepping -/

/-- A reply does not look at what the host presents later, and leaves it. -/
theorem reply_setInputs {s t : State} {x : Except BadOperand Results} (h : reply s x = .next t) (ins : List HostInput) :
    reply (s.setInputs ins) x = .next (t.setInputs ins) := by
  obtain ⟨r, rfl, rfl⟩ | ⟨o, rfl, rfl⟩ := reply_cases h <;> rfl

/-- An operation does not look at what the host presents later, and leaves it (R12). -/
theorem exec_setInputs {i : Instr} {s t : State} (h : exec i s = .next t) (ins : List HostInput) :
    exec i (s.setInputs ins) = .next (t.setInputs ins) := by
  cases i with
  | crcInit | crcFeed | crcRead | crcCheck | hdrDec | bitGet | bitSet | sclDec | postInv =>
    cases h
    rfl
  | eqReg r a b =>
    have hin : ¬ outsideCodec s.cfg r = true := ne_true_of_eq_false (inCodec_eqReg.mp (inCodec_of_exec_next h))
    have hreply : reply s ((registerEqual s.cfg r a b).map .equal) = .next t := (if_neg hin).symm.trans h
    exact (if_neg hin).trans (reply_setInputs hreply ins)
  | _ => exact reply_setInputs h ins

/-- A step of a command's encoding performs the operation on the rest of the inputs (R12, R74). -/
theorem step_encode {i : Instr} {s t : State} {ins : List HostInput} (hwf : configWf s.cfg = true)
    (hin : s.inputs = .command (encode i) :: ins) (h : exec i s = .next t) : step s = .next (t.setInputs ins) := by
  rw [step_command hwf hin, perform_of_decode (decode_encode i), exec_setInputs h]

theorem run_succ_of_step {s t : State} (h : step s = .next t) (k : Nat) :
    Host.Core.run Sys2Proof.core (k + 1) s = Host.Core.run Sys2Proof.core k t := by
  simp only [Host.Core.run, show Sys2Proof.core.step s = .next t from h]

/-- Settles O60: each step performs the operation whose encoding is presented, and what is presented later is left for the next. -/
theorem steppingTheCommandsPerformsTheRun : Obligations.SteppingTheCommandsPerformsTheRun := by
  intro is
  induction is with
  | nil =>
    intro s _ hin _
    have hs : s.setInputs [] = s := by rw [← show s.inputs = [] from hin]; rfl
    exact ⟨[], s.setInputs [], rfl, hs.symm ▸ rfl⟩
  | cons i is ih =>
    intro s hwf hin hcodec
    rw [List.forall_mem_cons] at hcodec
    obtain ⟨hi, his⟩ := hcodec
    obtain ⟨t, hexec⟩ := exec_next_of_inCodec hi
    have hcfg := exec_cfg hexec
    have hstep := step_encode hwf hin hexec
    obtain ⟨rs, u, hrun, hsteps⟩ := ih (t.setInputs _) (hcfg ▸ hwf) rfl (hcfg ▸ his)
    exact ⟨t.response :: rs, u, runOps_cons_next (t := t.setInputs []) (exec_setInputs hexec []) hrun,
      (run_succ_of_step hstep _).trans hsteps⟩

end Sys2Proof.Machine
end
